-- ==== Sys2Proof/Word.lean ====
section
/-! DEFINITION. The plain words of the block: a byte and the 32-bit word of a host register or counter
(spec 00_scope.md R12). -/

namespace Sys2Proof

/-- A `u8`: one byte of a datagram, of a block payload, or an element of GF(2^8). -/
abbrev Byte := BitVec 8

/-- A `u32`: a counter, a register word, a `frameIndex`; arithmetic on it wraps modulo 2^32. -/
abbrev Word := BitVec 32

end Sys2Proof
end

