-- ==== Sys2Proof/Machine/Field.lean ====
section
/-! DEFINITION. The field GF(2^8) and the rows of the erasure code for given parameters, and what it means
that the code is MDS (42_fec_recovery.md R98 to R100). -/

namespace Sys2Proof

/-- `P_CODE`: the coefficients of the recovery rows (42_fec_recovery.md R99). `cauchy` is the default of
R100. `rows t` gives row `i` (for `P_K ≤ i ≤ 255`) as element `i - P_K` of `t`. -/
inductive Code where
  | cauchy
  | rows (t : List (List Byte))
deriving DecidableEq, Repr

namespace Machine

/-! ### Field arithmetic (R98) -/

/-- The loop of `gmul`: `r` the product so far, `a` the multiplicand, `b` the multiplier. -/
def gmulLoop (poly : BitVec 9) : Nat → BitVec 9 → BitVec 9 → Byte → BitVec 9
  | 0, r, _, _ => r
  | n + 1, r, a, b =>
    let r := if b.getLsbD 0 then r ^^^ a else r
    let a := a <<< 1
    -- the intermediate has bits 8:0; bit 8 is reduced away by the polynomial, whose bit 8 is 1
    let a := if a.getLsbD 8 then a ^^^ poly else a
    gmulLoop poly n r a (b >>> 1)

/-- `a ⊗ b`. -/
def gmul (poly : BitVec 9) (a b : Byte) : Byte :=
  (gmulLoop poly 8 0#9 (a.setWidth 9) b).setWidth 8

/-- `inv(a)`: the byte `b` with `a ⊗ b = 1`. It exists for `a ≠ 0`; `inv(0)` is not used. -/
def ginv (poly : BitVec 9) (a : Byte) : Byte :=
  match (List.range 256).find? fun b => gmul poly a (BitVec.ofNat 8 b) == 1#8 with
  | some b => BitVec.ofNat 8 b
  | none => 0#8

/-- `a ⊘ b`. -/
def gdiv (poly : BitVec 9) (a b : Byte) : Byte := gmul poly a (ginv poly b)

/-! ### The rows of the code (R99, R100) -/

/-- The coefficient `a(i, j)` of recovery block `i` for original `j`, for P_K = `k`. A coefficient that a
table lacks is 0 (log 4); such a table is not MDS. -/
def codeEntry (poly : BitVec 9) (k : Nat) (code : Code) (i j : Nat) : Byte :=
  match code with
  | .cauchy =>
    gdiv poly (BitVec.ofNat 8 j ^^^ BitVec.ofNat 8 k) (BitVec.ofNat 8 i ^^^ BitVec.ofNat 8 j)
  | .rows t => (t.getD (i - k) []).getD j 0#8

/-- Row `i` of the generator matrix `G`: a unit vector for an original, coefficients for a recovery block. -/
def codeRow (poly : BitVec 9) (k : Nat) (code : Code) (i : Nat) : List Byte :=
  (List.range k).map fun j =>
    if i < k then (if i = j then 1#8 else 0#8) else codeEntry poly k code i j

/-- The sum of the products of two vectors. -/
def gdot (poly : BitVec 9) : List Byte → List Byte → Byte
  | a :: as, x :: xs => gmul poly a x ^^^ gdot poly as xs
  | _, _ => 0#8

/-- The code is MDS (R99): for every set `S` of P_K distinct indices in 0..255 the square matrix `G_S` is
invertible, that is, it takes no vector but 0 to 0. -/
def IsMds (poly : BitVec 9) (k : Nat) (code : Code) : Prop :=
  ∀ S : List Nat, S.length = k → S.Nodup → (∀ i ∈ S, i < 256) →
    ∀ x : List Byte, x.length = k → (∀ i ∈ S, gdot poly (codeRow poly k code i) x = 0#8) →
      ∀ b ∈ x, b = 0#8

end Machine

end Sys2Proof
end

