-- ==== Sys2Proof/Machine/Cauchy.lean ====
section
/-! DEFINITION. The default code is MDS (42_fec_recovery.md R100): the Cauchy rows over the default field,
for every P_K. The profile TP carries this proof. Before it, what multiplication in the field satisfies. -/

namespace Sys2Proof.Machine

/-! ### The field -/

/-- Doubling in the field, on the 9-bit intermediate. -/
theorem xtime_xor (poly a a' : BitVec 9) :
    (if ((a ^^^ a') <<< 1).getLsbD 8 then ((a ^^^ a') <<< 1) ^^^ poly else (a ^^^ a') <<< 1) =
      (if (a <<< 1).getLsbD 8 then (a <<< 1) ^^^ poly else a <<< 1) ^^^
      (if (a' <<< 1).getLsbD 8 then (a' <<< 1) ^^^ poly else a' <<< 1) := by
  have h : (a ^^^ a') <<< 1 = (a <<< 1) ^^^ (a' <<< 1) := by rw [BitVec.shiftLeft_xor_distrib]
  rw [h, BitVec.getLsbD_xor]
  generalize a <<< 1 = x
  generalize a' <<< 1 = y
  cases x.getLsbD 8 <;> cases y.getLsbD 8 <;> simp
  · rw [BitVec.xor_assoc]
  · rw [BitVec.xor_assoc, BitVec.xor_comm y poly, BitVec.xor_assoc]
  · rw [BitVec.xor_assoc x, BitVec.xor_comm y poly, ← BitVec.xor_assoc poly]; simp

theorem gmulLoop_xor_left (poly : BitVec 9) (n : Nat) (r r' a a' : BitVec 9) (b : Byte) :
    gmulLoop poly n (r ^^^ r') (a ^^^ a') b = gmulLoop poly n r a b ^^^ gmulLoop poly n r' a' b := by
  induction n generalizing r r' a a' b with
  | zero => rfl
  | succ n ih =>
    simp only [gmulLoop]
    rw [xtime_xor, ← ih]
    congr 1
    split
    · ac_rfl
    · rfl

theorem gmulLoop_xor_right (poly : BitVec 9) (n : Nat) (r r' a : BitVec 9) (b b' : Byte) :
    gmulLoop poly n (r ^^^ r') a (b ^^^ b') = gmulLoop poly n r a b ^^^ gmulLoop poly n r' a b' := by
  induction n generalizing r r' a b b' with
  | zero => rfl
  | succ n ih =>
    simp only [gmulLoop]
    rw [BitVec.ushiftRight_xor_distrib, ← ih]
    congr 1
    rw [BitVec.getLsbD_xor]
    cases b.getLsbD 0 <;> cases b'.getLsbD 0 <;> simp
    · ac_rfl
    · ac_rfl
    · rw [BitVec.xor_assoc r, BitVec.xor_comm r' a, ← BitVec.xor_assoc a]; simp

theorem gmul_xor_left (poly : BitVec 9) (a a' b : Byte) :
    gmul poly (a ^^^ a') b = gmul poly a b ^^^ gmul poly a' b := by
  have := gmulLoop_xor_left poly 8 0#9 0#9 (a.setWidth 9) (a'.setWidth 9) b
  simp only [gmul]
  rw [← BitVec.setWidth_xor, ← this, BitVec.setWidth_xor]; simp

theorem gmul_xor_right (poly : BitVec 9) (a b b' : Byte) :
    gmul poly a (b ^^^ b') = gmul poly a b ^^^ gmul poly a b' := by
  have := gmulLoop_xor_right poly 8 0#9 0#9 (a.setWidth 9) b b'
  simp only [gmul]
  rw [← BitVec.setWidth_xor, ← this]; simp

/-- What holds of 0 and the powers of two, and is kept by xor, holds of every byte. -/
theorem byte_xor_induction {P : Byte → Prop} (h0 : P 0#8) (h2 : ∀ i < 8, P (1#8 <<< i))
    (hx : ∀ a b, P a → P b → P (a ^^^ b)) (a : Byte) : P a := by
  have bit : ∀ i < 8, P (if a.getLsbD i then 1#8 <<< i else 0#8) := by
    intro i hi; split
    · exact h2 i hi
    · exact h0
  have e : ∀ a : Byte, a = (if a.getLsbD 0 then 1#8 <<< 0 else 0#8) ^^^ (if a.getLsbD 1 then 1#8 <<< 1 else 0#8) ^^^
      (if a.getLsbD 2 then 1#8 <<< 2 else 0#8) ^^^ (if a.getLsbD 3 then 1#8 <<< 3 else 0#8) ^^^
      (if a.getLsbD 4 then 1#8 <<< 4 else 0#8) ^^^ (if a.getLsbD 5 then 1#8 <<< 5 else 0#8) ^^^
      (if a.getLsbD 6 then 1#8 <<< 6 else 0#8) ^^^ (if a.getLsbD 7 then 1#8 <<< 7 else 0#8) := by decide +kernel
  rw [e a]
  exact hx _ _ (hx _ _ (hx _ _ (hx _ _ (hx _ _ (hx _ _ (hx _ _ (bit 0 (by decide)) (bit 1 (by decide))) (bit 2 (by decide))) (bit 3 (by decide))) (bit 4 (by decide))) (bit 5 (by decide))) (bit 6 (by decide))) (bit 7 (by decide))

theorem gmul_zero_left (poly : BitVec 9) (b : Byte) : gmul poly 0#8 b = 0#8 := by
  have := gmul_xor_left poly 0#8 0#8 b
  simpa using this

theorem gmul_zero_right (poly : BitVec 9) (b : Byte) : gmul poly b 0#8 = 0#8 := by
  have := gmul_xor_right poly b 0#8 0#8
  simpa using this

theorem gmul_comm (a b : Byte) : gmul 0x14D#9 a b = gmul 0x14D#9 b a := by
  induction a using byte_xor_induction with
  | h0 => rw [gmul_zero_left, gmul_zero_right]
  | h2 i hi =>
    induction b using byte_xor_induction with
    | h0 => rw [gmul_zero_left, gmul_zero_right]
    | h2 j hj => revert i j; decide +kernel
    | hx a b ha hb => rw [gmul_xor_left, gmul_xor_right, ha, hb]
  | hx x y hx hy => rw [gmul_xor_left, gmul_xor_right, hx, hy]

theorem gmul_assoc (a b c : Byte) :
    gmul 0x14D#9 (gmul 0x14D#9 a b) c = gmul 0x14D#9 a (gmul 0x14D#9 b c) := by
  induction a using byte_xor_induction with
  | h0 => simp only [gmul_zero_left]
  | hx x y hx hy => simp only [gmul_xor_left, hx, hy]
  | h2 i hi =>
    induction b using byte_xor_induction with
    | h0 => simp only [gmul_zero_left, gmul_zero_right]
    | hx x y hx hy => simp only [gmul_xor_left, gmul_xor_right, hx, hy]
    | h2 j hj =>
      induction c using byte_xor_induction with
      | h0 => simp only [gmul_zero_right]
      | hx x y hx hy => simp only [gmul_xor_right, hx, hy]
      | h2 k hk => revert i j k; decide +kernel

theorem gmul_one (a : Byte) : gmul 0x14D#9 1#8 a = a := by
  induction a using byte_xor_induction with
  | h0 => decide +kernel
  | h2 i hi => revert i; decide +kernel
  | hx a b ha hb => rw [gmul_xor_right, ha, hb]

/-- The inverses of 1 to 255, byte by byte. -/
def inverseTable : Nat :=
  0x446896ebbda164bb90b9c79dab6717134d3d991ffc9742a5465b0a254fc0102a1b2e6dc337c888619e208c14b5849a7f277971556e5d36daf59ca703dc6c4ee23218fba0f865f6914b73d38522823451ad56af57f3669538c502e8434858fabc21d7f4c67ed1ed1eeafda939808ab8f7082d15d5819260d90552b4d223b28b93d09b0f3b3f77ce267a3e6307b64acd545ccbddc2402845fef2aabaf97506d889300dca6fe64749a2acaecc700486b035e3c1ef3cb77259a35ae769ffa4e9296b7b76ee4c7c0e94a8dbc950b119bf0c5f1ade8e0911e0416acf78e40b83b39fd6ec981c1ddf2f33bef1128dd4f0162be17d3a5e3124e52c8f74628753c4a60100

theorem gmul_inverseTable : ∀ a : Byte, a ≠ 0#8 →
    gmul 0x14D#9 a (BitVec.ofNat 8 (inverseTable >>> (8 * a.toNat))) = 1#8 := by decide +kernel

theorem gmul_ginv {a : Byte} (ha : a ≠ 0#8) : gmul 0x14D#9 a (ginv 0x14D#9 a) = 1#8 := by
  obtain ⟨b, h⟩ : ∃ b, gmul 0x14D#9 a b = 1#8 := ⟨_, gmul_inverseTable a ha⟩
  unfold ginv
  split
  · rename_i b hb; simpa using List.find?_some hb
  · rename_i hn
    rw [List.find?_eq_none] at hn
    exact absurd (by simpa using h) (hn b.toNat (by simpa using b.isLt))

theorem ginv_zero : ginv 0x14D#9 0#8 = 0#8 := by decide +kernel

/-! ### The Cauchy rows -/

/-- A byte as an element of the default field. -/
structure Elem where
  byte : Byte
deriving DecidableEq

theorem Elem.ext' {a b : Elem} (h : a.byte = b.byte) : a = b := by cases a; cases b; cases h; rfl

/-- The default field. -/
abbrev elemField : Field Elem where
  add a b := ⟨a.byte ^^^ b.byte⟩
  zero := ⟨0#8⟩
  neg a := a
  mul a b := ⟨gmul 0x14D#9 a.byte b.byte⟩
  one := ⟨1#8⟩
  inv a := ⟨ginv 0x14D#9 a.byte⟩
  add_assoc a b c := Elem.ext' (BitVec.xor_assoc _ _ _)
  zero_add a := Elem.ext' BitVec.zero_xor
  add_zero a := Elem.ext' BitVec.xor_zero
  add_comm a b := Elem.ext' (BitVec.xor_comm _ _)
  neg_add_cancel a := Elem.ext' BitVec.xor_self
  left_distrib a b c := Elem.ext' (gmul_xor_right _ _ _ _)
  right_distrib a b c := Elem.ext' (gmul_xor_left _ _ _ _)
  zero_mul a := Elem.ext' (gmul_zero_left _ _)
  mul_zero a := Elem.ext' (gmul_zero_right _ _)
  mul_assoc a b c := Elem.ext' (gmul_assoc _ _ _)
  one_mul a := Elem.ext' (gmul_one _)
  mul_one a := Elem.ext' ((gmul_comm _ _).trans (gmul_one _))
  mul_comm a b := Elem.ext' (gmul_comm _ _)
  exists_pair_ne := ⟨⟨0#8⟩, ⟨1#8⟩, by decide⟩
  mul_inv_cancel a h := Elem.ext' (gmul_ginv fun h0 => h (Elem.ext' h0))
  inv_zero := Elem.ext' ginv_zero
  nsmul := @nsmulRec Elem ⟨⟨0#8⟩⟩ ⟨fun a b => ⟨a.byte ^^^ b.byte⟩⟩
  zsmul := @zsmulRec Elem ⟨⟨0#8⟩⟩ ⟨fun a b => ⟨a.byte ^^^ b.byte⟩⟩ ⟨fun a => a⟩
    (@nsmulRec Elem ⟨⟨0#8⟩⟩ ⟨fun a b => ⟨a.byte ^^^ b.byte⟩⟩)
  nnqsmul := _
  qsmul := _

/-- A Cauchy system with as many equations `i` as unknowns `y j` has only the solution 0. -/
theorem cauchy_trivial {F : Type} [Field F] (js is : List F) (y : F → F) (hl : is.length = js.length)
    (hj : js.Nodup) (hi : is.Nodup) (hd : ∀ i ∈ is, ∀ j ∈ js, i ≠ j)
    (h : ∀ i ∈ is, (js.map fun j => y j / (i - j)).sum = 0) : ∀ j ∈ js, y j = 0 := by
  induction js generalizing is y with
  | nil => simp
  | cons j0 js ih =>
    obtain ⟨i0, is, rfl⟩ := List.exists_cons_of_length_eq_add_one hl
    rw [List.nodup_cons] at hj hi
    have h0 := h i0 List.mem_cons_self
    rw [List.map_cons, List.sum_cons] at h0
    have hij : i0 - j0 ≠ 0 := sub_ne_zero.mpr (hd i0 List.mem_cons_self j0 List.mem_cons_self)
    have rest : ∀ j ∈ js, y j = 0 := by
      have := ih is (fun j => y j * (j - j0) / (i0 - j)) (by simpa using hl) hj.2 hi.2
        (fun i hi j hj => hd i (List.mem_cons_of_mem _ hi) j (List.mem_cons_of_mem _ hj)) (by
          intro i him
          have hi1 := h i (List.mem_cons_of_mem _ him)
          rw [List.map_cons, List.sum_cons] at hi1
          have hii : i - i0 ≠ 0 := sub_ne_zero.mpr fun e => hi.1 (e ▸ him)
          have hij' : i - j0 ≠ 0 := sub_ne_zero.mpr (hd i (List.mem_cons_of_mem _ him) j0 List.mem_cons_self)
          have e : (js.map fun j => y j * (j - j0) / (i0 - j) / (i - j)).sum * (i - i0) =
              (i0 - j0) * (js.map fun j => y j / (i0 - j)).sum + (-(i - j0)) * (js.map fun j => y j / (i - j)).sum := by
            rw [← List.sum_map_mul_right, ← List.sum_map_mul_left, ← List.sum_map_mul_left, ← List.sum_map_add]
            congr 1
            refine List.map_congr_left fun j hjm => ?_
            have a1 : i - j ≠ 0 := sub_ne_zero.mpr (hd i (List.mem_cons_of_mem _ him) j (List.mem_cons_of_mem _ hjm))
            have a2 : i0 - j ≠ 0 := sub_ne_zero.mpr (hd i0 List.mem_cons_self j (List.mem_cons_of_mem _ hjm))
            field_simp
            ring
          have e2 : (i0 - j0) * (js.map fun j => y j / (i0 - j)).sum = - y j0 := by
            have : (js.map fun j => y j / (i0 - j)).sum = -(y j0 / (i0 - j0)) := by linear_combination h0
            rw [this]; field_simp
          have e3 : (i - j0) * (js.map fun j => y j / (i - j)).sum = - y j0 := by
            have : (js.map fun j => y j / (i - j)).sum = -(y j0 / (i - j0)) := by linear_combination hi1
            rw [this]; field_simp
          rw [neg_mul, e2, e3, neg_neg, neg_add_cancel] at e
          exact (mul_eq_zero.mp e).resolve_right hii)
      intro j hjm
      have h1 := this j hjm
      have a1 : j - j0 ≠ 0 := sub_ne_zero.mpr fun e => hj.1 (e ▸ hjm)
      have a2 : i0 - j ≠ 0 := sub_ne_zero.mpr (hd i0 List.mem_cons_self j (List.mem_cons_of_mem _ hjm))
      simpa [a1, a2] using h1
    intro j hjm
    rcases List.mem_cons.mp hjm with rfl | hjm
    · have : (js.map fun j => y j / (i0 - j)).sum = 0 := by
        refine List.sum_eq_zero fun x hx => ?_
        obtain ⟨j, hj', rfl⟩ := List.mem_map.mp hx
        rw [rest j hj', zero_div]
      rw [this, add_zero] at h0
      simpa [hij] using h0
    · exact rest j hjm

theorem gdot_map (l : List Nat) (f v : Nat → Byte) :
    letI := elemField
    (⟨gdot 0x14D#9 (l.map f) (l.map v)⟩ : Elem) = (l.map fun j => (⟨f j⟩ * ⟨v j⟩ : Elem)).sum := by
  let := elemField
  induction l with
  | nil => rfl
  | cons j l ih => rw [List.map_cons (f := fun j => (⟨f j⟩ * ⟨v j⟩ : Elem)), List.sum_cons, ← ih]; rfl

theorem sum_filter_zero {F : Type} [AddCommMonoid F] (l : List Nat) (p : Nat → Bool) (g : Nat → F)
    (h : ∀ j ∈ l, p j = false → g j = 0) : (l.map g).sum = ((l.filter p).map g).sum := by
  induction l with
  | nil => rfl
  | cons j l ih =>
    have ih := ih fun i hi => h i (List.mem_cons_of_mem _ hi)
    rw [List.filter_cons]
    split
    · simp [ih]
    · simp [ih, h j List.mem_cons_self (by simpa using ‹¬ p j = true›)]

/-- The originals that are not in `S` are as many as the recovery blocks that are. -/
theorem missing_length {k : Nat} {S : List Nat} (hl : S.length = k) (hn : S.Nodup) :
    (S.filter fun i => !decide (i < k)).length = ((List.range k).filter fun j => !decide (j ∈ S)).length := by
  have h1 := List.length_eq_length_filter_add (l := S) fun i => decide (i < k)
  have h2 := List.length_eq_length_filter_add (l := List.range k) fun j => decide (j ∈ S)
  have h3 : (S.filter fun i => decide (i < k)).length = ((List.range k).filter fun j => decide (j ∈ S)).length := by
    refine List.Perm.length_eq ((List.perm_ext_iff_of_nodup (hn.filter _) (List.nodup_range.filter _)).mpr fun a => ?_)
    simp [and_comm]
  rw [List.length_range] at h2
  omega

theorem ofNat_byte_inj {i j : Nat} (hi : i < 256) (hj : j < 256) (h : BitVec.ofNat 8 i = BitVec.ofNat 8 j) : i = j := by
  have := congrArg BitVec.toNat h
  simpa [Nat.mod_eq_of_lt hi, Nat.mod_eq_of_lt hj] using this

/-- The Cauchy rows over the default field make an MDS code, for every P_K (R100). -/
theorem cauchy_isMds (k : Nat) (hk : k ≤ 256) : IsMds 0x14D#9 k .cauchy := by
  intro S hl hn hlt x hx h
  let := elemField
  have hv : x = (List.range k).map fun j => x.getD j 0#8 := by
    refine List.ext_getElem (by simp [hx]) fun i h1 h2 => ?_
    simp [List.getD_eq_getElem?_getD, h1]
  generalize (fun j => x.getD j 0#8) = v at hv
  have hS : ∀ i ∈ S, ((List.range k).map fun j =>
      ((⟨if i < k then (if i = j then 1#8 else 0#8) else codeEntry 0x14D#9 k .cauchy i j⟩ : Elem) * ⟨v j⟩)).sum = 0 := by
    intro i hi
    rw [← gdot_map, ← hv]
    exact Elem.ext' (h i hi)
  have hpres : ∀ i ∈ S, i < k → v i = 0#8 := by
    intro i hi hik
    have := hS i hi
    rw [sum_filter_zero _ (fun j => decide (j = i)) _ (fun j _ hj => by
      have : ¬ i = j := fun e => by simp [e] at hj
      rw [if_pos hik, if_neg this]; exact zero_mul _)] at this
    rw [show (List.range k).filter (fun j => decide (j = i)) = [i] by
      rw [List.filter_eq]
      rw [List.count_eq_one_of_mem List.nodup_range (List.mem_range.mpr hik)]; rfl] at this
    rw [List.map_singleton, List.sum_singleton, if_pos hik, if_pos rfl] at this
    exact congrArg Elem.byte ((one_mul _).symm.trans this)
  have hmiss : ∀ j < k, j ∉ S → v j = 0#8 := by
    intro j hjk hjS
    have hjm : j ∈ (List.range k).filter fun j => !decide (j ∈ S) := by simp [hjk, hjS]
    have hlen := missing_length hl hn
    have hk256 : k < 256 := by
      have : 0 < (S.filter fun i => !decide (i < k)).length := by rw [hlen]; exact List.length_pos_of_mem hjm
      obtain ⟨i, hi⟩ := List.exists_mem_of_length_pos this
      have h1 := hlt i (List.mem_filter.mp hi).1
      have h2 := (List.mem_filter.mp hi).2
      simp at h2; omega
    have key := cauchy_trivial (((List.range k).filter fun j => !decide (j ∈ S)).map fun j => (⟨BitVec.ofNat 8 j⟩ : Elem))
      ((S.filter fun i => !decide (i < k)).map fun j => (⟨BitVec.ofNat 8 j⟩ : Elem))
      (fun a => ⟨a.byte ^^^ BitVec.ofNat 8 k⟩ * ⟨v a.byte.toNat⟩) (by simpa using hlen)
      (by
        refine List.Nodup.map_on (fun a ha b hb e => ?_) (List.nodup_range.filter _)
        have ha := List.mem_range.mp (List.mem_filter.mp ha).1
        have hb := List.mem_range.mp (List.mem_filter.mp hb).1
        exact ofNat_byte_inj (by omega) (by omega) (congrArg Elem.byte e))
      (by
        refine List.Nodup.map_on (fun a ha b hb e => ?_) (hn.filter _)
        exact ofNat_byte_inj (hlt a (List.mem_filter.mp ha).1) (hlt b (List.mem_filter.mp hb).1) (congrArg Elem.byte e))
      (by
        intro a ha b hb e
        obtain ⟨i, hi, rfl⟩ := List.mem_map.mp ha
        obtain ⟨j, hj, rfl⟩ := List.mem_map.mp hb
        have h1 := hlt i (List.mem_filter.mp hi).1
        have h2 := (List.mem_filter.mp hi).2
        have h3 := List.mem_range.mp (List.mem_filter.mp hj).1
        have := ofNat_byte_inj h1 (by omega) (congrArg Elem.byte e)
        simp at h2; omega)
      (by
        intro a ha
        obtain ⟨i, hi, rfl⟩ := List.mem_map.mp ha
        obtain ⟨hiS, hik⟩ := List.mem_filter.mp hi
        have hik : ¬ i < k := by simpa using hik
        have e := hS i hiS
        rw [sum_filter_zero _ (fun j => !decide (j ∈ S)) _ (fun j hj hp => by
          rw [hpres j (by simpa using hp) (List.mem_range.mp hj)]; exact mul_zero _)] at e
        rw [List.map_map]
        rw [← e]
        congr 1
        refine List.map_congr_left fun j hj => ?_
        have hj := List.mem_range.mp (List.mem_filter.mp hj).1
        simp only [Function.comp, if_neg hik]
        rw [show (BitVec.ofNat 8 j).toNat = j by simp; omega]
        exact (mul_right_comm (⟨BitVec.ofNat 8 j ^^^ BitVec.ofNat 8 k⟩ : Elem) ⟨v j⟩
          (⟨BitVec.ofNat 8 i ^^^ BitVec.ofNat 8 j⟩ : Elem)⁻¹))
    have := key ⟨BitVec.ofNat 8 j⟩ (List.mem_map.mpr ⟨j, hjm, rfl⟩)
    rcases mul_eq_zero.mp this with h0 | h0
    · have := congrArg Elem.byte h0
      have : BitVec.ofNat 8 j ^^^ BitVec.ofNat 8 k = 0#8 := this
      rw [BitVec.xor_eq_zero_iff] at this
      have := ofNat_byte_inj (by omega) hk256 this
      omega
    · have := congrArg Elem.byte h0
      have : v (BitVec.ofNat 8 j).toNat = 0#8 := this
      rwa [show (BitVec.ofNat 8 j).toNat = j by simp; omega] at this
  intro b hb
  rw [hv] at hb
  obtain ⟨j, hj, rfl⟩ := List.mem_map.mp hb
  have hj := List.mem_range.mp hj
  by_cases hjS : j ∈ S
  · exact hpres j hjS hj
  · exact hmiss j hj hjS

end Sys2Proof.Machine
end

