-- ==== Sys2Proof/Config.lean ====
section
/-! DEFINITION. The implementation parameters of spec 00_scope.md R6 with their normative constraints,
the profiles the spec names, and the one value left free. -/

namespace Sys2Proof

/-- `WIRE_ENDIAN` of 20_memory.md R46: the order of the bytes of a multi-byte wire field. -/
inductive Endian where
  | little
  | big
deriving DecidableEq, Repr

/-- `P_RX_BITS`: the internal sample width on the Rx path, 16 or 24 (R6, D9). -/
inductive RxBits where
  | b16
  | b24
deriving DecidableEq, Repr

/-- The width in bits. -/
def RxBits.bits : RxBits → Nat
  | .b16 => 16
  | .b24 => 24

/-- `P_CRC`: a CRC of 32 bits (R6). `poly` is the generator without its x^32 term, in normal order;
`reflectIn` says that each byte is processed least significant bit first, `reflectOut` that the
result is read that way too. DESIGN CHOICE: no condition is put on the generator, since R6 asks only for
'a CRC of 32 bits'; `poly = 0`, the generator x^32 of one term, is admitted, and with it the check
detects no flipped bit (43_meta_validator.md R115 speaks of more than one term): log 20. -/
structure CrcParams where
  poly : Word
  init : Word
  xorOut : Word
  reflectIn : Bool
  reflectOut : Bool
deriving DecidableEq, Repr

/-- The default `P_CRC`, CRC-32/ISO-HDLC (43_meta_validator.md R113, 93_implementation_defined.md G3). -/
def CrcParams.isoHdlc : CrcParams where
  poly := 0x04C11DB7#32
  init := 0xFFFFFFFF#32
  xorOut := 0xFFFFFFFF#32
  reflectIn := true
  reflectOut := true

/-- A power of two, 1 included. -/
def isPow2 (n : Nat) : Bool := n != 0 && n == 2 ^ n.log2

/-- The remainder of the polynomial `p` over GF(2) (bit `k` is the coefficient of `x^k`) by `d`, for
`p` of degree below `deg d + s`. -/
def polyRem (d : Nat) : Nat → Nat → Nat
  | 0, p => p
  | s + 1, p => polyRem d s (if p.testBit (s + d.log2) then p ^^^ (d <<< s) else p)

/-- A polynomial of degree 8 over GF(2) with no divisor of degree 1 to 4 is irreducible. -/
def isIrreducible8 (p : BitVec 9) : Bool :=
  p[8] && (List.range 30).all fun d => polyRem (d + 2) 8 p.toNat != 0

/-- The parameters of 00_scope.md R6 (and `WIRE_ENDIAN` of R46) as plain data.
`P_HEADER_BYTES`, `MAX_BLOCKS` and the sizes derived from them are fixed and stand below. -/
structure Params where
  k : Nat
  blockBytes : Nat
  ringMax : Nat
  ringReset : Nat
  jbMax : Nat
  jbReset : Nat
  tqCapacity : Nat
  rxBits : RxBits
  rxHeadroom : Nat
  fecAvailable : Bool
  gfPoly : BitVec 9
  code : Code
  crc : CrcParams
  wireEndian : Endian
deriving DecidableEq, Repr

/-- The numeric constraints of R6. The bounds by 2^32 are not in that column: DEDUCED from the 32-bit
registers and results that hold these values (PARAM_BLOCK_BYTES, the reset values of CFG_RING_SIZE and
CFG_JB_DEPTH: 10_state.md R34, R38, R39; TQ_LEN: 41_transfer_queue.md R96), log 3. -/
abbrev Params.Bounds (p : Params) : Prop :=
  2 ≤ p.k ∧ p.k ≤ 256 ∧
  32 ≤ p.blockBytes ∧ p.blockBytes < 2 ^ 32 ∧
  isPow2 p.ringMax = true ∧
  isPow2 p.ringReset = true ∧ p.ringReset ≤ p.ringMax ∧ p.ringReset < 2 ^ 32 ∧
  1 ≤ p.jbReset ∧ p.jbReset ≤ p.jbMax ∧ p.jbReset < 2 ^ 32 ∧
  1 ≤ p.tqCapacity ∧ p.tqCapacity < 2 ^ 32 ∧
  p.rxHeadroom ≤ 8 ∧
  isIrreducible8 p.gfPoly = true

/-- The constraint column of R6: the numeric constraints, and that P_CODE is MDS (42_fec_recovery.md R99).
P_CRC has no constraint (DESIGN CHOICE, log 20). -/
structure Params.Legal (p : Params) : Prop where
  bounds : p.Bounds
  mds : Machine.IsMds p.gfPoly p.k p.code

/-- A legal choice of the parameters: the configuration of one machine. A choice outside the
constraints of R6 is no machine of the spec and cannot be built (U1, U2: 'refuse'). -/
structure Config extends Params where
  legal : toParams.Legal
deriving DecidableEq, Repr

/-- `P_HEADER_BYTES`, fixed at 8 (R6, D3). -/
def headerBytes : Nat := 8

/-- `MAX_BLOCKS`, fixed at 256 (R6). -/
def maxBlocks : Nat := 256

/-- `META_BYTES` (R8). -/
def metaBytes : Nat := 32

/-- `CRC_SPAN` (R8). -/
def crcSpan : Nat := 28

/-- `DG_BYTES`, the size of a datagram (R8). -/
def Config.dgBytes (c : Config) : Nat := headerBytes + c.blockBytes

/-- The test profile TP of 00_scope.md R9: the one complete set of values the spec names. -/
def Params.testProfile : Params where
  k := 4
  blockBytes := 32
  ringMax := 8
  ringReset := 4
  jbMax := 32
  jbReset := 2
  tqCapacity := 4
  rxBits := .b16
  rxHeadroom := 0
  fecAvailable := true
  gfPoly := 0x14D#9
  code := .cauchy
  crc := CrcParams.isoHdlc
  wireEndian := .little

/-- TP as a configuration. DESIGN CHOICE: the machine of `State.reset` has this one (log 2). -/
def Config.testProfile : Config where
  toParams := Params.testProfile
  legal := ⟨by decide, Machine.cauchy_isMds 4 (by decide)⟩

/-- FREE VALUE, with no body: byte `t` of original `j` that the decoder returns for a set `S` of blocks whose
equations it cannot solve. P_K distinct indices are no such set, the code being MDS (R99): log 10. -/
opaque Config.singularDecode (S : List (Nat × List Byte)) (j t : Nat) : Byte

end Sys2Proof
end

