-- ==== Sys2Proof/Syntax.lean ====
section
/-! DEFINITION. The operations of the block, one constructor per row of spec/opcode_table.json
(30_encoding.md R77), and the records their operands are made of (10_state.md R22, R23, R29). -/

namespace Sys2Proof

/-- A block slot (10_state.md R22). The payload is a list of `P_BLOCK_BYTES` bytes. -/
structure Block where
  present : Bool
  payload : List Byte
  tagBytes : Byte
  tagBits : Byte
deriving DecidableEq, Repr

/-- A frame record (10_state.md R23). `blocks` has 256 entries, slot `b` at position `b`. -/
structure Frame where
  frameIndex : Word
  blocks : List Block
  originalCount : Word
  recoveryCount : Word
  blockCount : Word
  metaRetrieved : Bool
deriving DecidableEq, Repr

/-- A jitter-buffer entry (10_state.md R29): a frame and the byte width of one sample component. -/
structure JbEntry where
  frame : Frame
  sb : Byte
deriving DecidableEq, Repr

/-- The agents of 00_scope.md R11. -/
inductive Agent where
  /-- NET, the network side. -/
  | network
  /-- REC, the recovery side. -/
  | recovery
  /-- CON, the real-time consumer. -/
  | consumer
  /-- HOST, the UI and settings collaborator. -/
  | host
deriving DecidableEq, Repr

/-- The operations of 30_encoding.md R77. -/
inductive Instr where
  | ingest (dg : List Byte)
  | tqPush (fr : Frame)
  | tqPop
  | tqLen
  | tqClear
  | recProcess
  | fecRecover (fr : Frame) (m : Nat)
  | metaValidate (fr : Frame)
  | jbPush (e : JbEntry)
  | readSampleRx
  | readSampleTx
  | regRead (addr : Byte)
  | regWrite (addr : Byte) (data : Word)
  | start
  | stop
  | clearCounters
  | reset
deriving DecidableEq, Repr

end Sys2Proof
end

