-- ==== Sys2Proof/WellFormed.lean ====
section
/-! DEFINITION. When an operation's operands are values of the types the spec gives them: a frame has 256
slots of `P_BLOCK_BYTES` bytes (10_state.md R22, R23), a datagram at most 65535 bytes (20_memory.md
R45), and M fits the record form of Decode.lean. -/

namespace Sys2Proof

/-- A block slot with a payload of `bb` bytes (R22). -/
def Block.wf (bb : Nat) (b : Block) : Bool := b.payload.length == bb

/-- A frame record of 256 slots, each well formed (R23). -/
def Frame.wf (bb : Nat) (fr : Frame) : Bool :=
  fr.blocks.length == maxBlocks && fr.blocks.all (Block.wf bb)

/-- The operands are values of their types. -/
def Instr.wf (c : Config) : Instr → Bool
  | .ingest dg => dg.length ≤ 65535
  | .tqPush fr => fr.wf c.blockBytes
  | .tqPop => true
  | .tqLen => true
  | .tqClear => true
  | .recProcess => true
  | .fecRecover fr m => fr.wf c.blockBytes && m < 65536
  | .metaValidate fr => fr.wf c.blockBytes
  | .jbPush e => e.frame.wf c.blockBytes
  | .readSampleRx => true
  | .readSampleTx => true
  | .regRead _ => true
  | .regWrite _ _ => true
  | .start => true
  | .stop => true
  | .clearCounters => true
  | .reset => true

end Sys2Proof
end

