-- ==== Sys2Proof/Decode.lean ====
section
/-! DEFINITION. Decoding and encoding of operation records.

The selector byte is 30_encoding.md R77's. The spec gives the operands of each operation but no byte form
of them ('They have no meaning on any wire', R77; 91_not_in_source.md N16): the record form below is a
DESIGN CHOICE (log 5). A record is the selector followed by the operands, numbers least significant
byte first:

- INGEST: the length of the datagram in 2 bytes, then its bytes.
- REG_READ: addr. REG_WRITE: addr, then data in 4 bytes.
- TQ_PUSH, META_VALIDATE: a frame. FEC_RECOVER: a frame, then M in 2 bytes. JB_PUSH: a frame, then sb.
- every other operation: nothing.

A frame is frameIndex, originalCount, recoveryCount, blockCount in 4 bytes each, metaRetrieved in one
flag byte, then its 256 slots in order: flag byte 0 for a slot as `freshFrame` leaves it, flag byte 1
followed by present (a flag byte), tagBytes, tagBits and the P_BLOCK_BYTES payload bytes for any other. -/

namespace Sys2Proof

/-- Why a record spells no operation. -/
inductive DecodeError where
  /-- The record ends before its operands do (log 5). -/
  | truncated
  /-- The selector spells no operation (R78). -/
  | reservedSelector (code : Byte)
  /-- A flag byte is neither 0 nor 1 (log 5). -/
  | badFlag (value : Byte)
deriving DecidableEq, Repr

/-- A slot that holds nothing, as a fresh frame has it (10_state.md R24). -/
def freshBlock (bb : Nat) : Block where
  present := false
  payload := List.replicate bb 0#8
  tagBytes := 0#8
  tagBits := 0#8

/-! ### Reading fields -/

/-- The number whose bytes are `bs`, least significant first. -/
def leNat : List Byte → Nat
  | [] => 0
  | b :: bs => b.toNat + 256 * leNat bs

/-- The first `n` bytes, and the rest. -/
def takeBytes : Nat → List Byte → Except DecodeError (List Byte × List Byte)
  | 0, bs => .ok ([], bs)
  | _ + 1, [] => .error .truncated
  | n + 1, b :: bs =>
    match takeBytes n bs with
    | .ok (xs, rest) => .ok (b :: xs, rest)
    | .error e => .error e

/-- A number of `n` bytes. -/
def takeNat (n : Nat) (bs : List Byte) : Except DecodeError (Nat × List Byte) :=
  match takeBytes n bs with
  | .ok (xs, rest) => .ok (leNat xs, rest)
  | .error e => .error e

/-- One byte. -/
def takeByte : List Byte → Except DecodeError (Byte × List Byte)
  | [] => .error .truncated
  | b :: bs => .ok (b, bs)

/-- A flag byte: 0 or 1. -/
def takeFlag : List Byte → Except DecodeError (Bool × List Byte)
  | [] => .error .truncated
  | b :: bs => if b = 0#8 then .ok (false, bs) else if b = 1#8 then .ok (true, bs) else .error (.badFlag b)

/-- One block slot of a frame. -/
def takeBlock (bb : Nat) (bs : List Byte) : Except DecodeError (Block × List Byte) := do
  let (listed, bs) ← takeFlag bs
  if listed then
    let (present, bs) ← takeFlag bs
    let (tagBytes, bs) ← takeByte bs
    let (tagBits, bs) ← takeByte bs
    let (payload, bs) ← takeBytes bb bs
    .ok ({ present, payload, tagBytes, tagBits }, bs)
  else
    .ok (freshBlock bb, bs)

/-- The next `n` block slots of a frame. -/
def takeBlocks (bb : Nat) : Nat → List Byte → Except DecodeError (List Block × List Byte)
  | 0, bs => .ok ([], bs)
  | n + 1, bs => do
    let (b, bs) ← takeBlock bb bs
    let (rest, bs) ← takeBlocks bb n bs
    .ok (b :: rest, bs)

/-- A frame operand. -/
def takeFrame (bb : Nat) (bs : List Byte) : Except DecodeError (Frame × List Byte) := do
  let (frameIndex, bs) ← takeNat 4 bs
  let (originalCount, bs) ← takeNat 4 bs
  let (recoveryCount, bs) ← takeNat 4 bs
  let (blockCount, bs) ← takeNat 4 bs
  let (metaRetrieved, bs) ← takeFlag bs
  let (blocks, bs) ← takeBlocks bb maxBlocks bs
  .ok ({ frameIndex := BitVec.ofNat 32 frameIndex, blocks,
         originalCount := BitVec.ofNat 32 originalCount,
         recoveryCount := BitVec.ofNat 32 recoveryCount,
         blockCount := BitVec.ofNat 32 blockCount, metaRetrieved }, bs)

/-! ### The decoder -/

/-- The operation the bytes begin with, and the bytes after it. Total: every byte sequence gives an
operation or a named error; reserved selectors fall to no neighbour (R78). -/
def decode (c : Config) : List Byte → Except DecodeError (Instr × List Byte)
  | [] => .error .truncated
  | sel :: bs =>
    match sel.toNat with
    | 0x01 => do
      let (len, bs) ← takeNat 2 bs
      let (dg, bs) ← takeBytes len bs
      .ok (.ingest dg, bs)
    | 0x02 => do
      let (fr, bs) ← takeFrame c.blockBytes bs
      .ok (.tqPush fr, bs)
    | 0x03 => .ok (.tqPop, bs)
    | 0x04 => .ok (.tqLen, bs)
    | 0x05 => .ok (.tqClear, bs)
    | 0x06 => .ok (.recProcess, bs)
    | 0x07 => do
      let (fr, bs) ← takeFrame c.blockBytes bs
      let (m, bs) ← takeNat 2 bs
      .ok (.fecRecover fr m, bs)
    | 0x08 => do
      let (fr, bs) ← takeFrame c.blockBytes bs
      .ok (.metaValidate fr, bs)
    | 0x09 => do
      let (fr, bs) ← takeFrame c.blockBytes bs
      let (sb, bs) ← takeByte bs
      .ok (.jbPush { frame := fr, sb }, bs)
    | 0x0A => .ok (.readSampleRx, bs)
    | 0x0B => .ok (.readSampleTx, bs)
    | 0x10 => do
      let (addr, bs) ← takeByte bs
      .ok (.regRead addr, bs)
    | 0x11 => do
      let (addr, bs) ← takeByte bs
      let (data, bs) ← takeNat 4 bs
      .ok (.regWrite addr (BitVec.ofNat 32 data), bs)
    | 0x12 => .ok (.start, bs)
    | 0x13 => .ok (.stop, bs)
    | 0x14 => .ok (.clearCounters, bs)
    | 0x15 => .ok (.reset, bs)
    | _ => .error (.reservedSelector sel)

/-! ### The encoder -/

/-- The `n` low bytes of a number, least significant first. -/
def leBytes : Nat → Nat → List Byte
  | 0, _ => []
  | n + 1, v => BitVec.ofNat 8 v :: leBytes n (v / 256)

/-- A flag byte. -/
def flagByte (b : Bool) : Byte := if b then 1#8 else 0#8

/-- One block slot of a frame. -/
def encodeBlock (bb : Nat) (b : Block) : List Byte :=
  if b = freshBlock bb then [0#8]
  else 1#8 :: flagByte b.present :: b.tagBytes :: b.tagBits :: b.payload

/-- The block slots of a frame. -/
def encodeBlocks (bb : Nat) : List Block → List Byte
  | [] => []
  | b :: rest => encodeBlock bb b ++ encodeBlocks bb rest

/-- A frame operand. -/
def encodeFrame (bb : Nat) (fr : Frame) : List Byte :=
  leBytes 4 fr.frameIndex.toNat ++ leBytes 4 fr.originalCount.toNat ++
    leBytes 4 fr.recoveryCount.toNat ++ leBytes 4 fr.blockCount.toNat ++
    flagByte fr.metaRetrieved :: encodeBlocks bb fr.blocks

/-- The selector code of an operation (R77). -/
def selectorOf : Instr → Byte
  | .ingest _ => 0x01#8
  | .tqPush _ => 0x02#8
  | .tqPop => 0x03#8
  | .tqLen => 0x04#8
  | .tqClear => 0x05#8
  | .recProcess => 0x06#8
  | .fecRecover _ _ => 0x07#8
  | .metaValidate _ => 0x08#8
  | .jbPush _ => 0x09#8
  | .readSampleRx => 0x0A#8
  | .readSampleTx => 0x0B#8
  | .regRead _ => 0x10#8
  | .regWrite _ _ => 0x11#8
  | .start => 0x12#8
  | .stop => 0x13#8
  | .clearCounters => 0x14#8
  | .reset => 0x15#8

/-- The operands of an operation in the record form above. -/
def encodeOperands (c : Config) : Instr → List Byte
  | .ingest dg => leBytes 2 dg.length ++ dg
  | .tqPush fr => encodeFrame c.blockBytes fr
  | .fecRecover fr m => encodeFrame c.blockBytes fr ++ leBytes 2 m
  | .metaValidate fr => encodeFrame c.blockBytes fr
  | .jbPush e => encodeFrame c.blockBytes e.frame ++ [e.sb]
  | .regRead addr => [addr]
  | .regWrite addr data => addr :: leBytes 4 data.toNat
  | .tqPop => []
  | .tqLen => []
  | .tqClear => []
  | .recProcess => []
  | .readSampleRx => []
  | .readSampleTx => []
  | .start => []
  | .stop => []
  | .clearCounters => []
  | .reset => []

/-- The record of an operation. -/
def encode (c : Config) (i : Instr) : List Byte := selectorOf i :: encodeOperands c i

/-! ### Words of the opcode table -/

/-- How many zero operand bytes are laid after a table word: at least the 275 bytes that the operands
of an operation with zero operands take. -/
def tablePadding : Nat := 300

/-- The bytes of a table word of `nbits` bits, least significant byte first, then zero operands. -/
def tableBytes (nbits w : Nat) : List Byte :=
  leBytes (nbits / 8) w ++ List.replicate tablePadding 0#8

/-- The record that begins with the table word: the bytes the decoder takes from `tableBytes`, or all
of them where it takes none. -/
def tableRecord (c : Config) (nbits w : Nat) : List Byte :=
  match decode c (tableBytes nbits w) with
  | .ok (_, rest) => (tableBytes nbits w).take ((tableBytes nbits w).length - rest.length)
  | .error _ => tableBytes nbits w

/-- The operation the decoder reads from an opcode-table word whose operand bits are all 0, for the
profile of `State.reset`. -/
def decodeTableWord (nbits w : Nat) : Option Instr :=
  match decode Config.testProfile (tableBytes nbits w) with
  | .ok (i, _) => some i
  | .error _ => none

end Sys2Proof
end

