-- ==== Sys2Proof/Machine/State.lean ====
section
/-! DEFINITION. The state of the block (10_state.md R21), the values it emits, and the state after reset
(10_state.md R42). -/

namespace Sys2Proof.Machine

/-- The decoded stream descriptor, `Meta` of 30_encoding.md R70. -/
structure MetaDataFEC where
  centerFrequency : BitVec 64
  sampleRate : Word
  sampleBytesRaw : Byte
  sampleBytes : BitVec 4
  sampleBits : Byte
  nbOriginalBlocks : Byte
  nbFECBlocks : Byte
  deviceIndex : BitVec 16
  channelIndex : BitVec 16
  tvSec : Word
  tvUsec : Word
  crc32 : Word
deriving DecidableEq, Repr

/-- The read cursor (10_state.md R30): block `blk` and sample `idx` within the head frame. -/
structure Cursor where
  blk : Nat
  idx : Nat
deriving DecidableEq, Repr

/-- The events E1 to E10 with their info records (60_exceptions.md R135). -/
inductive Event where
  /-- E1 MALFORMED. -/
  | malformed (length : Nat)
  /-- E2 INCOMPLETE. -/
  | incomplete (frameIndex blockCount : Word)
  /-- E3 UNCORRECTABLE. -/
  | uncorrectable (frameIndex : Word) (lost : Nat)
  /-- E4 DECODE_FAIL. -/
  | decodeFail (frameIndex : Word) (usable : Nat)
  /-- E5 META_CRC. -/
  | metaCrc (frameIndex computed embedded : Word)
  /-- E6 NEW_SAMPLE_RATE. -/
  | newSampleRate (oldRate newRate : Word)
  /-- E7 TQ_PUSH. -/
  | tqPush (frameIndex : Word)
  /-- E8 TQ_DROP. -/
  | tqDrop (frameIndex : Word)
  /-- E9 JB_DROP. -/
  | jbDrop (frameIndex : Word)
  /-- E10 JB_UNDERRUN. -/
  | jbUnderrun
deriving DecidableEq, Repr

/-- What became of a frame in the recovery engine (42_fec_recovery.md R104, R107). -/
inductive RecoverStatus where
  | incomplete
  | notNeeded
  | success
  | failure
deriving DecidableEq, Repr

/-- A value an operation returns to its agent. -/
inductive Output where
  /-- The pair of READ_SAMPLE (30_encoding.md R75). -/
  | sample (i q : Word)
  /-- The word of REG_READ (45_host_interface.md R129). -/
  | word (w : Word)
  /-- The result of TQ_POP (41_transfer_queue.md R95). -/
  | popped (fr : Option Frame)
  /-- The result of TQ_LEN (41_transfer_queue.md R96). -/
  | queueLength (n : Word)
  /-- The result of FEC_RECOVER (42_fec_recovery.md R104). -/
  | recovered (fr : Frame) (status : RecoverStatus)
  /-- The result of META_VALIDATE (43_meta_validator.md R117). -/
  | descriptor (m : Option MetaDataFEC)
deriving DecidableEq, Repr

/-- For each agent, the bytes of the records it has issued and not yet performed, in issue order
(20_memory.md R56). The model's own device: log 6. -/
structure Ports where
  network : List Byte
  recovery : List Byte
  consumer : List Byte
  host : List Byte
deriving DecidableEq, Repr

/-- A step never ends in a fault: 'The block has no fatal condition and no stuck state'
(60_exceptions.md R141) and 'No behaviour of the block is treated as `fault` or `stuck`'
(93_implementation_defined.md). So no reason for one exists: log 11. -/
inductive Fault : Type
deriving DecidableEq, Repr

/-- Why a step is refused. No operation's meaning answers with any of these. -/
inductive Refusal where
  /-- Raised by an arm of `exec` for an operation that has no meaning yet. Safe. -/
  | notModelled (mnemonic : String)
  /-- Raised by `fetch` when the bytes at the port spell no operation: a reserved selector (30_encoding.md
  R78: 'a model refuses them'), a record cut short or an illegal flag byte (log 5). Safe. -/
  | undecodable (e : DecodeError)
  /-- Raised by `fetch` when an agent presents an operation that another agent owns (60_exceptions.md
  R142, log 9). Safe. -/
  | notOwner (a : Agent)
deriving DecidableEq, Repr

/-- The whole state. The fields from `ring` to `events` are the record of 10_state.md R21; `cfg` holds the
parameters, which are arguments of the model and no state of the block (log 1); the last five are
the model's own (log 6, log 7, log 8). -/
structure State where
  cfg : Config
  ring : List (Option Frame)
  tq : List Frame
  cachedMeta : Option MetaDataFEC
  correctableErrors : Word
  uncorrectableErrors : Word
  jb : List JbEntry
  cursor : Cursor
  readSamplesCount : Word
  malformedCount : Word
  tqDropCount : Word
  jbDropCount : Word
  run : Bool
  evtStatus : Word
  evtEnable : Word
  cfgRingSize : Word
  cfgJbDepth : Word
  events : List Event
  outputs : List Output
  ports : Ports
  sched : List Agent
  telSeen : List (List Word)
  telDraws : List Nat
deriving DecidableEq, Repr

/-- The value of each telemetry register after reset, in the order of the register map from
TEL_QUEUE_SIZE to TEL_META_FORMAT (10_state.md R34). -/
def telReset (c : Config) : List Word :=
  BitVec.ofNat 32 c.jbReset :: List.replicate 12 0#32

/-- Power-on: the reset table of 10_state.md R42 for the parameters `c`, with empty logs (R32), nothing
presented at any port, and the telemetry history of one value each. -/
def State.init (c : Config) : State where
  cfg := c
  ring := List.replicate c.ringMax none
  tq := []
  cachedMeta := none
  correctableErrors := 0#32
  uncorrectableErrors := 0#32
  jb := []
  cursor := ⟨1, 0⟩
  readSamplesCount := 0#32
  malformedCount := 0#32
  tqDropCount := 0#32
  jbDropCount := 0#32
  run := false
  evtStatus := 0#32
  evtEnable := 0#32
  cfgRingSize := BitVec.ofNat 32 c.ringReset
  cfgJbDepth := BitVec.ofNat 32 c.jbReset
  events := []
  outputs := []
  ports := ⟨[], [], [], []⟩
  sched := []
  telSeen := (telReset c).map fun w => [w]
  telDraws := []

/-- The machine right after reset, at the profile TP (log 2). -/
def State.reset : State := State.init Config.testProfile

/-- What the next turn brings: nothing to perform, a refusal, or an operation to perform in the state
that has taken it from its port. -/
inductive Fetched where
  | idle (t : State)
  | reject (r : Refusal)
  | perform (i : Instr) (t : State)
deriving DecidableEq, Repr

end Sys2Proof.Machine
end

