-- ==== Sys2Proof/Machine/Operands.lean ====
section
/-! DEFINITION. The operand forms: fields of a byte sequence, the datagram, the block slots of a frame
record, CRC-32, the stream descriptor, sample components and their bit-width conversion. -/

namespace Sys2Proof.Machine

/-! ### Fields of a byte sequence (00_scope.md R13, 20_memory.md R46) -/

/-- Byte `i` of a byte sequence; a byte past its end reads as 0 (log 13). -/
def byteAt (p : List Byte) (i : Nat) : Byte := p.getD i 0#8

/-- The `n` bytes at offset `off`. -/
def fieldBytes (p : List Byte) (off n : Nat) : List Byte :=
  (List.range n).map fun j => byteAt p (off + j)

/-- The bytes of a field put least significant first. -/
def orient (e : Endian) (bs : List Byte) : List Byte :=
  match e with
  | .little => bs
  | .big => bs.reverse

/-- The unsigned field of `n` bytes at offset `off`: `LE_(8n)(p, off)` of R13, with the byte order as a
parameter (R46). -/
def readField (e : Endian) (n : Nat) (p : List Byte) (off : Nat) : BitVec (8 * n) :=
  BitVec.ofNat (8 * n) (leNat (orient e (fieldBytes p off n)))

/-! ### The datagram (30_encoding.md R64) -/

/-- `frameIndex`, bytes 0 to 3. -/
def dgFrameIndex (c : Config) (dg : List Byte) : Word := readField c.wireEndian 4 dg 0

/-- `blockIndex`, byte 4. -/
def dgBlockIndex (dg : List Byte) : Byte := byteAt dg 4

/-- The block slot a datagram is stored as: payload bytes 8 to DG_BYTES - 1, with the header tags
(40_reassembler.md R86). The reserved byte 7 is not stored (30_encoding.md R67). -/
def dgBlock (c : Config) (dg : List Byte) : Block where
  present := true
  payload := fieldBytes dg headerBytes c.blockBytes
  tagBytes := byteAt dg 5
  tagBits := byteAt dg 6

/-! ### Frame records -/

/-- `freshFrame(fi)` (10_state.md R24). -/
def freshFrame (c : Config) (fi : Word) : Frame where
  frameIndex := fi
  blocks := List.replicate maxBlocks (freshBlock c.blockBytes)
  originalCount := 0#32
  recoveryCount := 0#32
  blockCount := 0#32
  metaRetrieved := false

/-- Slot `b` of a frame. A frame has slots 0 to 255; any other index reads as a slot that holds
nothing (log 13). -/
def slotOf (fr : Frame) (b : Nat) : Block := fr.blocks.getD b (freshBlock 0)

/-- The payload of slot `b`. -/
def payloadOf (fr : Frame) (b : Nat) : List Byte := (slotOf fr b).payload

/-- Whether slot `b` holds a received or recovered block. -/
def isPresent (fr : Frame) (b : Nat) : Bool := (slotOf fr b).present

/-- `fr.blocks[b] <- blk`. -/
def setSlot (fr : Frame) (b : Nat) (blk : Block) : Frame := { fr with blocks := fr.blocks.set b blk }

/-! ### CRC-32 (43_meta_validator.md R113) -/

/-- One bit step of a register shifted right by the reflected polynomial `q`. -/
def crcStepRight (q c : Word) : Word := if c.getLsbD 0 then (c >>> 1) ^^^ q else c >>> 1

/-- One bit step of a register shifted left by the polynomial `q`. -/
def crcStepLeft (q c : Word) : Word := if c.getLsbD 31 then (c <<< 1) ^^^ q else c <<< 1

/-- A step repeated. -/
def repeatStep (f : Word → Word) : Nat → Word → Word
  | 0, c => c
  | n + 1, c => repeatStep f n (f c)

/-- The register after one more byte. -/
def crcByte (k : CrcParams) (c : Word) (x : Byte) : Word :=
  if k.reflectIn then repeatStep (crcStepRight k.poly.reverse) 8 (c ^^^ x.setWidth 32)
  else repeatStep (crcStepLeft k.poly) 8 (c ^^^ (x.setWidth 32 <<< 24))

/-- `CRC32(b)` for the variant `k`; for CRC-32/ISO-HDLC the pseudocode of R113. -/
def crc32 (k : CrcParams) (b : List Byte) : Word :=
  let start := if k.reflectIn then k.init.reverse else k.init
  let c := b.foldl (crcByte k) start
  (if k.reflectIn = k.reflectOut then c else c.reverse) ^^^ k.xorOut

/-- `CRC32(p[0 .. 28))` (R114). -/
def metaCrcComputed (c : Config) (p : List Byte) : Word := crc32 c.crc (fieldBytes p 0 crcSpan)

/-- The embedded `crc32`, bytes 28 to 31 (R114). -/
def metaCrcEmbedded (c : Config) (p : List Byte) : Word := readField c.wireEndian 4 p 28

/-- `crcOk(p)` (R114). -/
def crcOk (c : Config) (p : List Byte) : Bool := metaCrcComputed c p == metaCrcEmbedded c p

/-! ### The stream descriptor (30_encoding.md R70, 43_meta_validator.md R116) -/

/-- `META_PARSE(p)`. -/
def metaParse (c : Config) (p : List Byte) : MetaDataFEC where
  centerFrequency := readField c.wireEndian 8 p 0
  sampleRate := readField c.wireEndian 4 p 8
  sampleBytesRaw := byteAt p 12
  sampleBytes := (byteAt p 12).extractLsb' 0 4
  sampleBits := byteAt p 13
  nbOriginalBlocks := byteAt p 14
  nbFECBlocks := byteAt p 15
  deviceIndex := readField c.wireEndian 2 p 16
  channelIndex := readField c.wireEndian 2 p 18
  tvSec := readField c.wireEndian 4 p 20
  tvUsec := readField c.wireEndian 4 p 24
  crc32 := readField c.wireEndian 4 p 28

/-! ### Samples (30_encoding.md R73, 44_jitter_buffer.md R120, R121, R123, R127) -/

/-- A component width the block supports: 1, 2 or 4 bytes. -/
def isSampleWidth (sb : Nat) : Bool := sb == 1 || sb == 2 || sb == 4

/-- `sbFor(fr)` for the cached descriptor `cached` (44_jitter_buffer.md R120). -/
def sbFor (c : Config) (cached : Option MetaDataFEC) (fr : Frame) : Byte :=
  let own := payloadOf fr 0
  let s : Nat :=
    if isPresent fr 0 && crcOk c own then ((byteAt own 12).extractLsb' 0 4).toNat
    else match cached with
      | some m => m.sampleBytes.toNat
      | none => 0
  if isSampleWidth s then BitVec.ofNat 8 s else 0#8

/-- `spb(e)` (R121). The spec gives it for sb 1, 2, 4 and 0; a width outside them is unsupported like
0 (30_encoding.md R73, R78; log 14). -/
def samplesPerBlock (c : Config) (sb : Byte) : Nat :=
  if isSampleWidth sb.toNat then c.blockBytes / (2 * sb.toNat) else c.blockBytes / 4

/-- `comp(p, o, sb)` (R123): the two's-complement component of `sb` bytes at offset `o`. -/
def component (c : Config) (p : List Byte) (o sb : Nat) : Int :=
  match sb with
  | 1 => (byteAt p o).toInt
  | 2 => (readField c.wireEndian 2 p o).toInt
  | _ => (readField c.wireEndian 4 p o).toInt

/-- `S(sb)`, the significant width of a component (R123). -/
def significantBits (sb : Nat) : Nat :=
  match sb with
  | 1 => 8
  | 2 => 16
  | _ => 24

/-- The output width `W` (30_encoding.md R75). -/
def outputBits (c : Config) (isTx : Bool) : Nat := if isTx then 16 else c.rxBits.bits

/-- The headroom shift `h` (R127). -/
def headroom (c : Config) (isTx : Bool) (sig : Nat) : Nat :=
  if !isTx && (sig == 24 || outputBits c isTx == 24) then c.rxHeadroom else 0

/-- `CONV(x, S, isTx)` (R127). Division of integers by a positive number rounds toward minus infinity. -/
def convert (c : Config) (x : Int) (sig : Nat) (isTx : Bool) : Int :=
  let w := outputBits c isTx
  let v := if sig ≤ w then x * 2 ^ (w - sig) else x / 2 ^ (sig - w)
  v / 2 ^ headroom c isTx sig

/-- The converted component of width `sb` at offset `o`, as the i32 READ_SAMPLE returns. -/
def outputComponent (c : Config) (isTx : Bool) (p : List Byte) (o sb : Nat) : Word :=
  BitVec.ofInt 32 (convert c (component c p o sb) (significantBits sb) isTx)

/-- The pair READ_SAMPLE takes from entry `e` at cursor `cur` (R123, R126). -/
def samplePair (c : Config) (isTx : Bool) (e : JbEntry) (cur : Cursor) : Word × Word :=
  let sb := e.sb.toNat
  if isSampleWidth sb then
    let p := payloadOf e.frame cur.blk
    let o := cur.idx * (2 * sb)
    (outputComponent c isTx p o sb, outputComponent c isTx p (o + sb) sb)
  else (0#32, 0#32)

end Sys2Proof.Machine
end

