-- ==== Sys2Proof/Machine/Galois.lean ====
section
/-! DEFINITION. The erasure code of a configuration and its decoder (42_fec_recovery.md R99 to R103).
The decoder is Gaussian elimination over the rows of the decoder set; it reads and writes no state
(R102). -/

namespace Sys2Proof.Machine

/-! ### The code (R99, R100) -/

/-- The coefficient `a(i, j)` of recovery block `i` for original `j`. -/
def coefficient (c : Config) (i j : Nat) : Byte := codeEntry c.gfPoly c.k c.code i j

/-- Row `i` of the generator matrix `G`. -/
def generatorRow (c : Config) (i : Nat) : List Byte := codeRow c.gfPoly c.k c.code i

/-- `a` times every byte of a list. -/
def gscale (poly : BitVec 9) (a : Byte) (xs : List Byte) : List Byte := xs.map (gmul poly a)

/-- The bytewise sum of two lists. -/
def gadd (xs ys : List Byte) : List Byte := List.zipWith (· ^^^ ·) xs ys

/-- The sum of blocks weighted by coefficients, starting from `acc`. -/
def gcombine (poly : BitVec 9) : List Byte → List (List Byte) → List Byte → List Byte
  | a :: as, x :: xs, acc => gcombine poly as xs (gadd acc (gscale poly a x))
  | _, _, acc => acc

/-- `Enc(O)[i]` (R99): block `i` of the codeword whose originals are `O`. -/
def encodedBlock (c : Config) (o : List (List Byte)) (i : Nat) : List Byte :=
  gcombine c.gfPoly (generatorRow c i) o (List.replicate c.blockBytes 0#8)

/-! ### The decoder (R102) -/

/-- One equation: the coefficients of the unknown blocks, and the block they sum to. -/
structure Equation where
  coefs : List Byte
  rhs : List Byte
deriving DecidableEq, Repr

/-- The coefficient of the first unknown. -/
def leading (q : Equation) : Byte := q.coefs.headD 0#8

/-- The equation times a constant, without its first unknown. -/
def scaledTail (poly : BitVec 9) (a : Byte) (q : Equation) : Equation where
  coefs := gscale poly a q.coefs.tail
  rhs := gscale poly a q.rhs

/-- `q` with its first unknown eliminated by the pivot equation `p`, whose own is already taken off. -/
def eliminate (poly : BitVec 9) (p q : Equation) : Equation where
  coefs := gadd q.coefs.tail (gscale poly (leading q) p.coefs)
  rhs := gadd q.rhs (gscale poly (leading q) p.rhs)

/-- The first equation whose leading coefficient is not 0, and the others in their order. -/
def takePivot : List Equation → Option (Equation × List Equation)
  | [] => none
  | q :: qs =>
    if leading q = 0#8 then
      match takePivot qs with
      | some (p, rest) => some (p, q :: rest)
      | none => none
    else some (q, qs)

/-- The `n` unknown blocks of the equations, or `none` when no pivot is left (a singular matrix). -/
def solve (poly : BitVec 9) : Nat → List Equation → Option (List (List Byte))
  | 0, _ => some []
  | n + 1, qs =>
    match takePivot qs with
    | none => none
    | some (q, rest) =>
      let p := scaledTail poly (ginv poly (leading q)) q
      match solve poly n (rest.map (eliminate poly p)) with
      | none => none
      | some xs => some (gcombine poly p.coefs xs p.rhs :: xs)

/-- The equation of block `i` with payload `b`. -/
def equationOf (c : Config) (i : Nat) (b : List Byte) : Equation := ⟨generatorRow c i, b⟩

/-- The originals a singular decoder set yields: free values (log 10). -/
def freeOriginals (c : Config) (set : List (Nat × List Byte)) : List (List Byte) :=
  (List.range c.k).map fun j => (List.range c.blockBytes).map fun t => Config.singularDecode set j t

/-- `Decode(S)` (R102). -/
def decodeSet (c : Config) (set : List (Nat × List Byte)) : List (List Byte) :=
  match solve c.gfPoly c.k (set.map fun ib => equationOf c ib.1 ib.2) with
  | some o => o
  | none => freeOriginals c set

/-! ### The decoder set of a frame (R103) -/

/-- `present_orig(fr)`. -/
def presentOrig (c : Config) (fr : Frame) : List Nat := (List.range c.k).filter (isPresent fr)

/-- `present_rec(fr, M)`, ascending. -/
def presentRec (c : Config) (fr : Frame) (m : Nat) : List Nat :=
  (List.range' c.k m).filter (isPresent fr)

/-- `missing(fr)`. -/
def missing (c : Config) (fr : Frame) : List Nat := (List.range c.k).filter fun j => !isPresent fr j

/-- The number of usable distinct blocks. -/
def usableCount (c : Config) (fr : Frame) (m : Nat) : Nat :=
  (presentOrig c fr).length + (presentRec c fr m).length

/-- The indices of the decoder set: all present originals, then the first recovery blocks needed. -/
def decoderSet (c : Config) (fr : Frame) (m : Nat) : List Nat :=
  presentOrig c fr ++ (presentRec c fr m).take (c.k - (presentOrig c fr).length)

end Sys2Proof.Machine
end

