-- ==== Sys2Proof/Machine/Flags.lean ====
section
/-! DEFINITION. The flags and status words: event codes and bits, the interrupt level, STATUS, the register
map with the telemetry registers (10_state.md R34 to R41, 60_exceptions.md R135 to R137). The block
has no condition codes; its one per-frame flag is `metaRetrieved` (10_state.md R25). -/

namespace Sys2Proof.Machine

/-! ### Events (R135, R136) -/

/-- The code `n` of event `En`. -/
def eventCode : Event → Nat
  | .malformed _ => 1
  | .incomplete _ _ => 2
  | .uncorrectable _ _ => 3
  | .decodeFail _ _ => 4
  | .metaCrc _ _ _ => 5
  | .newSampleRate _ _ => 6
  | .tqPush _ => 7
  | .tqDrop _ => 8
  | .jbDrop _ => 9
  | .jbUnderrun => 10

/-- `2^(n-1)`, the bit of event `En` in EVT_STATUS and EVT_ENABLE (10_state.md R37). -/
def eventBit (e : Event) : Word := 1#32 <<< (eventCode e - 1)

/-- The bits of EVT_STATUS and EVT_ENABLE that belong to an event. -/
def eventMask : Word := 0x3FF#32

/-- The level of the interrupt output (60_exceptions.md R137). -/
def irq (s : State) : Bool := s.evtStatus &&& s.evtEnable &&& eventMask != 0#32

/-! ### The register map (10_state.md R34) -/

/-- The telemetry registers (R40), in the order of the map. -/
inductive Telemetry where
  | queueSize
  | queueLength
  | readSamples
  | correctable
  | uncorrectable
  | centerFreqLo
  | centerFreqHi
  | sampleRate
  | malformed
  | tqLength
  | tqDrops
  | jbDrops
  | metaFormat
deriving DecidableEq, Repr

/-- All telemetry registers in the order of the map. -/
def allTelemetry : List Telemetry :=
  [.queueSize, .queueLength, .readSamples, .correctable, .uncorrectable, .centerFreqLo, .centerFreqHi,
    .sampleRate, .malformed, .tqLength, .tqDrops, .jbDrops, .metaFormat]

/-- The position of a telemetry register in the map, TEL_QUEUE_SIZE at 0. -/
def telemetryIndex : Telemetry → Nat
  | .queueSize => 0
  | .queueLength => 1
  | .readSamples => 2
  | .correctable => 3
  | .uncorrectable => 4
  | .centerFreqLo => 5
  | .centerFreqHi => 6
  | .sampleRate => 7
  | .malformed => 8
  | .tqLength => 9
  | .tqDrops => 10
  | .jbDrops => 11
  | .metaFormat => 12

/-- A register at an offset of the host register space. -/
inductive Register where
  | ctrl
  | status
  | evtStatus
  | evtEnable
  | cfgRingSize
  | cfgJbDepth
  | paramK
  | paramBlockBytes
  | telemetry (t : Telemetry)
  /-- A reserved, misaligned or out-of-range offset (10_state.md R41, 20_memory.md R48). -/
  | nothing
deriving DecidableEq, Repr

/-- The register at a byte offset. -/
def registerAt (addr : Byte) : Register :=
  match addr.toNat with
  | 0x00 => .ctrl
  | 0x04 => .status
  | 0x08 => .evtStatus
  | 0x0C => .evtEnable
  | 0x10 => .cfgRingSize
  | 0x14 => .cfgJbDepth
  | 0x18 => .paramK
  | 0x1C => .paramBlockBytes
  | 0x20 => .telemetry .queueSize
  | 0x24 => .telemetry .queueLength
  | 0x28 => .telemetry .readSamples
  | 0x2C => .telemetry .correctable
  | 0x30 => .telemetry .uncorrectable
  | 0x34 => .telemetry .centerFreqLo
  | 0x38 => .telemetry .centerFreqHi
  | 0x3C => .telemetry .sampleRate
  | 0x40 => .telemetry .malformed
  | 0x44 => .telemetry .tqLength
  | 0x48 => .telemetry .tqDrops
  | 0x4C => .telemetry .jbDrops
  | 0x50 => .telemetry .metaFormat
  | _ => .nothing

/-- A flag in bit `n` of a word. -/
def bitWord (n : Nat) (b : Bool) : Word := if b then 1#32 <<< n else 0#32

/-- STATUS (R36): RUNNING, META_VALID, IRQ, JB_EMPTY in bits 0 to 3. -/
def statusWord (s : State) : Word :=
  bitWord 0 s.run ||| bitWord 1 s.cachedMeta.isSome ||| bitWord 2 (irq s) ||| bitWord 3 s.jb.isEmpty

/-- A value of the cached descriptor, or 0 when there is none (R40). -/
def ofCached (s : State) (f : MetaDataFEC → Word) : Word :=
  match s.cachedMeta with
  | some m => f m
  | none => 0#32

/-- TEL_META_FORMAT (R40): sampleBytesRaw, sampleBits, nbOriginalBlocks, nbFECBlocks in bytes 0 to 3. -/
def metaFormatWord (m : MetaDataFEC) : Word :=
  m.nbFECBlocks ++ m.nbOriginalBlocks ++ m.sampleBits ++ m.sampleBytesRaw

/-- The value a telemetry register holds now (R40). -/
def telemetryNow (s : State) : Telemetry → Word
  | .queueSize => s.cfgJbDepth
  | .queueLength => BitVec.ofNat 32 s.jb.length
  | .readSamples => s.readSamplesCount
  | .correctable => s.correctableErrors
  | .uncorrectable => s.uncorrectableErrors
  | .centerFreqLo => ofCached s fun m => m.centerFrequency.extractLsb' 0 32
  | .centerFreqHi => ofCached s fun m => m.centerFrequency.extractLsb' 32 32
  | .sampleRate => ofCached s fun m => m.sampleRate
  | .malformed => s.malformedCount
  | .tqLength => BitVec.ofNat 32 s.tq.length
  | .tqDrops => s.tqDropCount
  | .jbDrops => s.jbDropCount
  | .metaFormat => ofCached s metaFormatWord

/-- The values a read of a telemetry register may return (20_memory.md R53): the one it holds now
first, then those it has held since the HOST's previous read of it. -/
def admittedValues (s : State) (t : Telemetry) : List Word :=
  telemetryNow s t :: s.telSeen.getD (telemetryIndex t) []

/-- The value the next telemetry read returns: the admitted value the next free draw selects, the
present one when there is no draw or it selects none (log 8). -/
def telemetryRead (s : State) (t : Telemetry) : Word :=
  (admittedValues s t).getD (s.telDraws.headD 0) (telemetryNow s t)

end Sys2Proof.Machine
end

