-- ==== Sys2Proof/Machine/Ops.lean ====
section
/-! DEFINITION. The named operations over the state that several meanings share: raising an event (the
block's only form of exception, 60_exceptions.md R134 to R140), returning a value, the telemetry
history, and the agents' ports and turns. -/

namespace Sys2Proof.Machine

/-! ### Events: entry and acknowledgement -/

/-- `raise En(info)` (60_exceptions.md R136): append to the log and set the sticky status bit. This is all
of 'trap entry': no state is saved, no mode changes, control goes nowhere (R139). -/
def raise (e : Event) (s : State) : State :=
  { s with events := s.events ++ [e], evtStatus := s.evtStatus ||| eventBit e }

/-- The host's acknowledgement, the only 'trap return' (R140): each written 1 clears its EVT_STATUS bit
(10_state.md R37). -/
def acknowledge (data : Word) (s : State) : State :=
  { s with evtStatus := s.evtStatus &&& ~~~(data &&& eventMask) }

/-- An operation returns a value to its agent (log 7). -/
def emit (o : Output) (s : State) : State := { s with outputs := s.outputs ++ [o] }

/-! ### The telemetry history (20_memory.md R53, log 8) -/

/-- A value joins the history of a register unless it is the newest there. -/
def noteValue (w : Word) (seen : List Word) : List Word :=
  if seen.head? = some w then seen else w :: seen

/-- After a step every telemetry register's value joins its history. -/
def observe (s : State) : State :=
  { s with telSeen := List.zipWith (fun t seen => noteValue (telemetryNow s t) seen) allTelemetry s.telSeen }

/-- The HOST has read a telemetry register: its history restarts at the present value, and the draw is
spent. -/
def noteRead (t : Telemetry) (s : State) : State :=
  { s with telSeen := s.telSeen.set (telemetryIndex t) [telemetryNow s t], telDraws := s.telDraws.tail }

/-! ### Agents, ports and turns (00_scope.md R11, 20_memory.md R56, log 5, log 6) -/

/-- The agent that owns an operation, or `none` where any agent may perform it (30_encoding.md R77,
60_exceptions.md R142). -/
def ownerOf : Instr → Option Agent
  | .ingest _ => some .network
  | .tqPush _ => some .network
  | .tqPop => some .recovery
  | .tqLen => none
  | .tqClear => some .host
  | .recProcess => some .recovery
  | .fecRecover _ _ => some .recovery
  | .metaValidate _ => some .recovery
  | .jbPush _ => some .recovery
  | .readSampleRx => some .consumer
  | .readSampleTx => some .consumer
  | .regRead _ => some .host
  | .regWrite _ _ => some .host
  | .start => some .host
  | .stop => some .host
  | .clearCounters => some .host
  | .reset => some .host

/-- Whether an agent may perform an operation. -/
def owns (a : Agent) (i : Instr) : Bool :=
  match ownerOf i with
  | some b => a == b
  | none => true

/-- The bytes an agent has presented. -/
def portOf (s : State) : Agent → List Byte
  | .network => s.ports.network
  | .recovery => s.ports.recovery
  | .consumer => s.ports.consumer
  | .host => s.ports.host

/-- An agent's port holds these bytes instead. -/
def setPort (a : Agent) (bs : List Byte) (s : State) : State :=
  match a with
  | .network => { s with ports := { s.ports with network := bs } }
  | .recovery => { s with ports := { s.ports with recovery := bs } }
  | .consumer => { s with ports := { s.ports with consumer := bs } }
  | .host => { s with ports := { s.ports with host := bs } }

/-- The turn at the head of the order is over. -/
def endTurn (s : State) : State := { s with sched := s.sched.tail }

/-- REC holds: REC_PROCESS has no step while the Transfer Queue is empty (41_transfer_queue.md R95,
42_fec_recovery.md R107). -/
def holds (i : Instr) (s : State) : Bool := i == .recProcess && s.tq.isEmpty

/-- What the agent whose turn it is performs. With no turns left nothing moves; an agent that has
presented nothing, or that holds, lets its turn pass and keeps its port as it is. -/
def fetch (s : State) : Fetched :=
  match s.sched with
  | [] => .idle s
  | a :: _ =>
    match portOf s a with
    | [] => .idle (endTurn s)
    | b :: bs =>
      match decode s.cfg (b :: bs) with
      | .error e => .reject (.undecodable e)
      | .ok (i, rest) =>
        if owns a i then
          if holds i s then .idle (endTurn s) else .perform i (setPort a rest (endTurn s))
        else .reject (.notOwner a)

/-- What a step does after the operation: the telemetry history takes the new values. -/
def retire : Host.Outcome State Fault Refusal → Host.Outcome State Fault Refusal
  | .next t => .next (observe t)
  | .fault r => .fault r
  | .refused r => .refused r

/-- The state with the record of an opcode-table word at an agent's port, and the next turn given to it. -/
def presentRecord (a : Agent) (nbits w : Nat) (s : State) : State :=
  { setPort a (tableRecord s.cfg nbits w) s with sched := a :: s.sched }

/-- The operation of an opcode-table word presented at the port of its owner (HOST where any agent may
perform it, or where it spells no operation), with the next turn given to that agent. Where REC would
hold (`holds`), a frame that nothing was received of is queued, so that the next step performs the
operation (log 6). -/
def presentTableWord (s : State) (nbits w : Nat) : State :=
  match decode s.cfg (tableBytes nbits w) with
  | .ok (i, _) =>
    presentRecord ((ownerOf i).getD .host) nbits w
      (if holds i s then { s with tq := [freshFrame s.cfg 0#32] } else s)
  | .error _ => presentRecord .host nbits w s

end Sys2Proof.Machine
end

