-- ==== Sys2Proof/Machine/JitterBuffer.lean ====
section
/-! DEFINITION. The Jitter/Read Buffer: JB_PUSH, READ_SAMPLE (44_jitter_buffer.md R120 to R127). -/

namespace Sys2Proof.Machine

/-- The cursor at the first sample of a frame (10_state.md R30). -/
def cursorStart : Cursor := ⟨1, 0⟩

/-- The overflow half of JB_PUSH: a full buffer loses its oldest frame, which CON may be part-way
through (R122). -/
def jbMakeRoom (s : State) : State :=
  if s.jb.length = s.cfgJbDepth.toNat then
    match s.jb with
    | [] => s
    | old :: rest =>
      raise (.jbDrop old.frame.frameIndex)
        { s with jb := rest, jbDropCount := s.jbDropCount + 1#32, cursor := cursorStart }
  else s

/-- `JB_PUSH(e)` (R122). -/
def jbPush (e : JbEntry) (s : State) : State :=
  let s := jbMakeRoom s
  { s with jb := s.jb ++ [e], cursor := if s.jb.isEmpty then cursorStart else s.cursor }

/-- JB_PUSH presented on its own (30_encoding.md R77; log 12). -/
def execJbPush (e : JbEntry) (s : State) : Host.Outcome State Fault Refusal := .next (jbPush e s)

/-- Where the cursor goes after one more sample of an entry, or `none` when the frame is exhausted
(R124). -/
def nextCursor (c : Config) (e : JbEntry) (cur : Cursor) : Option Cursor :=
  let idx := cur.idx + 1
  let wrapped : Cursor := if idx = samplesPerBlock c e.sb then ⟨cur.blk + 1, 0⟩ else ⟨cur.blk, idx⟩
  if wrapped.blk = c.k then none else some wrapped

/-- `ADVANCE(e)` (R124): the last sample of the last data block pops the frame. -/
def advance (e : JbEntry) (s : State) : State :=
  match nextCursor s.cfg e s.cursor with
  | some cur => { s with cursor := cur }
  | none => { s with jb := s.jb.tail, cursor := cursorStart }

/-- `READ_SAMPLE(isTx)` (R123): never blocks; an empty buffer reads as silence (R125). -/
def readSample (isTx : Bool) (s : State) : State :=
  match s.jb with
  | [] => emit (.sample 0#32 0#32) (raise .jbUnderrun s)
  | e :: _ =>
    let out := samplePair s.cfg isTx e s.cursor
    emit (.sample out.1 out.2)
      (advance e { s with readSamplesCount := s.readSamplesCount + 1#32 })

/-- READ_SAMPLE.RX: isTx = 0 (R123). -/
def execReadSampleRx (s : State) : Host.Outcome State Fault Refusal := .next (readSample false s)

/-- READ_SAMPLE.TX: isTx = 1 (R123). -/
def execReadSampleTx (s : State) : Host.Outcome State Fault Refusal := .next (readSample true s)

end Sys2Proof.Machine
end

