-- ==== Sys2Proof/Machine/MetaValidator.lean ====
section
/-! DEFINITION. The Meta Validator: META_VALIDATE (43_meta_validator.md R117 to R119). -/

namespace Sys2Proof.Machine

/-- The sample rate of the cached descriptor, 0 when there is none. -/
def cachedRate (s : State) : Word := ofCached s fun m => m.sampleRate

/-- Whether a valid descriptor changes the sample rate; the first one does (R119). -/
def rateChanges (m : MetaDataFEC) (s : State) : Bool :=
  match s.cachedMeta with
  | some c => c.sampleRate != m.sampleRate
  | none => true

/-- A CRC-valid descriptor becomes the cached one, after the E6 it may raise (R117, R119). -/
def adoptMeta (m : MetaDataFEC) (s : State) : State :=
  let t := if rateChanges m s then raise (.newSampleRate (cachedRate s) m.sampleRate) s else s
  { t with cachedMeta := some m }

/-- `META_VALIDATE(fr)` for a frame whose `metaRetrieved` is true (R117, R118): the new state. -/
def metaValidate (fr : Frame) (s : State) : State :=
  let p := payloadOf fr 0
  if crcOk s.cfg p then adoptMeta (metaParse s.cfg p) s
  else raise (.metaCrc fr.frameIndex (metaCrcComputed s.cfg p) (metaCrcEmbedded s.cfg p)) s

/-- What META_VALIDATE returns: the descriptor, or none on a CRC mismatch (R117). -/
def metaResult (c : Config) (fr : Frame) : Option MetaDataFEC :=
  let p := payloadOf fr 0
  if crcOk c p then some (metaParse c p) else none

/-- META_VALIDATE presented on its own (30_encoding.md R77; log 12). 'Only runs when `metaRetrieved` is true
for the frame' (R117): for another frame it does not run, and nothing changes (log 16). -/
def execMetaValidate (fr : Frame) (s : State) : Host.Outcome State Fault Refusal :=
  if fr.metaRetrieved then .next (emit (.descriptor (metaResult s.cfg fr)) (metaValidate fr s))
  else .next s

end Sys2Proof.Machine
end

