-- ==== Sys2Proof/Machine/TransferQueue.lean ====
section
/-! DEFINITION. The Transfer Queue: TQ_PUSH, TQ_POP, TQ_LEN, TQ_CLEAR (41_transfer_queue.md R92 to R97). -/

namespace Sys2Proof.Machine

/-- The overflow half of TQ_PUSH: a full queue loses its oldest frame, counted and signalled (R92, R93). -/
def tqMakeRoom (s : State) : State :=
  if s.tq.length = s.cfg.tqCapacity then
    match s.tq with
    | [] => s
    | old :: rest =>
      raise (.tqDrop old.frameIndex) { s with tq := rest, tqDropCount := s.tqDropCount + 1#32 }
  else s

/-- `TQ_PUSH(fr)` (R92), with its notification E7 (R94). -/
def tqPush (fr : Frame) (s : State) : State :=
  let s := tqMakeRoom s
  raise (.tqPush fr.frameIndex) { s with tq := s.tq ++ [fr] }

/-- `TQ_CLEAR()` (R97). -/
def tqClear (s : State) : State := { s with tq := [] }

/-- TQ_PUSH presented on its own (30_encoding.md R77; log 12). -/
def execTqPush (fr : Frame) (s : State) : Host.Outcome State Fault Refusal := .next (tqPush fr s)

/-- TQ_POP (R95): the oldest frame, or none when the queue is empty. -/
def execTqPop (s : State) : Host.Outcome State Fault Refusal :=
  match s.tq with
  | [] => .next (emit (.popped none) s)
  | fr :: rest => .next (emit (.popped (some fr)) { s with tq := rest })

/-- TQ_LEN (R96). -/
def execTqLen (s : State) : Host.Outcome State Fault Refusal :=
  .next (emit (.queueLength (BitVec.ofNat 32 s.tq.length)) s)

/-- TQ_CLEAR (R97). -/
def execTqClear (s : State) : Host.Outcome State Fault Refusal := .next (tqClear s)

end Sys2Proof.Machine
end

