-- ==== Sys2Proof/Machine/FecRecovery.lean ====
section
/-! DEFINITION. The FEC Recovery Engine: FEC_RECOVER and REC_PROCESS (42_fec_recovery.md R103 to R112). -/

namespace Sys2Proof.Machine

/-- `selectM(fr)` (R108): the frame's own M if its block 0 was received and its CRC checks, else the
cached one, else 0; at most 256 - P_K. -/
def selectM (s : State) (fr : Frame) : Nat :=
  let m : Nat :=
    if fr.metaRetrieved && crcOk s.cfg (payloadOf fr 0) then (byteAt (payloadOf fr 0) 15).toNat
    else match s.cachedMeta with
      | some c => c.nbFECBlocks.toNat
      | none => 0
  min m (256 - s.cfg.k)

/-- Whether the decoder can run for a frame with an original missing (R104, R106). -/
def decodable (c : Config) (fr : Frame) (m : Nat) : Bool :=
  c.fecAvailable && m != 0 && c.k ≤ usableCount c fr m

/-- A rebuilt slot (R104). -/
def rebuiltBlock (p : List Byte) : Block := ⟨true, p, 0#8, 0#8⟩

/-- The originals `Decode` gives for the decoder set of a frame (R103, R104). -/
def decodedOriginals (c : Config) (fr : Frame) (m : Nat) : List (List Byte) :=
  decodeSet c ((decoderSet c fr m).map fun i => (i, payloadOf fr i))

/-- The write-back of R105: each missing original is written, no other slot and no counter is. -/
def writeBack (c : Config) (o : List (List Byte)) (fr : Frame) : Frame :=
  (missing c fr).foldl
    (fun f j => { setSlot f j (rebuiltBlock (o.getD j [])) with metaRetrieved := j == 0 || f.metaRetrieved })
    fr

/-- The frame and status `FEC_RECOVER(fr, M)` returns (R104). -/
def recoverResult (c : Config) (fr : Frame) (m : Nat) : Frame × RecoverStatus :=
  if (missing c fr).isEmpty then (fr, .notNeeded)
  else if decodable c fr m then (writeBack c (decodedOriginals c fr m) fr, .success)
  else (fr, .failure)

/-- The state after `FEC_RECOVER(fr, M)`: E4 on failure, else unchanged (R104, R106). -/
def recoverState (fr : Frame) (m : Nat) (s : State) : State :=
  if (recoverResult s.cfg fr m).2 = .failure then
    raise (.decodeFail fr.frameIndex (usableCount s.cfg fr m)) s
  else s

/-- FEC_RECOVER presented on its own (30_encoding.md R77; log 12). -/
def execFecRecover (fr : Frame) (m : Nat) (s : State) : Host.Outcome State Fault Refusal :=
  let r := recoverResult s.cfg fr m
  .next (emit (.recovered r.1 r.2) (recoverState fr m s))

/-! ### REC_PROCESS -/

/-- What recovery makes of a popped frame (R107, R109, R110). -/
def processResult (c : Config) (fr : Frame) (m : Nat) : Frame × RecoverStatus :=
  if fr.blockCount.toNat < c.k then (fr, .incomplete)
  else if fr.originalCount.toNat = c.k then (fr, .notNeeded)
  else recoverResult c fr m

/-- The state after recovery: E2 for an incomplete frame, E4 for a failed decode (R107). -/
def processState (fr : Frame) (m : Nat) (s : State) : State :=
  if fr.blockCount.toNat < s.cfg.k then raise (.incomplete fr.frameIndex fr.blockCount) s
  else if fr.originalCount.toNat = s.cfg.k then s
  else recoverState fr m s

/-- `lost` originals are added to the uncorrectable errors, with E3 (R111). -/
def countLost (fr : Frame) (lost : Nat) (s : State) : State :=
  raise (.uncorrectable fr.frameIndex lost)
    { s with uncorrectableErrors := s.uncorrectableErrors + BitVec.ofNat 32 lost }

/-- `(P_K - M) - oc` on integers (R111). -/
def shortfall (c : Config) (fr : Frame) (m : Nat) : Int :=
  ((c.k : Int) - m) - fr.originalCount.toNat

/-- `ACCOUNT(fr, M, status)` (R111). -/
def account (fr : Frame) (m : Nat) (status : RecoverStatus) (s : State) : State :=
  if 0 < shortfall s.cfg fr m then countLost fr (shortfall s.cfg fr m).toNat s
  else match status with
    | .success => { s with correctableErrors := s.correctableErrors + fr.recoveryCount }
    | .notNeeded => s
    | .incomplete => countLost fr (missing s.cfg fr).length s
    | .failure => countLost fr (missing s.cfg fr).length s

/-- META_VALIDATE runs for a frame that is not incomplete and whose descriptor was retrieved (R107). -/
def validateStage (fr : Frame) (status : RecoverStatus) (s : State) : State :=
  if status ≠ .incomplete ∧ fr.metaRetrieved = true then metaValidate fr s else s

/-- The frame goes to the jitter buffer with its sample width (R107; 44_jitter_buffer.md R120). -/
def forwardFrame (fr : Frame) (s : State) : State :=
  jbPush { frame := fr, sb := sbFor s.cfg s.cachedMeta fr } s

/-- REC_PROCESS after the pop of `fr` (R107). -/
def processFrame (fr : Frame) (s : State) : State :=
  let m := selectM s fr
  let r := processResult s.cfg fr m
  forwardFrame r.1 (account r.1 m r.2 (validateStage r.1 r.2 (processState fr m s)))

/-- REC_PROCESS (R107). On an empty Transfer Queue it is not enabled and nothing changes (41_transfer_queue.md
R95; `fetch` keeps it at REC's port). -/
def execRecProcess (s : State) : Host.Outcome State Fault Refusal :=
  match s.tq with
  | [] => .next s
  | fr :: rest => .next (processFrame fr { s with tq := rest })

end Sys2Proof.Machine
end

