-- ==== Sys2Proof/Machine/HostInterface.lean ====
section
/-! DEFINITION. The host interface: REG_READ, REG_WRITE, START, STOP, CLEAR_COUNTERS (45_host_interface.md R129
to R133) and RESET (70_reset_and_hazards.md R148). -/

namespace Sys2Proof.Machine

/-! ### Start, stop, counters, reset -/

/-- `START()` (R131). -/
def startReceiving (s : State) : State := { s with run := true }

/-- The ring with every slot empty. -/
def emptyRing (c : Config) : List (Option Frame) := List.replicate c.ringMax none

/-- `STOP()` (R132): nothing when stopped already; else the frames in flight are discarded uncounted. -/
def stopReceiving (s : State) : State :=
  if s.run then
    { tqClear s with run := false, ring := emptyRing s.cfg, jb := [], cursor := cursorStart }
  else s

/-- `CLEAR_COUNTERS()` (R133). -/
def clearCounters (s : State) : State :=
  { s with
    correctableErrors := 0#32
    uncorrectableErrors := 0#32
    readSamplesCount := 0#32
    malformedCount := 0#32
    tqDropCount := 0#32
    jbDropCount := 0#32 }

/-- `RESET()` (70_reset_and_hazards.md R148): the reset table of 10_state.md R42. The output log stays. -/
def resetBlock (s : State) : State :=
  { clearCounters (tqClear s) with
    ring := emptyRing s.cfg
    cachedMeta := none
    jb := []
    cursor := cursorStart
    run := false
    evtStatus := 0#32
    evtEnable := 0#32
    cfgRingSize := BitVec.ofNat 32 s.cfg.ringReset
    cfgJbDepth := BitVec.ofNat 32 s.cfg.jbReset }

/-- START (R131). -/
def execStart (s : State) : Host.Outcome State Fault Refusal := .next (startReceiving s)

/-- STOP (R132). -/
def execStop (s : State) : Host.Outcome State Fault Refusal := .next (stopReceiving s)

/-- CLEAR_COUNTERS (R133). -/
def execClearCounters (s : State) : Host.Outcome State Fault Refusal := .next (clearCounters s)

/-- RESET (70_reset_and_hazards.md R148). -/
def execReset (s : State) : Host.Outcome State Fault Refusal := .next (resetBlock s)

/-! ### Register access -/

/-- The value of a register (R129). -/
def registerValue (s : State) : Register → Word
  | .ctrl => bitWord 0 s.run
  | .status => statusWord s
  | .evtStatus => s.evtStatus
  | .evtEnable => s.evtEnable
  | .cfgRingSize => s.cfgRingSize
  | .cfgJbDepth => s.cfgJbDepth
  | .paramK => BitVec.ofNat 32 s.cfg.k
  | .paramBlockBytes => BitVec.ofNat 32 s.cfg.blockBytes
  | .telemetry t => telemetryRead s t
  | .nothing => 0#32

/-- The model's own record of a read: a telemetry read restarts that register's history (log 8); no
register read has a side effect on the block (20_memory.md R52). -/
def afterRead (s : State) : Register → State
  | .telemetry t => noteRead t s
  | .ctrl => s
  | .status => s
  | .evtStatus => s
  | .evtEnable => s
  | .cfgRingSize => s
  | .cfgJbDepth => s
  | .paramK => s
  | .paramBlockBytes => s
  | .nothing => s

/-- REG_READ (R129). -/
def execRegRead (addr : Byte) (s : State) : Host.Outcome State Fault Refusal :=
  .next (emit (.word (registerValue s (registerAt addr))) (afterRead s (registerAt addr)))

/-- A write of CTRL (10_state.md R35): the RUN action, then CLR_CNT. -/
def writeCtrl (data : Word) (s : State) : State :=
  let s1 :=
    if data.getLsbD 0 then (if s.run then s else startReceiving s)
    else stopReceiving s
  if data.getLsbD 1 then clearCounters s1 else s1

/-- A write of CFG_RING_SIZE (10_state.md R38): a power of two up to P_RING_MAX, while stopped. -/
def writeRingSize (data : Word) (s : State) : State :=
  if !s.run && isPow2 data.toNat && data.toNat ≤ s.cfg.ringMax then { s with cfgRingSize := data } else s

/-- A write of CFG_JB_DEPTH (10_state.md R38): 1 to P_JB_MAX, while stopped. -/
def writeJbDepth (data : Word) (s : State) : State :=
  if !s.run && 1 ≤ data.toNat && data.toNat ≤ s.cfg.jbMax then { s with cfgJbDepth := data } else s

/-- The state after a register write (R130). Read-only and reserved registers ignore it. -/
def registerWrite (data : Word) (s : State) : Register → State
  | .ctrl => writeCtrl data s
  | .evtStatus => acknowledge data s
  | .evtEnable => { s with evtEnable := data &&& eventMask }
  | .cfgRingSize => writeRingSize data s
  | .cfgJbDepth => writeJbDepth data s
  | .status => s
  | .paramK => s
  | .paramBlockBytes => s
  | .telemetry _ => s
  | .nothing => s

/-- REG_WRITE (R130). -/
def execRegWrite (addr : Byte) (data : Word) (s : State) : Host.Outcome State Fault Refusal :=
  .next (registerWrite data s (registerAt addr))

end Sys2Proof.Machine
end

