-- ==== Sys2Proof/Machine/Reassembler.lean ====
section
/-! DEFINITION. The Frame Reassembler: INGEST (40_reassembler.md R80 to R91). -/

namespace Sys2Proof.Machine

/-- The ring slot of a frame index: `fi mod st.cfgRingSize` (R83). -/
def ringSlot (s : State) (fi : Word) : Nat := fi.toNat % s.cfgRingSize.toNat

/-- The record a ring slot holds; a position outside the ring holds none. -/
def ringAt (s : State) (k : Nat) : Option Frame := s.ring.getD k none

/-- `st.ring[k] <- some fr`. -/
def setRing (k : Nat) (fr : Frame) (s : State) : State := { s with ring := s.ring.set k (some fr) }

/-- The frame with one more SuperBlock filed at `bi` (R86, R87): the slot is overwritten, and the counters
count the datagram whether or not it is a duplicate (R88). -/
def fileBlock (c : Config) (bi : Byte) (blk : Block) (fr : Frame) : Frame :=
  let fr := setSlot fr bi.toNat blk
  { fr with
    metaRetrieved := if bi = 0#8 then true else fr.metaRetrieved
    originalCount := if bi.toNat < c.k then fr.originalCount + 1#32 else fr.originalCount
    recoveryCount := if bi.toNat < c.k then fr.recoveryCount else fr.recoveryCount + 1#32
    blockCount := fr.blockCount + 1#32 }

/-- A datagram of the wrong length (R82). -/
def rejectDatagram (dg : List Byte) (s : State) : State :=
  raise (.malformed dg.length) { s with malformedCount := s.malformedCount + 1#32 }

/-- A frame that the datagram of frame `fi` completes leaves its slot for the Transfer Queue (R85);
no order of frame indexes is looked at (R89). -/
def completeFrame (fi : Word) (s : State) : State :=
  match ringAt s (ringSlot s fi) with
  | some fr => if fr.frameIndex = fi then s else tqPush fr s
  | none => s

/-- The record the datagram of frame `fi` is filed in: the slot's own if it is of that frame, else a
fresh one (R84, R85). -/
def frameFor (fi : Word) (s : State) : Frame :=
  match ringAt s (ringSlot s fi) with
  | some fr => if fr.frameIndex = fi then fr else freshFrame s.cfg fi
  | none => freshFrame s.cfg fi

/-- A datagram of the right length (R83 to R87). -/
def fileDatagram (dg : List Byte) (s : State) : State :=
  let fi := dgFrameIndex s.cfg dg
  let fr := fileBlock s.cfg (dgBlockIndex dg) (dgBlock s.cfg dg) (frameFor fi s)
  setRing (ringSlot s fi) fr (completeFrame fi s)

/-- INGEST (R80). While stopped it has no effect (R81). -/
def execIngest (dg : List Byte) (s : State) : Host.Outcome State Fault Refusal :=
  if !s.run then .next s
  else if dg.length ≠ s.cfg.dgBytes then .next (rejectDatagram dg s)
  else .next (fileDatagram dg s)

end Sys2Proof.Machine
end

