-- ==== Sys2Proof/Machine/Dispatch.lean ====
section
/-! DEFINITION. The meaning of each operation: one arm per row of spec/opcode_table.json. -/

namespace Sys2Proof.Machine

def exec (i : Instr) (s : State) : Host.Outcome State Fault Refusal :=
  match i with
  | .ingest dg => Sys2Proof.Machine.execIngest dg s
  | .tqPush fr => Sys2Proof.Machine.execTqPush fr s
  | .tqPop => Sys2Proof.Machine.execTqPop s
  | .tqLen => Sys2Proof.Machine.execTqLen s
  | .tqClear => Sys2Proof.Machine.execTqClear s
  | .recProcess => Sys2Proof.Machine.execRecProcess s
  | .fecRecover fr m => Sys2Proof.Machine.execFecRecover fr m s
  | .metaValidate fr => Sys2Proof.Machine.execMetaValidate fr s
  | .jbPush e => Sys2Proof.Machine.execJbPush e s
  | .readSampleRx => Sys2Proof.Machine.execReadSampleRx s
  | .readSampleTx => Sys2Proof.Machine.execReadSampleTx s
  | .regRead addr => Sys2Proof.Machine.execRegRead addr s
  | .regWrite addr data => Sys2Proof.Machine.execRegWrite addr data s
  | .start => Sys2Proof.Machine.execStart s
  | .stop => Sys2Proof.Machine.execStop s
  | .clearCounters => Sys2Proof.Machine.execClearCounters s
  | .reset => Sys2Proof.Machine.execReset s

end Sys2Proof.Machine
end

