-- ==== Sys2Proof/Machine/Step.lean ====
section
/-! DEFINITION. One step of the machine: the agent whose turn it is performs its next operation. -/

namespace Sys2Proof.Machine

/-- One atomic step (20_memory.md R51, R56). -/
def step (s : State) : Host.Outcome State Fault Refusal :=
  match fetch s with
  | .idle t => .next t
  | .reject r => .refused r
  | .perform i t => retire (exec i t)

/-- The state with the operation of an opcode-table word presented where the next step takes it. -/
def State.withFetchWord (s : State) (nbits w : Nat) : State := presentTableWord s nbits w

end Sys2Proof.Machine
end

