-- ==== Sys2Proof/Safety.lean ====
section
/-! DEFINITION. What claims about runs are stated in: the form of the frame store, the invariant of the block
under the operations its agents present, and the operations that stand only inside others. -/

namespace Sys2Proof

open Machine

/-- The operations an agent presents. The others are 'performed only as part of the enclosing operation'
(30_encoding.md R77), although the model runs them singly too (log 12). -/
def Instr.presented : Instr → Bool
  | .ingest _ => true
  | .tqPush _ => false
  | .tqPop => false
  | .tqLen => true
  | .tqClear => false
  | .recProcess => true
  | .fecRecover _ _ => false
  | .metaValidate _ => false
  | .jbPush _ => false
  | .readSampleRx => true
  | .readSampleTx => true
  | .regRead _ => true
  | .regWrite _ _ => true
  | .start => true
  | .stop => true
  | .clearCounters => true
  | .reset => true

namespace Machine

/-- Every frame record the block holds: in the ring, the Transfer Queue and the jitter buffer
(20_memory.md R43). -/
def heldFrames (s : State) : List Frame :=
  s.ring.filterMap id ++ s.tq ++ s.jb.map JbEntry.frame

/-- The canonical form of the frame store: P_RING_MAX ring slots, and every held frame has 256 slots of
P_BLOCK_BYTES bytes (10_state.md R22, R23, R26). -/
abbrev State.StoreOk (s : State) : Prop :=
  s.ring.length = s.cfg.ringMax ∧ ∀ fr ∈ heldFrames s, fr.wf s.cfg.blockBytes = true

/-- What every frame record satisfies that INGEST builds and FEC_RECOVER completes: its form,
`metaRetrieved = blocks[0].present` (10_state.md R25), `blockCount = originalCount + recoveryCount`
(40_reassembler.md R87), and a slot that is not present is as fresh (10_state.md R24). -/
abbrev FrameOk (c : Config) (fr : Frame) : Prop :=
  fr.wf c.blockBytes = true ∧
  fr.metaRetrieved = isPresent fr 0 ∧
  fr.blockCount = fr.originalCount + fr.recoveryCount ∧
  ∀ b ∈ fr.blocks, b.present = false → b = freshBlock c.blockBytes

/-- The cursor stands on a sample of the head frame; on an empty buffer it is at the start
(10_state.md R30). -/
abbrev CursorOk (s : State) : Prop :=
  match s.jb with
  | [] => s.cursor = cursorStart
  | e :: _ => 1 ≤ s.cursor.blk ∧ s.cursor.blk < s.cfg.k ∧ s.cursor.idx < samplesPerBlock s.cfg e.sb

/-- A ring slot in use holds a frame that belongs there; a slot past the configured depth is empty
(10_state.md R26, 40_reassembler.md R83). -/
abbrev RingOk (s : State) : Prop :=
  s.ring.length = s.cfg.ringMax ∧
  ∀ k < s.cfg.ringMax, ∀ fr, ringAt s k = some fr →
    k < s.cfgRingSize.toNat ∧ ringSlot s fr.frameIndex = k ∧ FrameOk s.cfg fr

/-- The configuration registers hold legal values (10_state.md R38). -/
abbrev ConfigOk (s : State) : Prop :=
  isPow2 s.cfgRingSize.toNat = true ∧ s.cfgRingSize.toNat ≤ s.cfg.ringMax ∧
  1 ≤ s.cfgJbDepth.toNat ∧ s.cfgJbDepth.toNat ≤ s.cfg.jbMax

/-- The queues are within their bounds and hold whole frames (10_state.md R27, R29). -/
abbrev QueuesOk (s : State) : Prop :=
  s.tq.length ≤ s.cfg.tqCapacity ∧
  s.jb.length ≤ s.cfgJbDepth.toNat ∧
  (∀ fr ∈ s.tq, FrameOk s.cfg fr) ∧
  ∀ e ∈ s.jb, FrameOk s.cfg e.frame ∧ (e.sb = 0#8 ∨ e.sb = 1#8 ∨ e.sb = 2#8 ∨ e.sb = 4#8)

/-- Bits 31:10 of EVT_STATUS and EVT_ENABLE read 0 (10_state.md R37). -/
abbrev EventBitsOk (s : State) : Prop :=
  s.evtStatus &&& ~~~eventMask = 0#32 ∧ s.evtEnable &&& ~~~eventMask = 0#32

/-- While stopped the block holds no frame (45_host_interface.md R131). -/
abbrev StoppedOk (s : State) : Prop :=
  s.run = false → (∀ o ∈ s.ring, o = none) ∧ s.tq = [] ∧ s.jb = []

/-- The invariant of the block under the operations its agents present. -/
structure State.Inv (s : State) : Prop where
  ring : RingOk s
  config : ConfigOk s
  queues : QueuesOk s
  cursor : CursorOk s
  events : EventBitsOk s
  stopped : StoppedOk s
  history : s.telSeen.length = allTelemetry.length

/-- The record `new` is the record `old` with the datagram `dg` filed in it (40_reassembler.md R86, R87): the
slot of its blockIndex holds its bytes 8 and above with its header tags, every other slot is as it
was, and the datagram is counted, a duplicate too. -/
structure FilesDatagram (c : Config) (dg : List Byte) (old new : Frame) : Prop where
  frameIndex : new.frameIndex = old.frameIndex
  slots : new.blocks.length = old.blocks.length
  stored : slotOf new (dgBlockIndex dg).toNat = ⟨true, dg.drop 8, byteAt dg 5, byteAt dg 6⟩
  others : ∀ b, b ≠ (dgBlockIndex dg).toNat → slotOf new b = slotOf old b
  metaRetrieved : new.metaRetrieved = (old.metaRetrieved || dgBlockIndex dg == 0#8)
  original : (dgBlockIndex dg).toNat < c.k →
    new.originalCount = old.originalCount + 1#32 ∧ new.recoveryCount = old.recoveryCount
  recovery : c.k ≤ (dgBlockIndex dg).toNat →
    new.originalCount = old.originalCount ∧ new.recoveryCount = old.recoveryCount + 1#32
  counted : new.blockCount = old.blockCount + 1#32

/-- The record `new` is the record `old` with its missing originals rebuilt as the blocks `o`
(42_fec_recovery.md R105): no present original, no recovery slot and no counter is changed. -/
structure RebuildsFrame (c : Config) (o : List (List Byte)) (old new : Frame) : Prop where
  frameIndex : new.frameIndex = old.frameIndex
  slots : new.blocks.length = old.blocks.length
  originalCount : new.originalCount = old.originalCount
  recoveryCount : new.recoveryCount = old.recoveryCount
  blockCount : new.blockCount = old.blockCount
  kept : ∀ b, c.k ≤ b ∨ isPresent old b = true → slotOf new b = slotOf old b
  rebuilt : ∀ j < c.k, isPresent old j = false → slotOf new j = ⟨true, o.getD j [], 0#8, 0#8⟩
  metaRetrieved : new.metaRetrieved = (old.metaRetrieved || !isPresent old 0)

/-- The state after `n` reads of one sample pair. -/
def readMany (isTx : Bool) : Nat → State → State
  | 0, s => s
  | n + 1, s => readMany isTx n (readSample isTx s)

end Machine

end Sys2Proof
end

