-- ==== Sys2Proof/Certificates/Slice0/Obligations.lean ====
section
/-! DEFINITION. The statements about the model, each formalising rules of spec/ or resting on the sections
its docstring names. -/

open Sys2Proof Sys2Proof.Machine

/-! ### Steps, ports and decoding -/

/-- A step performs the operation that the agent whose turn it is has presented, with the turn and the
record taken, and then notes the telemetry values (20_memory.md R51, R56; the ports and turns are
the model's device, log 5 and log 6). -/
def Obligations.StepPerformsThePresentedOperation : Prop :=
  ∀ (s : State) (a : Agent) (rest : List Agent) (bytes tail : List Byte) (i : Instr),
    s.sched = a :: rest → portOf s a = bytes → decode s.cfg bytes = .ok (i, tail) →
    owns a i = true → (i = .recProcess → s.tq ≠ []) →
    ∀ t, exec i (setPort a tail { s with sched := rest }) = .next t → step s = .next (observe t)

/-- With no turn left nothing moves; an agent that has presented nothing lets its turn pass; REC lets it
pass, and keeps its record, while the Transfer Queue is empty (41_transfer_queue.md R95, log 6). -/
def Obligations.TurnsPassWithoutAnOperation : Prop :=
  ∀ (s : State),
    (s.sched = [] → step s = .next s) ∧
    (∀ a rest, s.sched = a :: rest → portOf s a = [] → step s = .next { s with sched := rest }) ∧
    (∀ rest tail, s.sched = .recovery :: rest →
      decode s.cfg s.ports.recovery = .ok (.recProcess, tail) → s.tq = [] →
      step s = .next { s with sched := rest })

/-- The selectors 0x00, 0x0C to 0x0F and 0x16 to 0xFF spell no operation: the decoder rejects them by
name and a step that meets one is refused (30_encoding.md section 4, R78, first bullet). -/
def Obligations.ReservedSelectorsAreRefused : Prop :=
  ∀ (sel : Byte) (bs : List Byte),
    (sel.toNat = 0 ∨ (0x0C ≤ sel.toNat ∧ sel.toNat ≤ 0x0F) ∨ 0x16 ≤ sel.toNat) →
    (∀ c, decode c (sel :: bs) = .error (.reservedSelector sel)) ∧
    ∀ (s : State) (a : Agent) (rest : List Agent), s.sched = a :: rest → portOf s a = sel :: bs →
      step s = .refused (.undecodable (.reservedSelector sel))

/-- An operation presented by an agent that does not own it is refused (60_exceptions.md section 5, R142;
that the model refuses it is log 9). -/
def Obligations.ForeignOperationsAreRefused : Prop :=
  ∀ (s : State) (a b : Agent) (rest : List Agent) (bytes tail : List Byte) (i : Instr),
    s.sched = a :: rest → portOf s a = bytes → decode s.cfg bytes = .ok (i, tail) →
    ownerOf i = some b → a ≠ b → step s = .refused (.notOwner a)

/-- Some records written out from the selector table of 30_encoding.md R77 (record form: log 5). -/
def Obligations.WrittenOutRecordsDecode : Prop :=
  decode Config.testProfile [0x01, 0x03, 0x00, 0xAA, 0xBB, 0xCC] = .ok (.ingest [0xAA, 0xBB, 0xCC], []) ∧
  decode Config.testProfile [0x06] = .ok (.recProcess, []) ∧
  decode Config.testProfile [0x0A, 0x0B] = .ok (.readSampleRx, [0x0B]) ∧
  decode Config.testProfile [0x10, 0x2C] = .ok (.regRead 0x2C, []) ∧
  decode Config.testProfile [0x11, 0x0C, 0xFF, 0x03, 0x00, 0x00] = .ok (.regWrite 0x0C 0x3FF, []) ∧
  decode Config.testProfile [0x15] = .ok (.reset, [])

/-- Decoding the record of a well-formed operation gives it back, whatever bytes follow. -/
def Obligations.DecodeOfEncodeIsIdentity : Prop :=
  ∀ (c : Config) (i : Instr) (rest : List Byte), i.wf c = true →
    decode c (encode c i ++ rest) = .ok (i, rest)

/-- Every operation the decoder gives is well formed: its frames have 256 slots of P_BLOCK_BYTES bytes
(10_state.md R22, R23) and its datagram at most 65535 bytes (20_memory.md R45). -/
def Obligations.DecodedOperationsAreWellFormed : Prop :=
  ∀ (c : Config) (bytes rest : List Byte) (i : Instr), decode c bytes = .ok (i, rest) → i.wf c = true

/-! ### Frame Reassembler -/

/-- R81: while stopped INGEST changes nothing. -/
def Obligations.IngestWhileStoppedHasNoEffect : Prop :=
  ∀ (s : State) (dg : List Byte), s.run = false → exec (.ingest dg) s = .next s

/-- R82: a datagram of the wrong length is counted in malformedCount and signalled by E1, and changes
nothing else. -/
def Obligations.IngestRejectsWrongLength : Prop :=
  ∀ (s : State) (dg : List Byte), s.run = true → dg.length ≠ 8 + s.cfg.blockBytes →
    exec (.ingest dg) s = .next { s with
      malformedCount := s.malformedCount + 1#32
      events := s.events ++ [.malformed dg.length]
      evtStatus := s.evtStatus ||| 0x001#32 }

/-- R84, R86, R87: a datagram whose slot is empty is filed in a fresh record, one whose slot holds its own
frame in that record; the record goes to slot `frameIndex mod ringSize`, and nothing else of the
state changes. -/
def Obligations.IngestFilesTheBlock : Prop :=
  ∀ (s : State) (dg : List Byte) (old : Frame),
    s.StoreOk → ConfigOk s → s.run = true → dg.length = 8 + s.cfg.blockBytes →
    (let fi := dgFrameIndex s.cfg dg
     (ringAt s (fi.toNat % s.cfgRingSize.toNat) = none ∧ old = freshFrame s.cfg fi) ∨
     (ringAt s (fi.toNat % s.cfgRingSize.toNat) = some old ∧ old.frameIndex = fi)) →
    ∃ new, FilesDatagram s.cfg dg old new ∧
      exec (.ingest dg) s = .next { s with
        ring := s.ring.set ((dgFrameIndex s.cfg dg).toNat % s.cfgRingSize.toNat) (some new) }

/-- R85: a datagram whose slot holds another frame completes that frame, whatever the order of the two
frame indexes: the frame is pushed to the Transfer Queue (R92) and the datagram is filed in a fresh
record in its place. -/
def Obligations.IngestCompletesTheOtherFrame : Prop :=
  ∀ (s : State) (dg : List Byte) (old : Frame),
    s.StoreOk → ConfigOk s → s.run = true → dg.length = 8 + s.cfg.blockBytes →
    ringAt s ((dgFrameIndex s.cfg dg).toNat % s.cfgRingSize.toNat) = some old →
    old.frameIndex ≠ dgFrameIndex s.cfg dg →
    ∃ new, FilesDatagram s.cfg dg (freshFrame s.cfg (dgFrameIndex s.cfg dg)) new ∧
      (s.tq.length < s.cfg.tqCapacity →
        exec (.ingest dg) s = .next { s with
          ring := s.ring.set ((dgFrameIndex s.cfg dg).toNat % s.cfgRingSize.toNat) (some new)
          tq := s.tq ++ [old]
          events := s.events ++ [.tqPush old.frameIndex]
          evtStatus := s.evtStatus ||| 0x040#32 }) ∧
      ∀ head rest, s.tq = head :: rest → s.tq.length = s.cfg.tqCapacity →
        exec (.ingest dg) s = .next { s with
          ring := s.ring.set ((dgFrameIndex s.cfg dg).toNat % s.cfgRingSize.toNat) (some new)
          tq := rest ++ [old]
          tqDropCount := s.tqDropCount + 1#32
          events := s.events ++ [.tqDrop head.frameIndex, .tqPush old.frameIndex]
          evtStatus := s.evtStatus ||| 0x0C0#32 }

/-- R64: the fields of a datagram under the default byte order: frameIndex is bytes 0 to 3, least
significant first, blockIndex is byte 4, and a fresh record is all zero (10_state.md R24). -/
def Obligations.DatagramFieldsAreLittleEndian : Prop :=
  ∀ (c : Config) (dg : List Byte), c.wireEndian = .little →
    dgFrameIndex c dg = byteAt dg 3 ++ byteAt dg 2 ++ byteAt dg 1 ++ byteAt dg 0 ∧
    dgBlockIndex dg = byteAt dg 4 ∧
    ∀ fi b, b < 256 → slotOf (freshFrame c fi) b = ⟨false, List.replicate c.blockBytes 0#8, 0#8, 0#8⟩

/-! ### Transfer Queue -/

/-- R92: TQ_PUSH appends the frame with E7; a full queue first loses its oldest frame, counted, with E8. -/
def Obligations.TqPushAppendsTheFrame : Prop :=
  ∀ (s : State) (fr : Frame),
    (s.tq.length ≠ s.cfg.tqCapacity →
      exec (.tqPush fr) s = .next { s with
        tq := s.tq ++ [fr]
        events := s.events ++ [.tqPush fr.frameIndex]
        evtStatus := s.evtStatus ||| 0x040#32 }) ∧
    ∀ head rest, s.tq = head :: rest → s.tq.length = s.cfg.tqCapacity →
      exec (.tqPush fr) s = .next { s with
        tq := rest ++ [fr]
        tqDropCount := s.tqDropCount + 1#32
        events := s.events ++ [.tqDrop head.frameIndex, .tqPush fr.frameIndex]
        evtStatus := s.evtStatus ||| 0x0C0#32 }

/-- R95: TQ_POP takes the head, none from an empty queue, on which REC_PROCESS has no step. -/
def Obligations.TqPopTakesTheHead : Prop :=
  ∀ (s : State),
    (s.tq = [] → exec .tqPop s = .next { s with outputs := s.outputs ++ [.popped none] } ∧
      exec .recProcess s = .next s) ∧
    ∀ fr rest, s.tq = fr :: rest →
      exec .tqPop s = .next { s with tq := rest, outputs := s.outputs ++ [.popped (some fr)] }

/-- R96, R97: TQ_LEN returns the length, which for a queue within its capacity is not truncated, and
changes no state; TQ_CLEAR empties the queue and counts and signals nothing. -/
def Obligations.TqLenCountsAndTqClearEmpties : Prop :=
  ∀ (s : State),
    (∃ n : Word, exec .tqLen s = .next { s with outputs := s.outputs ++ [.queueLength n] } ∧
      (s.tq.length ≤ s.cfg.tqCapacity → n.toNat = s.tq.length)) ∧
    exec .tqClear s = .next { s with tq := [] }

/-! ### FEC Recovery Engine -/

/-- R98: under the default polynomial every element but 0 has the inverse `inv`. -/
def Obligations.FieldElementsHaveInverses : Prop :=
  ∀ a : Byte, a ≠ 0#8 → gmul 0x14D#9 a (ginv 0x14D#9 a) = 1#8

/-- R101: the first recovery block of the default code is the bytewise XOR of all originals (here for the
default polynomial). -/
def Obligations.FirstRecoveryBlockIsTheXor : Prop :=
  ∀ (c : Config) (o : List (List Byte)), c.code = .cauchy → c.gfPoly = 0x14D#9 → c.k ≤ 255 →
    o.length = c.k → (∀ x ∈ o, x.length = c.blockBytes) →
    (∀ j < c.k, coefficient c c.k j = 1#8) ∧
    encodedBlock c o c.k =
      o.foldl (fun acc x => List.zipWith (· ^^^ ·) acc x) (List.replicate c.blockBytes 0#8)

/-- R102: when every block given to Decode is the encoding of the same originals (R99), and the matrix of
the set has all its pivots, Decode returns those originals (here for the default polynomial). That
the matrix of P_K distinct indices has them is DecodeInvertsTheCode below. -/
def Obligations.DecodeReturnsTheOriginals : Prop :=
  ∀ (c : Config) (o : List (List Byte)) (idx : List Nat), c.gfPoly = 0x14D#9 →
    o.length = c.k → (∀ x ∈ o, x.length = c.blockBytes) →
    (solve c.gfPoly c.k
      (idx.map fun i => ⟨generatorRow c i, encodedBlock c o i⟩)).isSome = true →
    decodeSet c (idx.map fun i => (i, encodedBlock c o i)) = o

/-- R99, R102: for P_K blocks of distinct indices Decode is total and is the inverse of the code: the blocks
it returns are P_K blocks whose encodings are the blocks given, and no other blocks are. It rests on
the code being MDS, which every configuration's is (here for the default polynomial). -/
def Obligations.DecodeInvertsTheCode : Prop :=
  ∀ (c : Config) (set : List (Nat × List Byte)), c.gfPoly = 0x14D#9 →
    set.length = c.k → (set.map Prod.fst).Nodup →
    (∀ ib ∈ set, ib.1 < 256 ∧ ib.2.length = c.blockBytes) →
    let o := decodeSet c set
    o.length = c.k ∧ (∀ x ∈ o, x.length = c.blockBytes) ∧
    (∀ ib ∈ set, encodedBlock c o ib.1 = ib.2) ∧
    ∀ o', o'.length = c.k → (∀ x ∈ o', x.length = c.blockBytes) →
      (∀ ib ∈ set, encodedBlock c o' ib.1 = ib.2) → o' = o

/-- R103, R104, R105: FEC_RECOVER leaves a frame with every original present alone; fails with E4 when the
decoder is absent, M is 0 or fewer than P_K distinct blocks below P_K + M are present; else
rebuilds exactly the missing originals by Decode of the decoder set: all present originals, then
the first present recovery blocks below P_K + M that are needed. -/
def Obligations.FecRecoverRebuildsOrFails : Prop :=
  ∀ (s : State) (fr : Frame) (m : Nat), fr.wf s.cfg.blockBytes = true →
    let usable := ((List.range (s.cfg.k + m)).filter fun b => isPresent fr b).length
    let canDecode := s.cfg.fecAvailable = true ∧ m ≠ 0 ∧ s.cfg.k ≤ usable
    let originals := (List.range s.cfg.k).filter fun j => isPresent fr j
    let recoveries := (List.range' s.cfg.k m).filter fun b => isPresent fr b
    let set := originals ++ recoveries.take (s.cfg.k - originals.length)
    ((∀ j < s.cfg.k, isPresent fr j = true) →
      exec (.fecRecover fr m) s = .next { s with outputs := s.outputs ++ [.recovered fr .notNeeded] }) ∧
    ((∃ j < s.cfg.k, isPresent fr j = false) → ¬ canDecode →
      exec (.fecRecover fr m) s = .next { s with
        outputs := s.outputs ++ [.recovered fr .failure]
        events := s.events ++ [.decodeFail fr.frameIndex usable]
        evtStatus := s.evtStatus ||| 0x008#32 }) ∧
    ((∃ j < s.cfg.k, isPresent fr j = false) → canDecode →
      ∃ new, RebuildsFrame s.cfg (decodeSet s.cfg (set.map fun i => (i, payloadOf fr i))) fr new ∧
        (∀ j < s.cfg.k, (payloadOf new j).length = s.cfg.blockBytes) ∧
        exec (.fecRecover fr m) s = .next { s with outputs := s.outputs ++ [.recovered new .success] })

/-- R108: the RecoveryCount of a frame is its own descriptor's when block 0 was received and its CRC
checks, else the cached one's, else 0, and never above 256 - P_K. -/
def Obligations.RecoveryCountSelection : Prop :=
  ∀ (s : State) (fr : Frame), selectM s fr + s.cfg.k ≤ 256 ∧
    (fr.metaRetrieved = true → crcOk s.cfg (payloadOf fr 0) = true →
      selectM s fr = min (byteAt (payloadOf fr 0) 15).toNat (256 - s.cfg.k)) ∧
    (fr.metaRetrieved = false ∨ crcOk s.cfg (payloadOf fr 0) = false →
      (∀ m, s.cachedMeta = some m → selectM s fr = min m.nbFECBlocks.toNat (256 - s.cfg.k)) ∧
      (s.cachedMeta = none → selectM s fr = 0))

/-- R107: every frame REC_PROCESS pops reaches the jitter buffer exactly once, with its index, its counters
and every block that was present, rebuilt where it can be (R104, R105) and as it is otherwise; a frame
that is not incomplete and whose descriptor was retrieved, by INGEST or by the rebuild, goes through
META_VALIDATE (R117 to R119); the push is JB_PUSH (R122). The events come in the order E2 or E4, E5 or
E6, E3, E9 (60_exceptions.md R138); E3 and the error counters are RecProcessAccountsErrors'. Nothing
but the named parts of the state changes. -/
def Obligations.RecProcessForwardsEveryFrame : Prop :=
  ∀ (s : State) (fr : Frame) (rest : List Frame), s.tq = fr :: rest →
    let m := selectM s fr
    let complete := s.cfg.k ≤ fr.blockCount.toNat
    let usable := ((List.range (s.cfg.k + m)).filter fun b => isPresent fr b).length
    let tried := complete ∧ fr.originalCount.toNat ≠ s.cfg.k ∧ ∃ j < s.cfg.k, isPresent fr j = false
    let rebuilt := tried ∧ s.cfg.fecAvailable = true ∧ m ≠ 0 ∧ s.cfg.k ≤ usable
    ∃ t e recovery validation accounting dropped, exec .recProcess s = .next t ∧
      t = { s with
        tq := rest, jb := t.jb, cursor := t.cursor, cachedMeta := t.cachedMeta
        correctableErrors := t.correctableErrors, uncorrectableErrors := t.uncorrectableErrors
        jbDropCount := t.jbDropCount, events := t.events, evtStatus := t.evtStatus } ∧
      -- the frame that is forwarded
      e.frame.frameIndex = fr.frameIndex ∧
      e.frame.originalCount = fr.originalCount ∧ e.frame.recoveryCount = fr.recoveryCount ∧
      e.frame.blockCount = fr.blockCount ∧
      (∀ b, isPresent fr b = true → slotOf e.frame b = slotOf fr b) ∧
      (¬ rebuilt → e.frame = fr) ∧
      (rebuilt → fr.wf s.cfg.blockBytes = true →
        RebuildsFrame s.cfg (decodedOriginals s.cfg fr m) fr e.frame) ∧
      e.sb = sbFor s.cfg t.cachedMeta e.frame ∧
      -- the push
      t.jb = (if s.jb.length = s.cfgJbDepth.toNat then s.jb.tail else s.jb) ++ [e] ∧
      t.cursor = (if s.jb = [] ∨ s.jb.length = s.cfgJbDepth.toNat then ⟨1, 0⟩ else s.cursor) ∧
      dropped = (if s.jb.length = s.cfgJbDepth.toNat then
        (s.jb.head?.toList.map fun old => .jbDrop old.frame.frameIndex) else []) ∧
      t.jbDropCount = s.jbDropCount + BitVec.ofNat 32 dropped.length ∧
      -- the events
      t.events = s.events ++ recovery ++ validation ++ accounting ++ dropped ∧
      (¬ complete → recovery = [.incomplete fr.frameIndex fr.blockCount]) ∧
      (tried → ¬ rebuilt → recovery = [.decodeFail fr.frameIndex usable]) ∧
      (complete → (tried → rebuilt) → recovery = []) ∧
      (accounting = [] ∨ ∃ lost, accounting = [.uncorrectable fr.frameIndex lost]) ∧
      -- the descriptor
      let p := payloadOf e.frame 0
      let rate := (metaParse s.cfg p).sampleRate
      let validated := complete ∧ e.frame.metaRetrieved = true
      (¬ validated → t.cachedMeta = s.cachedMeta ∧ validation = []) ∧
      (validated → crcOk s.cfg p = false → t.cachedMeta = s.cachedMeta ∧
        validation = [.metaCrc fr.frameIndex (metaCrcComputed s.cfg p) (metaCrcEmbedded s.cfg p)]) ∧
      (validated → crcOk s.cfg p = true → t.cachedMeta = some (metaParse s.cfg p) ∧
        (s.cachedMeta = none → validation = [.newSampleRate 0#32 rate]) ∧
        ∀ c, s.cachedMeta = some c →
          (c.sampleRate = rate → validation = []) ∧
          (c.sampleRate ≠ rate → validation = [.newSampleRate c.sampleRate rate]))

/-- R109: an incomplete frame is not decoded and not validated; it raises E2, is accounted with E3, and is
forwarded as it is. -/
def Obligations.IncompleteFramesAreForwardedUnchanged : Prop :=
  ∀ (s : State) (fr : Frame) (rest : List Frame), s.tq = fr :: rest → fr.blockCount.toNat < s.cfg.k →
    ∃ t lost dropped, exec .recProcess s = .next t ∧
      t.cachedMeta = s.cachedMeta ∧ t.correctableErrors = s.correctableErrors ∧
      t.uncorrectableErrors = s.uncorrectableErrors + BitVec.ofNat 32 lost ∧
      t.jb.getLast? = some ⟨fr, sbFor s.cfg s.cachedMeta fr⟩ ∧
      t.events = s.events ++ [.incomplete fr.frameIndex fr.blockCount, .uncorrectable fr.frameIndex lost] ++ dropped ∧
      dropped = (if s.jb.length = s.cfgJbDepth.toNat then
        (s.jb.head?.toList.map fun e => .jbDrop e.frame.frameIndex) else [])

/-- R111: the accounting of one frame, branch by branch, with M chosen by R108: what is added to which
counter, and E3 once with the lost originals, or not at all. -/
def Obligations.RecProcessAccountsErrors : Prop :=
  ∀ (s : State) (fr : Frame) (rest : List Frame), s.tq = fr :: rest →
    let m := selectM s fr
    let oc := fr.originalCount.toNat
    let missingOriginals := ((List.range s.cfg.k).filter fun j => !isPresent fr j).length
    let usable := ((List.range (s.cfg.k + m)).filter fun b => isPresent fr b).length
    let tried := s.cfg.k ≤ fr.blockCount.toNat ∧ oc ≠ s.cfg.k ∧ missingOriginals ≠ 0
    let rebuilt := tried ∧ s.cfg.fecAvailable = true ∧ m ≠ 0 ∧ s.cfg.k ≤ usable
    ∃ t new, exec .recProcess s = .next t ∧ t.events = s.events ++ new ∧
      let lostEvents := new.filter fun e => eventCode e == 3
      (oc + m < s.cfg.k →
        t.uncorrectableErrors = s.uncorrectableErrors + BitVec.ofNat 32 (s.cfg.k - m - oc) ∧
        t.correctableErrors = s.correctableErrors ∧
        lostEvents = [.uncorrectable fr.frameIndex (s.cfg.k - m - oc)]) ∧
      (s.cfg.k ≤ oc + m → rebuilt →
        t.uncorrectableErrors = s.uncorrectableErrors ∧
        t.correctableErrors = s.correctableErrors + fr.recoveryCount ∧
        lostEvents = []) ∧
      (s.cfg.k ≤ oc + m → s.cfg.k ≤ fr.blockCount.toNat → ¬ tried →
        t.uncorrectableErrors = s.uncorrectableErrors ∧ t.correctableErrors = s.correctableErrors ∧
        lostEvents = []) ∧
      (s.cfg.k ≤ oc + m → fr.blockCount.toNat < s.cfg.k ∨ (tried ∧ ¬ rebuilt) →
        t.uncorrectableErrors = s.uncorrectableErrors + BitVec.ofNat 32 missingOriginals ∧
        t.correctableErrors = s.correctableErrors ∧
        lostEvents = [.uncorrectable fr.frameIndex missingOriginals])

/-- R110: a frame whose counter says that all originals arrived is forwarded as it is, with no decode and
no error counted, even where a duplicate hides a missing original. -/
def Obligations.CountedCompleteFramesAreNotDecoded : Prop :=
  ∀ (s : State) (fr : Frame) (rest : List Frame), s.tq = fr :: rest →
    s.cfg.k ≤ fr.blockCount.toNat → fr.originalCount.toNat = s.cfg.k →
    ∃ t sb, exec .recProcess s = .next t ∧ t.jb.getLast? = some ⟨fr, sb⟩ ∧
      t.correctableErrors = s.correctableErrors ∧ t.uncorrectableErrors = s.uncorrectableErrors

/-- R104, R105, R107: REC_PROCESS of a frame whose originals are missing and can be decoded forwards it with
every original present. -/
def Obligations.RecProcessRebuildsMissingOriginals : Prop :=
  ∀ (s : State) (fr : Frame) (rest : List Frame), s.tq = fr :: rest → fr.wf s.cfg.blockBytes = true →
    s.cfg.k ≤ fr.blockCount.toNat → fr.originalCount.toNat ≠ s.cfg.k →
    s.cfg.fecAvailable = true → selectM s fr ≠ 0 →
    s.cfg.k ≤ ((List.range (s.cfg.k + selectM s fr)).filter fun b => isPresent fr b).length →
    ∃ t e, exec .recProcess s = .next t ∧ t.jb.getLast? = some e ∧
      (∀ j < s.cfg.k, isPresent e.frame j = true) ∧
      (∀ j < s.cfg.k, isPresent fr j = false →
        payloadOf e.frame j = (decodedOriginals s.cfg fr (selectM s fr)).getD j [])

/-- R138: within one operation events are appended in this order: INGEST, E1 alone, or E8 then E7, or none;
REC_PROCESS, at most one of E2 and E4, then at most one of E5 and E6 (never after E2), then E3,
then E9; READ_SAMPLE, E10 alone or none; the host operations, none. -/
def Obligations.EventOrderWithinAnOperation : Prop :=
  ∀ (s t : State) (i : Instr), exec i s = .next t → i.presented = true →
    match i with
    | .ingest dg =>
      t.events = s.events ∨ t.events = s.events ++ [.malformed dg.length] ∨
      ∃ old fr, t.events = s.events ++ old ++ [.tqPush fr] ∧ (old = [] ∨ ∃ g, old = [.tqDrop g])
    | .recProcess =>
      ∃ a b c d, t.events = s.events ++ a ++ b ++ c ++ d ∧
        (a = [] ∨ (∃ f n, a = [.incomplete f n] ∧ b = []) ∨ ∃ f n, a = [.decodeFail f n]) ∧
        (b = [] ∨ (∃ f x y, b = [.metaCrc f x y]) ∨ ∃ x y, b = [.newSampleRate x y]) ∧
        (c = [] ∨ ∃ f n, c = [.uncorrectable f n]) ∧ (d = [] ∨ ∃ f, d = [.jbDrop f])
    | .readSampleRx => t.events = s.events ∨ t.events = s.events ++ [.jbUnderrun]
    | .readSampleTx => t.events = s.events ∨ t.events = s.events ++ [.jbUnderrun]
    | _ => t.events = s.events

/-! ### Meta Validator -/

/-- R116: the fields of the descriptor, under the default byte order. -/
def Obligations.DescriptorFieldsAreParsed : Prop :=
  ∀ (c : Config) (p : List Byte), c.wireEndian = .little →
    let b := byteAt p
    metaParse c p =
      { centerFrequency := b 7 ++ b 6 ++ b 5 ++ b 4 ++ b 3 ++ b 2 ++ b 1 ++ b 0
        sampleRate := b 11 ++ b 10 ++ b 9 ++ b 8
        sampleBytesRaw := b 12
        sampleBytes := (b 12).setWidth 4
        sampleBits := b 13
        nbOriginalBlocks := b 14
        nbFECBlocks := b 15
        deviceIndex := b 17 ++ b 16
        channelIndex := b 19 ++ b 18
        tvSec := b 23 ++ b 22 ++ b 21 ++ b 20
        tvUsec := b 27 ++ b 26 ++ b 25 ++ b 24
        crc32 := b 31 ++ b 30 ++ b 29 ++ b 28 }

/-- 43_meta_validator.md section 1 (R113, R114): the CRC of a descriptor covers its bytes 0 to 27 and is
compared with the value in its bytes 28 to 31, least significant first under the default byte order;
for CRC-32/ISO-HDLC, the default variant (log 4), it is the loop of R113, whose value over the ASCII
bytes "123456789" is 0xCBF43926. -/
def Obligations.CrcCoversTheDescriptor : Prop :=
  (∀ (c : Config) (p : List Byte),
    metaCrcComputed c p = crc32 c.crc ((List.range 28).map (byteAt p)) ∧
    (c.wireEndian = .little → metaCrcEmbedded c p = byteAt p 31 ++ byteAt p 30 ++ byteAt p 29 ++ byteAt p 28) ∧
    (c.wireEndian = .big → metaCrcEmbedded c p = byteAt p 28 ++ byteAt p 29 ++ byteAt p 30 ++ byteAt p 31) ∧
    (crcOk c p = true ↔ metaCrcComputed c p = metaCrcEmbedded c p)) ∧
  (∀ b : List Byte,
    let shift := fun r : Word => if r.getLsbD 0 then (r >>> 1) ^^^ 0xEDB88320#32 else r >>> 1
    let next := fun (r : Word) (x : Byte) => shift^[8] (r ^^^ x.setWidth 32)
    crc32 CrcParams.isoHdlc b = b.foldl next 0xFFFFFFFF#32 ^^^ 0xFFFFFFFF#32) ∧
  crc32 CrcParams.isoHdlc [0x31, 0x32, 0x33, 0x34, 0x35, 0x36, 0x37, 0x38, 0x39] = 0xCBF43926#32

/-- R119: a CRC-valid descriptor is adopted; E6 comes with it exactly when no descriptor was cached or its
sample rate was another. -/
def Obligations.ValidDescriptorIsAdopted : Prop :=
  ∀ (s : State) (fr : Frame), fr.metaRetrieved = true → crcOk s.cfg (payloadOf fr 0) = true →
    let m := metaParse s.cfg (payloadOf fr 0)
    (∀ c, s.cachedMeta = some c → c.sampleRate = m.sampleRate →
      exec (.metaValidate fr) s = .next { s with
        cachedMeta := some m, outputs := s.outputs ++ [.descriptor (some m)] }) ∧
    (∀ c, s.cachedMeta = some c → c.sampleRate ≠ m.sampleRate →
      exec (.metaValidate fr) s = .next { s with
        cachedMeta := some m, outputs := s.outputs ++ [.descriptor (some m)]
        events := s.events ++ [.newSampleRate c.sampleRate m.sampleRate]
        evtStatus := s.evtStatus ||| 0x020#32 }) ∧
    (s.cachedMeta = none →
      exec (.metaValidate fr) s = .next { s with
        cachedMeta := some m, outputs := s.outputs ++ [.descriptor (some m)]
        events := s.events ++ [.newSampleRate 0#32 m.sampleRate]
        evtStatus := s.evtStatus ||| 0x020#32 })

/-- 43_meta_validator.md R118 (first sentence) and R117: a descriptor whose CRC does not match changes
nothing but the event log, with E5; a frame without a retrieved descriptor is not validated (log 16). -/
def Obligations.InvalidDescriptorIsNotAdopted : Prop :=
  ∀ (s : State) (fr : Frame),
    (fr.metaRetrieved = true → crcOk s.cfg (payloadOf fr 0) = false →
      exec (.metaValidate fr) s = .next { s with
        outputs := s.outputs ++ [.descriptor none]
        events := s.events ++
          [.metaCrc fr.frameIndex (metaCrcComputed s.cfg (payloadOf fr 0)) (metaCrcEmbedded s.cfg (payloadOf fr 0))]
        evtStatus := s.evtStatus ||| 0x010#32 }) ∧
    (fr.metaRetrieved = false → exec (.metaValidate fr) s = .next s)

/-- 43_meta_validator.md section 1 (R115): one flipped bit in bytes 0 to 27 of a valid descriptor makes its
CRC fail, and META_VALIDATE then keeps the cached descriptor. For every CRC variant whose generator
has its constant term, the default among them; the generator of one term, which the model admits, is
none of these (log 20). -/
def Obligations.SingleBitFlipIsDetected : Prop :=
  ∀ (c : Config) (p : List Byte) (byte bit : Nat), c.crc.poly.getLsbD 0 = true →
    32 ≤ p.length → crcOk c p = true → byte < 28 → bit < 8 →
    let flipped := p.set byte (byteAt p byte ^^^ (1#8 <<< bit))
    crcOk c flipped = false ∧
    ∀ (s : State) (fr : Frame), s.cfg = c → fr.metaRetrieved = true → payloadOf fr 0 = flipped →
      ∃ t, exec (.metaValidate fr) s = .next t ∧ t.cachedMeta = s.cachedMeta

/-! ### Jitter/Read Buffer -/

/-- R120: the width a frame is read with comes from its own valid block 0, else from the cached descriptor,
else there is none; a width that is not 1, 2 or 4 counts as none. -/
def Obligations.FrameWidthSelection : Prop :=
  ∀ (c : Config) (cached : Option MetaDataFEC) (fr : Frame),
    let own := isPresent fr 0 = true ∧ crcOk c (payloadOf fr 0) = true
    (sbFor c cached fr = 0#8 ∨ sbFor c cached fr = 1#8 ∨ sbFor c cached fr = 2#8 ∨ sbFor c cached fr = 4#8) ∧
    (∀ n, n = 1 ∨ n = 2 ∨ n = 4 →
      ((own ∧ (byteAt (payloadOf fr 0) 12).toNat % 16 = n) ∨
        (¬ own ∧ ∃ m, cached = some m ∧ m.sampleBytes.toNat = n) ↔
      sbFor c cached fr = BitVec.ofNat 8 n))

/-- R122: JB_PUSH appends the entry; a full buffer first loses its oldest frame, counted, with E9; the
cursor goes to (1, 0) when another entry becomes head. -/
def Obligations.JbPushAppendsTheEntry : Prop :=
  ∀ (s : State) (e : JbEntry),
    (s.jb.length ≠ s.cfgJbDepth.toNat →
      exec (.jbPush e) s = .next { s with
        jb := s.jb ++ [e], cursor := if s.jb = [] then ⟨1, 0⟩ else s.cursor }) ∧
    ∀ head rest, s.jb = head :: rest → s.jb.length = s.cfgJbDepth.toNat →
      exec (.jbPush e) s = .next { s with
        jb := rest ++ [e], cursor := ⟨1, 0⟩
        jbDropCount := s.jbDropCount + 1#32
        events := s.events ++ [.jbDrop head.frame.frameIndex]
        evtStatus := s.evtStatus ||| 0x100#32 }

/-- R125: on an empty buffer READ_SAMPLE returns (0, 0) with E10; the cursor and readSamplesCount stay. -/
def Obligations.EmptyBufferReadsSilence : Prop :=
  ∀ (s : State), s.jb = [] →
    let t := { s with
      outputs := s.outputs ++ [.sample 0#32 0#32]
      events := s.events ++ [.jbUnderrun]
      evtStatus := s.evtStatus ||| 0x200#32 }
    exec .readSampleRx s = .next t ∧ exec .readSampleTx s = .next t

/-- R124: a read advances the sample index, then the block, then pops the frame; it counts one sample,
returns one pair, and changes nothing else. A block has `floor(P_BLOCK_BYTES / (2 * sb))` samples for
the widths 1, 2 and 4 (R121). -/
def Obligations.ReadSampleAdvancesTheCursor : Prop :=
  ∀ (s : State) (e : JbEntry) (rest : List JbEntry) (i : Instr),
    i = .readSampleRx ∨ i = .readSampleTx → s.jb = e :: rest →
    let blk := s.cursor.blk
    let idx := s.cursor.idx
    let spb := samplesPerBlock s.cfg e.sb
    (∀ n, n = 1 ∨ n = 2 ∨ n = 4 → e.sb = BitVec.ofNat 8 n → spb = s.cfg.blockBytes / (2 * n)) ∧
    ∃ x y, ∀ (jb : List JbEntry) (cursor : Cursor),
      ((idx + 1 ≠ spb ∧ blk ≠ s.cfg.k ∧ jb = s.jb ∧ cursor = ⟨blk, idx + 1⟩) ∨
       (idx + 1 = spb ∧ blk + 1 ≠ s.cfg.k ∧ jb = s.jb ∧ cursor = ⟨blk + 1, 0⟩) ∨
       (idx + 1 = spb ∧ blk + 1 = s.cfg.k ∧ jb = rest ∧ cursor = ⟨1, 0⟩)) →
      exec i s = .next { s with
        jb := jb, cursor := cursor
        readSamplesCount := s.readSamplesCount + 1#32
        outputs := s.outputs ++ [.sample x y] }

/-- R126: from an entry of unsupported width every read returns (0, 0), is counted, and moves the cursor at
`floor(P_BLOCK_BYTES / 4)` samples a block, to the next block at its last sample and to the next frame
at the last block's. -/
def Obligations.UnsupportedWidthReadsZero : Prop :=
  ∀ (s : State) (e : JbEntry) (rest : List JbEntry) (i : Instr),
    i = .readSampleRx ∨ i = .readSampleTx → s.jb = e :: rest → e.sb = 0#8 →
    samplesPerBlock s.cfg e.sb = s.cfg.blockBytes / 4 ∧
    ∃ t, exec i s = .next t ∧ t.outputs = s.outputs ++ [.sample 0#32 0#32] ∧
      t.readSamplesCount = s.readSamplesCount + 1#32 ∧ t.events = s.events ∧
      (s.cursor.idx + 1 ≠ s.cfg.blockBytes / 4 → s.cursor.blk ≠ s.cfg.k →
        t.jb = s.jb ∧ t.cursor = ⟨s.cursor.blk, s.cursor.idx + 1⟩) ∧
      (s.cursor.idx + 1 = s.cfg.blockBytes / 4 → s.cursor.blk + 1 ≠ s.cfg.k →
        t.jb = s.jb ∧ t.cursor = ⟨s.cursor.blk + 1, 0⟩) ∧
      (s.cursor.idx + 1 = s.cfg.blockBytes / 4 → s.cursor.blk + 1 = s.cfg.k →
        t.jb = rest ∧ t.cursor = ⟨1, 0⟩)

/-- 44_jitter_buffer.md R123 and the table of R127, on the Tx path and the default byte order: an 8-bit
component is shifted left by 8, a 16-bit one is sign-extended, a 24-bit one in its 32-bit container
is shifted right by 8; I stands before Q. -/
def Obligations.TxSamplesAreConverted : Prop :=
  ∀ (s : State) (e : JbEntry) (rest : List JbEntry), s.jb = e :: rest → s.cfg.wireEndian = .little →
    let b := byteAt (payloadOf e.frame s.cursor.blk)
    let o := s.cursor.idx
    ∃ t x y, exec .readSampleTx s = .next t ∧ t.outputs = s.outputs ++ [.sample x y] ∧
      (e.sb = 1#8 → x = (b (2 * o)).signExtend 32 <<< 8 ∧ y = (b (2 * o + 1)).signExtend 32 <<< 8) ∧
      (e.sb = 2#8 →
        x = (b (4 * o + 1) ++ b (4 * o)).signExtend 32 ∧
        y = (b (4 * o + 3) ++ b (4 * o + 2)).signExtend 32) ∧
      (e.sb = 4#8 →
        x = (b (8 * o + 3) ++ b (8 * o + 2) ++ b (8 * o + 1) ++ b (8 * o)).sshiftRight 8 ∧
        y = (b (8 * o + 7) ++ b (8 * o + 6) ++ b (8 * o + 5) ++ b (8 * o + 4)).sshiftRight 8)

/-- 44_jitter_buffer.md R123, R127, on the Rx path and the default byte order: for W = P_RX_BITS a component
of 8 or 16 bits is shifted left to W bits, one of 24 bits in its 32-bit container is shifted right to
W bits; then, where one of the two widths is 24, by P_RX_HEADROOM more to the right. -/
def Obligations.RxSamplesAreConverted : Prop :=
  ∀ (s : State) (e : JbEntry) (rest : List JbEntry), s.jb = e :: rest → s.cfg.wireEndian = .little →
    let b := byteAt (payloadOf e.frame s.cursor.blk)
    let o := s.cursor.idx
    let w := s.cfg.rxBits.bits
    let h := s.cfg.rxHeadroom
    let narrow := fun v : Word => v.sshiftRight (if w = 24 then h else 0)
    ∃ t x y, exec .readSampleRx s = .next t ∧ t.outputs = s.outputs ++ [.sample x y] ∧
      (e.sb = 1#8 →
        x = narrow ((b (2 * o)).signExtend 32 <<< (w - 8)) ∧
        y = narrow ((b (2 * o + 1)).signExtend 32 <<< (w - 8))) ∧
      (e.sb = 2#8 →
        x = narrow ((b (4 * o + 1) ++ b (4 * o)).signExtend 32 <<< (w - 16)) ∧
        y = narrow ((b (4 * o + 3) ++ b (4 * o + 2)).signExtend 32 <<< (w - 16))) ∧
      (e.sb = 4#8 →
        x = ((b (8 * o + 3) ++ b (8 * o + 2) ++ b (8 * o + 1) ++ b (8 * o)).sshiftRight (24 - w)).sshiftRight h ∧
        y = ((b (8 * o + 7) ++ b (8 * o + 6) ++ b (8 * o + 5) ++ b (8 * o + 4)).sshiftRight (24 - w)).sshiftRight h)

/-- R128: the 16 to 24 to 16 bit trip on the Rx path gives `floor(x / 2^(2h))` for the headroom h, so it is
lossless for headroom 0. -/
def Obligations.RoundTripThrough24Bits : Prop :=
  ∀ (c16 c24 : Config) (x : Int), -32768 ≤ x → x ≤ 32767 →
    c16.rxBits = .b16 → c24.rxBits = .b24 → c16.rxHeadroom = c24.rxHeadroom →
    (c24.rxHeadroom = 0 → convert c24 x 16 false = x * 256) ∧
    convert c16 (convert c24 x 16 false) 24 false = x / 2 ^ (2 * c24.rxHeadroom) ∧
    (c24.rxHeadroom = 0 → convert c16 (convert c24 x 16 false) 24 false = x)

/-- R121, R124: a frame at its first sample supplies exactly `(P_K - 1) * spb` samples, block by block: before
that many reads it stays head with the cursor at (1 + n / spb, n mod spb), and that many remove it;
the pairs returned are those of its samples in (block, sample) order (20_memory.md R58). Here spb is
`floor(P_BLOCK_BYTES / (2 * sb))` for the widths 1, 2 and 4, and `floor(P_BLOCK_BYTES / 4)` for an
unsupported one. -/
def Obligations.FrameSuppliesItsSamplesInOrder : Prop :=
  ∀ (s : State) (e : JbEntry) (rest : List JbEntry) (isTx : Bool) (n : Nat),
    s.jb = e :: rest → s.cursor = ⟨1, 0⟩ → 0 < samplesPerBlock s.cfg e.sb →
    n ≤ (s.cfg.k - 1) * samplesPerBlock s.cfg e.sb →
    let spb := samplesPerBlock s.cfg e.sb
    let t := readMany isTx n s
    (∀ w, w = 1 ∨ w = 2 ∨ w = 4 → e.sb = BitVec.ofNat 8 w → spb = s.cfg.blockBytes / (2 * w)) ∧
    (e.sb = 0#8 → spb = s.cfg.blockBytes / 4) ∧
    t.outputs = s.outputs ++ (List.range n).map (fun j =>
      let p := samplePair s.cfg isTx e ⟨1 + j / spb, j % spb⟩
      .sample p.1 p.2) ∧
    t.readSamplesCount = s.readSamplesCount + BitVec.ofNat 32 n ∧
    (n < (s.cfg.k - 1) * spb → t.jb = s.jb ∧ t.cursor = ⟨1 + n / spb, n % spb⟩) ∧
    (n = (s.cfg.k - 1) * spb → t.jb = rest ∧ t.cursor = ⟨1, 0⟩)

/-! ### Host interface -/

/-- R129: a read of a control or parameter register returns its present value and changes no state of the
block. -/
def Obligations.RegReadOfControlRegisters : Prop :=
  ∀ (s : State) (addr : Byte) (w : Word),
    ((addr = 0x00#8 ∧ w = if s.run then 1#32 else 0#32) ∨
     (addr = 0x08#8 ∧ w = s.evtStatus) ∨ (addr = 0x0C#8 ∧ w = s.evtEnable) ∨
     (addr = 0x10#8 ∧ w = s.cfgRingSize) ∨ (addr = 0x14#8 ∧ w = s.cfgJbDepth) ∨
     (addr = 0x18#8 ∧ w = BitVec.ofNat 32 s.cfg.k) ∨
     (addr = 0x1C#8 ∧ w = BitVec.ofNat 32 s.cfg.blockBytes)) →
    exec (.regRead addr) s = .next { s with outputs := s.outputs ++ [.word w] }

/-- R36: STATUS shows RUNNING, META_VALID, IRQ and JB_EMPTY in bits 0 to 3 and zeros above; IRQ is set when
some event bit is both set and enabled (60_exceptions.md R137). A write of STATUS is ignored. -/
def Obligations.StatusShowsTheBlock : Prop :=
  ∀ (s : State), (∀ data, exec (.regWrite 0x04#8 data) s = .next s) ∧
    ∃ w, exec (.regRead 0x04#8) s = .next { s with outputs := s.outputs ++ [.word w] } ∧
    (w.getLsbD 0 = true ↔ s.run = true) ∧
    (w.getLsbD 1 = true ↔ s.cachedMeta ≠ none) ∧
    (w.getLsbD 2 = true ↔ ∃ n < 10, s.evtStatus.getLsbD n = true ∧ s.evtEnable.getLsbD n = true) ∧
    (w.getLsbD 3 = true ↔ s.jb = []) ∧
    ∀ n, 4 ≤ n → w.getLsbD n = false

/-- 10_state.md R40, with 20_memory.md section 4 (R53): the value each of the thirteen telemetry registers
holds now, and that a read returns it or one the register has held since the previous read of it, the
present one where no draw says otherwise; the read restarts that history, and nothing of the block
changes (the history and the draws are log 8). -/
def Obligations.TelemetryReadsAreAdmitted : Prop :=
  ∀ (s : State) (addr : Byte) (now : Word), s.telSeen.length = 13 →
    (let cached := fun f : MetaDataFEC → Word => (s.cachedMeta.map f).getD 0#32
     (addr = 0x20#8 ∧ now = s.cfgJbDepth) ∨
     (addr = 0x24#8 ∧ now = BitVec.ofNat 32 s.jb.length) ∨
     (addr = 0x28#8 ∧ now = s.readSamplesCount) ∨
     (addr = 0x2C#8 ∧ now = s.correctableErrors) ∨
     (addr = 0x30#8 ∧ now = s.uncorrectableErrors) ∨
     (addr = 0x34#8 ∧ now = cached fun m => m.centerFrequency.extractLsb' 0 32) ∨
     (addr = 0x38#8 ∧ now = cached fun m => m.centerFrequency.extractLsb' 32 32) ∨
     (addr = 0x3C#8 ∧ now = cached fun m => m.sampleRate) ∨
     (addr = 0x40#8 ∧ now = s.malformedCount) ∨
     (addr = 0x44#8 ∧ now = BitVec.ofNat 32 s.tq.length) ∨
     (addr = 0x48#8 ∧ now = s.tqDropCount) ∨
     (addr = 0x4C#8 ∧ now = s.jbDropCount) ∨
     (addr = 0x50#8 ∧
       now = cached fun m => m.nbFECBlocks ++ m.nbOriginalBlocks ++ m.sampleBits ++ m.sampleBytesRaw)) →
    let n := (addr.toNat - 0x20) / 4
    (∀ r, telemetryIndex r = n → registerAt addr = .telemetry r ∧ telemetryNow s r = now) ∧
    ∃ w, exec (.regRead addr) s = .next { s with
        outputs := s.outputs ++ [.word w]
        telSeen := s.telSeen.set n [now]
        telDraws := s.telDraws.tail } ∧
      (w = now ∨ w ∈ s.telSeen.getD n []) ∧
      (s.telDraws = [] → w = now)

/-- 20_memory.md section 4 (R53; log 8): after every performed operation the present value of each telemetry
register is in its history, and no value leaves a history but by a read of that register. -/
def Obligations.TelemetryHistoryKeepsPace : Prop :=
  ∀ (s t : State) (i : Instr), exec i s = .next t → s.telSeen.length = 13 →
    (observe t).telSeen.length = 13 ∧
    ∀ r, telemetryNow (observe t) r ∈ (observe t).telSeen.getD (telemetryIndex r) [] ∧
      ((∀ addr, i = .regRead addr → registerAt addr ≠ .telemetry r) →
        ∀ w ∈ s.telSeen.getD (telemetryIndex r) [], w ∈ (observe t).telSeen.getD (telemetryIndex r) [])

/-- R41, R48: a reserved, misaligned or too high offset reads 0, and a write there changes nothing. -/
def Obligations.ReservedOffsetsReadZeroAndIgnoreWrites : Prop :=
  ∀ (s : State) (addr : Byte) (data : Word), addr.toNat % 4 ≠ 0 ∨ 0x54 ≤ addr.toNat →
    exec (.regRead addr) s = .next { s with outputs := s.outputs ++ [.word 0#32] } ∧
    exec (.regWrite addr data) s = .next s

/-- R39: PARAM_K and PARAM_BLOCK_BYTES ignore writes and read the parameters untruncated; STATUS and the
telemetry registers ignore writes too (10_state.md R36, R40). -/
def Obligations.ReadOnlyRegistersIgnoreWrites : Prop :=
  ∀ (s : State) (addr : Byte) (data : Word),
    (addr = 0x04#8 ∨ addr = 0x18#8 ∨ addr = 0x1C#8 ∨ (0x20 ≤ addr.toNat ∧ addr.toNat ≤ 0x50)) →
    exec (.regWrite addr data) s = .next s ∧
    (∃ w, exec (.regRead 0x18#8) s = .next { s with outputs := s.outputs ++ [.word w] } ∧
      w.toNat = s.cfg.k) ∧
    ∃ w, exec (.regRead 0x1C#8) s = .next { s with outputs := s.outputs ++ [.word w] } ∧
      w.toNat = s.cfg.blockBytes

/-- R35: a write of CTRL starts when stopped and RUN is 1, stops when running and RUN is 0, and then clears
the counters when CLR_CNT is 1; its other bits are ignored and it reads back RUN only. -/
def Obligations.CtrlWriteStartsStopsAndClears : Prop :=
  ∀ (s : State) (data : Word),
    ∃ t u, exec (.regWrite 0x00#8 data) s = .next u ∧
      (data.getLsbD 0 = true → s.run = false → exec .start s = .next t) ∧
      (data.getLsbD 0 = false → s.run = true → exec .stop s = .next t) ∧
      (data.getLsbD 0 = s.run → t = s) ∧
      (data.getLsbD 1 = true → exec .clearCounters t = .next u) ∧
      (data.getLsbD 1 = false → u = t) ∧
      u.run = data.getLsbD 0 ∧
      exec (.regRead 0x00#8) u =
        .next { u with outputs := u.outputs ++ [.word (if data.getLsbD 0 then 1#32 else 0#32)] }

/-- 10_state.md R37: a write of EVT_STATUS clears the event bits written as 1 and no other; a write of
EVT_ENABLE takes bits 9:0; neither changes anything else. -/
def Obligations.EventRegisterWrites : Prop :=
  ∀ (s : State) (data : Word),
    (∃ w, exec (.regWrite 0x08#8 data) s = .next { s with evtStatus := w } ∧
      ∀ n, w.getLsbD n = (s.evtStatus.getLsbD n && !(decide (n < 10) && data.getLsbD n))) ∧
    ∃ w, exec (.regWrite 0x0C#8 data) s = .next { s with evtEnable := w } ∧
      ∀ n, w.getLsbD n = (decide (n < 10) && data.getLsbD n)

/-- R38: CFG_RING_SIZE takes a power of two from 1 to P_RING_MAX and CFG_JB_DEPTH a value from 1 to P_JB_MAX,
both only while stopped; every other write leaves them unchanged; RESET puts P_RING_RESET and
P_JB_RESET there. -/
def Obligations.ConfigurationWritesAreWarl : Prop :=
  ∀ (s : State) (data : Word),
    ((s.run = false ∧ (∃ r, data.toNat = 2 ^ r) ∧ data.toNat ≤ s.cfg.ringMax) →
      exec (.regWrite 0x10#8 data) s = .next { s with cfgRingSize := data }) ∧
    (¬ (s.run = false ∧ (∃ r, data.toNat = 2 ^ r) ∧ data.toNat ≤ s.cfg.ringMax) →
      exec (.regWrite 0x10#8 data) s = .next s) ∧
    ((s.run = false ∧ 1 ≤ data.toNat ∧ data.toNat ≤ s.cfg.jbMax) →
      exec (.regWrite 0x14#8 data) s = .next { s with cfgJbDepth := data }) ∧
    (¬ (s.run = false ∧ 1 ≤ data.toNat ∧ data.toNat ≤ s.cfg.jbMax) →
      exec (.regWrite 0x14#8 data) s = .next s) ∧
    ∃ t, exec .reset s = .next t ∧ t.cfgRingSize.toNat = s.cfg.ringReset ∧
      t.cfgJbDepth.toNat = s.cfg.jbReset

/-- R131, R132, R133: START sets run; STOP of a running block empties the ring, the Transfer Queue and the
jitter buffer and keeps counters, descriptor, events and configuration; STOP of a stopped block does
nothing; CLEAR_COUNTERS zeroes the six counters. -/
def Obligations.StartStopAndClearCounters : Prop :=
  ∀ (s : State),
    exec .start s = .next { s with run := true } ∧
    (s.run = false → exec .stop s = .next s) ∧
    (s.run = true → exec .stop s = .next { s with
      run := false, ring := List.replicate s.cfg.ringMax none, tq := [], jb := [], cursor := ⟨1, 0⟩ }) ∧
    exec .clearCounters s = .next { s with
      correctableErrors := 0#32, uncorrectableErrors := 0#32, readSamplesCount := 0#32
      malformedCount := 0#32, tqDropCount := 0#32, jbDropCount := 0#32 }

/-- R42, R148: RESET puts every component at its reset value and leaves the output log; RESET twice is RESET
once. -/
def Obligations.ResetRestoresTheResetTable : Prop :=
  ∀ (s : State), ∃ t, exec .reset s = .next t ∧
    t = { s with
      ring := List.replicate s.cfg.ringMax none, tq := [], cachedMeta := none
      correctableErrors := 0#32, uncorrectableErrors := 0#32, jb := [], cursor := ⟨1, 0⟩
      readSamplesCount := 0#32, malformedCount := 0#32, tqDropCount := 0#32, jbDropCount := 0#32
      run := false, evtStatus := 0#32, evtEnable := 0#32
      cfgRingSize := BitVec.ofNat 32 s.cfg.ringReset, cfgJbDepth := BitVec.ofNat 32 s.cfg.jbReset } ∧
    exec .reset t = .next t

/-- 70_reset_and_hazards.md sections 1 and 2 (R148, R149): the machine after reset is stopped, masked and
empty; its STATUS reads 8. That it has the profile TP is log 2. -/
def Obligations.ResetStateIsStoppedAndEmpty : Prop :=
  State.reset.run = false ∧ State.reset.evtStatus = 0#32 ∧ State.reset.evtEnable = 0#32 ∧
  State.reset.tq = [] ∧ State.reset.jb = [] ∧ State.reset.cachedMeta = none ∧
  State.reset.ring.length = State.reset.cfg.ringMax ∧ (∀ o ∈ State.reset.ring, o = none) ∧
  exec (.regRead 0x04#8) State.reset = .next { State.reset with outputs := [.word 8#32] }

/-! ### Whole-machine rules -/

/-- 60_exceptions.md sections 1 and 4 (R134, R141): no operation ends in a fault or a refusal. That the
parameters, the ports and the turns are fields of State, changed by none, is the model's choice
(log 1, log 6). -/
def Obligations.EveryOperationCompletes : Prop :=
  ∀ (s : State) (i : Instr), ∃ t, exec i s = .next t ∧ t.cfg = s.cfg ∧ t.ports = s.ports ∧ t.sched = s.sched

/-- 10_state.md section 8 (R32), 60_exceptions.md R136: an operation adds its events at the end of the log and
takes none away, RESET included; there are at most four of them, those of REC_PROCESS
(60_exceptions.md R138, 42_fec_recovery.md R107). The values returned only grow too, by at most one:
that they stand in a log, which RESET leaves, is the model's choice (log 7). -/
def Obligations.LogsOnlyGrow : Prop :=
  ∀ (s t : State) (i : Instr), exec i s = .next t →
    (∃ es, t.events = s.events ++ es ∧ es.length ≤ 4) ∧ ∃ os, t.outputs = s.outputs ++ os ∧ os.length ≤ 1

/-- 10_state.md sections 4 to 9 (R26 to R31, R37, R38): who writes what. -/
def Obligations.StateIsWrittenOnlyByItsOwners : Prop :=
  ∀ (s t : State) (i : Instr), exec i s = .next t →
    (t.ring ≠ s.ring → (∃ dg, i = .ingest dg) ∨ i = .stop ∨ i = .reset ∨ ∃ d, i = .regWrite 0x00#8 d) ∧
    (t.tq ≠ s.tq → (∃ dg, i = .ingest dg) ∨ (∃ fr, i = .tqPush fr) ∨ i = .tqPop ∨ i = .tqClear ∨ i = .recProcess ∨
      i = .stop ∨ i = .reset ∨ ∃ d, i = .regWrite 0x00#8 d) ∧
    (t.jb ≠ s.jb ∨ t.cursor ≠ s.cursor → i = .recProcess ∨ (∃ e, i = .jbPush e) ∨ i = .readSampleRx ∨
      i = .readSampleTx ∨ i = .stop ∨ i = .reset ∨ ∃ d, i = .regWrite 0x00#8 d) ∧
    (t.malformedCount ≠ s.malformedCount → (∃ dg, i = .ingest dg) ∨ i = .clearCounters ∨ i = .reset ∨
      ∃ d, i = .regWrite 0x00#8 d) ∧
    (t.tqDropCount ≠ s.tqDropCount → (∃ dg, i = .ingest dg) ∨ (∃ fr, i = .tqPush fr) ∨ i = .clearCounters ∨
      i = .reset ∨ ∃ d, i = .regWrite 0x00#8 d) ∧
    (t.jbDropCount ≠ s.jbDropCount → i = .recProcess ∨ (∃ e, i = .jbPush e) ∨ i = .clearCounters ∨ i = .reset ∨
      ∃ d, i = .regWrite 0x00#8 d) ∧
    (t.cachedMeta ≠ s.cachedMeta → i = .recProcess ∨ (∃ fr, i = .metaValidate fr) ∨ i = .reset) ∧
    (t.correctableErrors ≠ s.correctableErrors ∨ t.uncorrectableErrors ≠ s.uncorrectableErrors →
      i = .recProcess ∨ i = .clearCounters ∨ i = .reset ∨ ∃ d, i = .regWrite 0x00#8 d) ∧
    (t.readSamplesCount ≠ s.readSamplesCount →
      i = .readSampleRx ∨ i = .readSampleTx ∨ i = .clearCounters ∨ i = .reset ∨ ∃ d, i = .regWrite 0x00#8 d) ∧
    (t.evtEnable ≠ s.evtEnable → i = .reset ∨ ∃ d, i = .regWrite 0x0C#8 d) ∧
    (t.cfgRingSize ≠ s.cfgRingSize → i = .reset ∨ (s.run = false ∧ ∃ d, i = .regWrite 0x10#8 d)) ∧
    (t.cfgJbDepth ≠ s.cfgJbDepth → i = .reset ∨ (s.run = false ∧ ∃ d, i = .regWrite 0x14#8 d)) ∧
    (t.run ≠ s.run → i = .start ∨ i = .stop ∨ i = .reset ∨ ∃ d, i = .regWrite 0x00#8 d)

/-- 10_state.md section 9 (R37), 60_exceptions.md R136: an EVT_STATUS bit is cleared only by a host write of 1
to it or by RESET, and set only with an event of that number in the log; every event that joins the log
leaves its bit set. -/
def Obligations.StatusBitsFollowEvents : Prop :=
  ∀ (s t : State) (i : Instr), exec i s = .next t →
    (∀ n,
      (s.evtStatus.getLsbD n = true → t.evtStatus.getLsbD n = false →
        i = .reset ∨ ∃ d, i = .regWrite 0x08#8 d ∧ d.getLsbD n = true ∧ n < 10) ∧
      (s.evtStatus.getLsbD n = false → t.evtStatus.getLsbD n = true →
        ∃ e es, t.events = s.events ++ es ∧ e ∈ es ∧ eventCode e = n + 1)) ∧
    ∀ es, t.events = s.events ++ es → ∀ e ∈ es,
      1 ≤ eventCode e ∧ t.evtStatus.getLsbD (eventCode e - 1) = true

/-- The canonical form of the frame store is kept by every step, whatever operation is presented. -/
def Obligations.StoreFormIsKeptByEveryStep : Prop :=
  ∀ (s t : State), s.StoreOk → step s = .next t → t.StoreOk

/-- The invariant holds after reset, for every choice of the parameters. -/
def Obligations.InvariantHoldsAfterReset : Prop :=
  (∀ c, (State.init c).Inv) ∧ State.reset.Inv

/-- The invariant of the block is kept by every step in which an agent performs an operation of its own
(or none): ring slots hold the frames that belong there with `metaRetrieved = blocks[0].present`
and `blockCount = originalCount + recoveryCount`, the queues stay within their bounds, the cursor on a
sample of the head frame, the configuration registers legal, the reserved event bits 0, and a stopped
block empty (10_state.md R25 to R30, R37, R38; 40_reassembler.md R87; 45_host_interface.md R131). -/
def Obligations.InvariantIsKeptByEveryStep : Prop :=
  ∀ (s t : State), s.Inv → (∀ i u, fetch s = .perform i u → i.presented = true) →
    step s = .next t → t.Inv
end

