-- ==== Sys2Proof/Laws/State.lean ====
section
/-! SUPPORT. One lemma per field for each named update of the state, so that no proof unfolds a record
update. -/

namespace Sys2Proof.Machine

/-! ### `raise` -/

@[simp] theorem raise_cfg (e : Event) (s : State) :
    (raise e s).cfg = s.cfg := rfl
@[simp] theorem raise_ring (e : Event) (s : State) :
    (raise e s).ring = s.ring := rfl
@[simp] theorem raise_tq (e : Event) (s : State) :
    (raise e s).tq = s.tq := rfl
@[simp] theorem raise_cachedMeta (e : Event) (s : State) :
    (raise e s).cachedMeta = s.cachedMeta := rfl
@[simp] theorem raise_correctableErrors (e : Event) (s : State) :
    (raise e s).correctableErrors = s.correctableErrors := rfl
@[simp] theorem raise_uncorrectableErrors (e : Event) (s : State) :
    (raise e s).uncorrectableErrors = s.uncorrectableErrors := rfl
@[simp] theorem raise_jb (e : Event) (s : State) :
    (raise e s).jb = s.jb := rfl
@[simp] theorem raise_cursor (e : Event) (s : State) :
    (raise e s).cursor = s.cursor := rfl
@[simp] theorem raise_readSamplesCount (e : Event) (s : State) :
    (raise e s).readSamplesCount = s.readSamplesCount := rfl
@[simp] theorem raise_malformedCount (e : Event) (s : State) :
    (raise e s).malformedCount = s.malformedCount := rfl
@[simp] theorem raise_tqDropCount (e : Event) (s : State) :
    (raise e s).tqDropCount = s.tqDropCount := rfl
@[simp] theorem raise_jbDropCount (e : Event) (s : State) :
    (raise e s).jbDropCount = s.jbDropCount := rfl
@[simp] theorem raise_run (e : Event) (s : State) :
    (raise e s).run = s.run := rfl
@[simp] theorem raise_evtStatus (e : Event) (s : State) :
    (raise e s).evtStatus = s.evtStatus ||| eventBit e := rfl
@[simp] theorem raise_evtEnable (e : Event) (s : State) :
    (raise e s).evtEnable = s.evtEnable := rfl
@[simp] theorem raise_cfgRingSize (e : Event) (s : State) :
    (raise e s).cfgRingSize = s.cfgRingSize := rfl
@[simp] theorem raise_cfgJbDepth (e : Event) (s : State) :
    (raise e s).cfgJbDepth = s.cfgJbDepth := rfl
@[simp] theorem raise_events (e : Event) (s : State) :
    (raise e s).events = s.events ++ [e] := rfl
@[simp] theorem raise_outputs (e : Event) (s : State) :
    (raise e s).outputs = s.outputs := rfl
@[simp] theorem raise_ports (e : Event) (s : State) :
    (raise e s).ports = s.ports := rfl
@[simp] theorem raise_sched (e : Event) (s : State) :
    (raise e s).sched = s.sched := rfl
@[simp] theorem raise_telSeen (e : Event) (s : State) :
    (raise e s).telSeen = s.telSeen := rfl
@[simp] theorem raise_telDraws (e : Event) (s : State) :
    (raise e s).telDraws = s.telDraws := rfl

/-! ### `emit` -/

@[simp] theorem emit_cfg (o : Output) (s : State) :
    (emit o s).cfg = s.cfg := rfl
@[simp] theorem emit_ring (o : Output) (s : State) :
    (emit o s).ring = s.ring := rfl
@[simp] theorem emit_tq (o : Output) (s : State) :
    (emit o s).tq = s.tq := rfl
@[simp] theorem emit_cachedMeta (o : Output) (s : State) :
    (emit o s).cachedMeta = s.cachedMeta := rfl
@[simp] theorem emit_correctableErrors (o : Output) (s : State) :
    (emit o s).correctableErrors = s.correctableErrors := rfl
@[simp] theorem emit_uncorrectableErrors (o : Output) (s : State) :
    (emit o s).uncorrectableErrors = s.uncorrectableErrors := rfl
@[simp] theorem emit_jb (o : Output) (s : State) :
    (emit o s).jb = s.jb := rfl
@[simp] theorem emit_cursor (o : Output) (s : State) :
    (emit o s).cursor = s.cursor := rfl
@[simp] theorem emit_readSamplesCount (o : Output) (s : State) :
    (emit o s).readSamplesCount = s.readSamplesCount := rfl
@[simp] theorem emit_malformedCount (o : Output) (s : State) :
    (emit o s).malformedCount = s.malformedCount := rfl
@[simp] theorem emit_tqDropCount (o : Output) (s : State) :
    (emit o s).tqDropCount = s.tqDropCount := rfl
@[simp] theorem emit_jbDropCount (o : Output) (s : State) :
    (emit o s).jbDropCount = s.jbDropCount := rfl
@[simp] theorem emit_run (o : Output) (s : State) :
    (emit o s).run = s.run := rfl
@[simp] theorem emit_evtStatus (o : Output) (s : State) :
    (emit o s).evtStatus = s.evtStatus := rfl
@[simp] theorem emit_evtEnable (o : Output) (s : State) :
    (emit o s).evtEnable = s.evtEnable := rfl
@[simp] theorem emit_cfgRingSize (o : Output) (s : State) :
    (emit o s).cfgRingSize = s.cfgRingSize := rfl
@[simp] theorem emit_cfgJbDepth (o : Output) (s : State) :
    (emit o s).cfgJbDepth = s.cfgJbDepth := rfl
@[simp] theorem emit_events (o : Output) (s : State) :
    (emit o s).events = s.events := rfl
@[simp] theorem emit_outputs (o : Output) (s : State) :
    (emit o s).outputs = s.outputs ++ [o] := rfl
@[simp] theorem emit_ports (o : Output) (s : State) :
    (emit o s).ports = s.ports := rfl
@[simp] theorem emit_sched (o : Output) (s : State) :
    (emit o s).sched = s.sched := rfl
@[simp] theorem emit_telSeen (o : Output) (s : State) :
    (emit o s).telSeen = s.telSeen := rfl
@[simp] theorem emit_telDraws (o : Output) (s : State) :
    (emit o s).telDraws = s.telDraws := rfl

/-! ### `acknowledge` -/

@[simp] theorem acknowledge_cfg (d : Word) (s : State) :
    (acknowledge d s).cfg = s.cfg := rfl
@[simp] theorem acknowledge_ring (d : Word) (s : State) :
    (acknowledge d s).ring = s.ring := rfl
@[simp] theorem acknowledge_tq (d : Word) (s : State) :
    (acknowledge d s).tq = s.tq := rfl
@[simp] theorem acknowledge_cachedMeta (d : Word) (s : State) :
    (acknowledge d s).cachedMeta = s.cachedMeta := rfl
@[simp] theorem acknowledge_correctableErrors (d : Word) (s : State) :
    (acknowledge d s).correctableErrors = s.correctableErrors := rfl
@[simp] theorem acknowledge_uncorrectableErrors (d : Word) (s : State) :
    (acknowledge d s).uncorrectableErrors = s.uncorrectableErrors := rfl
@[simp] theorem acknowledge_jb (d : Word) (s : State) :
    (acknowledge d s).jb = s.jb := rfl
@[simp] theorem acknowledge_cursor (d : Word) (s : State) :
    (acknowledge d s).cursor = s.cursor := rfl
@[simp] theorem acknowledge_readSamplesCount (d : Word) (s : State) :
    (acknowledge d s).readSamplesCount = s.readSamplesCount := rfl
@[simp] theorem acknowledge_malformedCount (d : Word) (s : State) :
    (acknowledge d s).malformedCount = s.malformedCount := rfl
@[simp] theorem acknowledge_tqDropCount (d : Word) (s : State) :
    (acknowledge d s).tqDropCount = s.tqDropCount := rfl
@[simp] theorem acknowledge_jbDropCount (d : Word) (s : State) :
    (acknowledge d s).jbDropCount = s.jbDropCount := rfl
@[simp] theorem acknowledge_run (d : Word) (s : State) :
    (acknowledge d s).run = s.run := rfl
@[simp] theorem acknowledge_evtStatus (d : Word) (s : State) :
    (acknowledge d s).evtStatus = s.evtStatus &&& ~~~(d &&& eventMask) := rfl
@[simp] theorem acknowledge_evtEnable (d : Word) (s : State) :
    (acknowledge d s).evtEnable = s.evtEnable := rfl
@[simp] theorem acknowledge_cfgRingSize (d : Word) (s : State) :
    (acknowledge d s).cfgRingSize = s.cfgRingSize := rfl
@[simp] theorem acknowledge_cfgJbDepth (d : Word) (s : State) :
    (acknowledge d s).cfgJbDepth = s.cfgJbDepth := rfl
@[simp] theorem acknowledge_events (d : Word) (s : State) :
    (acknowledge d s).events = s.events := rfl
@[simp] theorem acknowledge_outputs (d : Word) (s : State) :
    (acknowledge d s).outputs = s.outputs := rfl
@[simp] theorem acknowledge_ports (d : Word) (s : State) :
    (acknowledge d s).ports = s.ports := rfl
@[simp] theorem acknowledge_sched (d : Word) (s : State) :
    (acknowledge d s).sched = s.sched := rfl
@[simp] theorem acknowledge_telSeen (d : Word) (s : State) :
    (acknowledge d s).telSeen = s.telSeen := rfl
@[simp] theorem acknowledge_telDraws (d : Word) (s : State) :
    (acknowledge d s).telDraws = s.telDraws := rfl

/-! ### `observe` -/

@[simp] theorem observe_cfg (s : State) :
    (observe s).cfg = s.cfg := rfl
@[simp] theorem observe_ring (s : State) :
    (observe s).ring = s.ring := rfl
@[simp] theorem observe_tq (s : State) :
    (observe s).tq = s.tq := rfl
@[simp] theorem observe_cachedMeta (s : State) :
    (observe s).cachedMeta = s.cachedMeta := rfl
@[simp] theorem observe_correctableErrors (s : State) :
    (observe s).correctableErrors = s.correctableErrors := rfl
@[simp] theorem observe_uncorrectableErrors (s : State) :
    (observe s).uncorrectableErrors = s.uncorrectableErrors := rfl
@[simp] theorem observe_jb (s : State) :
    (observe s).jb = s.jb := rfl
@[simp] theorem observe_cursor (s : State) :
    (observe s).cursor = s.cursor := rfl
@[simp] theorem observe_readSamplesCount (s : State) :
    (observe s).readSamplesCount = s.readSamplesCount := rfl
@[simp] theorem observe_malformedCount (s : State) :
    (observe s).malformedCount = s.malformedCount := rfl
@[simp] theorem observe_tqDropCount (s : State) :
    (observe s).tqDropCount = s.tqDropCount := rfl
@[simp] theorem observe_jbDropCount (s : State) :
    (observe s).jbDropCount = s.jbDropCount := rfl
@[simp] theorem observe_run (s : State) :
    (observe s).run = s.run := rfl
@[simp] theorem observe_evtStatus (s : State) :
    (observe s).evtStatus = s.evtStatus := rfl
@[simp] theorem observe_evtEnable (s : State) :
    (observe s).evtEnable = s.evtEnable := rfl
@[simp] theorem observe_cfgRingSize (s : State) :
    (observe s).cfgRingSize = s.cfgRingSize := rfl
@[simp] theorem observe_cfgJbDepth (s : State) :
    (observe s).cfgJbDepth = s.cfgJbDepth := rfl
@[simp] theorem observe_events (s : State) :
    (observe s).events = s.events := rfl
@[simp] theorem observe_outputs (s : State) :
    (observe s).outputs = s.outputs := rfl
@[simp] theorem observe_ports (s : State) :
    (observe s).ports = s.ports := rfl
@[simp] theorem observe_sched (s : State) :
    (observe s).sched = s.sched := rfl
@[simp] theorem observe_telSeen (s : State) :
    (observe s).telSeen = List.zipWith (fun t seen => noteValue (telemetryNow s t) seen) allTelemetry s.telSeen := rfl
@[simp] theorem observe_telDraws (s : State) :
    (observe s).telDraws = s.telDraws := rfl

/-! ### `noteRead` -/

@[simp] theorem noteRead_cfg (t : Telemetry) (s : State) :
    (noteRead t s).cfg = s.cfg := rfl
@[simp] theorem noteRead_ring (t : Telemetry) (s : State) :
    (noteRead t s).ring = s.ring := rfl
@[simp] theorem noteRead_tq (t : Telemetry) (s : State) :
    (noteRead t s).tq = s.tq := rfl
@[simp] theorem noteRead_cachedMeta (t : Telemetry) (s : State) :
    (noteRead t s).cachedMeta = s.cachedMeta := rfl
@[simp] theorem noteRead_correctableErrors (t : Telemetry) (s : State) :
    (noteRead t s).correctableErrors = s.correctableErrors := rfl
@[simp] theorem noteRead_uncorrectableErrors (t : Telemetry) (s : State) :
    (noteRead t s).uncorrectableErrors = s.uncorrectableErrors := rfl
@[simp] theorem noteRead_jb (t : Telemetry) (s : State) :
    (noteRead t s).jb = s.jb := rfl
@[simp] theorem noteRead_cursor (t : Telemetry) (s : State) :
    (noteRead t s).cursor = s.cursor := rfl
@[simp] theorem noteRead_readSamplesCount (t : Telemetry) (s : State) :
    (noteRead t s).readSamplesCount = s.readSamplesCount := rfl
@[simp] theorem noteRead_malformedCount (t : Telemetry) (s : State) :
    (noteRead t s).malformedCount = s.malformedCount := rfl
@[simp] theorem noteRead_tqDropCount (t : Telemetry) (s : State) :
    (noteRead t s).tqDropCount = s.tqDropCount := rfl
@[simp] theorem noteRead_jbDropCount (t : Telemetry) (s : State) :
    (noteRead t s).jbDropCount = s.jbDropCount := rfl
@[simp] theorem noteRead_run (t : Telemetry) (s : State) :
    (noteRead t s).run = s.run := rfl
@[simp] theorem noteRead_evtStatus (t : Telemetry) (s : State) :
    (noteRead t s).evtStatus = s.evtStatus := rfl
@[simp] theorem noteRead_evtEnable (t : Telemetry) (s : State) :
    (noteRead t s).evtEnable = s.evtEnable := rfl
@[simp] theorem noteRead_cfgRingSize (t : Telemetry) (s : State) :
    (noteRead t s).cfgRingSize = s.cfgRingSize := rfl
@[simp] theorem noteRead_cfgJbDepth (t : Telemetry) (s : State) :
    (noteRead t s).cfgJbDepth = s.cfgJbDepth := rfl
@[simp] theorem noteRead_events (t : Telemetry) (s : State) :
    (noteRead t s).events = s.events := rfl
@[simp] theorem noteRead_outputs (t : Telemetry) (s : State) :
    (noteRead t s).outputs = s.outputs := rfl
@[simp] theorem noteRead_ports (t : Telemetry) (s : State) :
    (noteRead t s).ports = s.ports := rfl
@[simp] theorem noteRead_sched (t : Telemetry) (s : State) :
    (noteRead t s).sched = s.sched := rfl
@[simp] theorem noteRead_telSeen (t : Telemetry) (s : State) :
    (noteRead t s).telSeen = s.telSeen.set (telemetryIndex t) [telemetryNow s t] := rfl
@[simp] theorem noteRead_telDraws (t : Telemetry) (s : State) :
    (noteRead t s).telDraws = s.telDraws.tail := rfl

/-! ### `endTurn` -/

@[simp] theorem endTurn_cfg (s : State) :
    (endTurn s).cfg = s.cfg := rfl
@[simp] theorem endTurn_ring (s : State) :
    (endTurn s).ring = s.ring := rfl
@[simp] theorem endTurn_tq (s : State) :
    (endTurn s).tq = s.tq := rfl
@[simp] theorem endTurn_cachedMeta (s : State) :
    (endTurn s).cachedMeta = s.cachedMeta := rfl
@[simp] theorem endTurn_correctableErrors (s : State) :
    (endTurn s).correctableErrors = s.correctableErrors := rfl
@[simp] theorem endTurn_uncorrectableErrors (s : State) :
    (endTurn s).uncorrectableErrors = s.uncorrectableErrors := rfl
@[simp] theorem endTurn_jb (s : State) :
    (endTurn s).jb = s.jb := rfl
@[simp] theorem endTurn_cursor (s : State) :
    (endTurn s).cursor = s.cursor := rfl
@[simp] theorem endTurn_readSamplesCount (s : State) :
    (endTurn s).readSamplesCount = s.readSamplesCount := rfl
@[simp] theorem endTurn_malformedCount (s : State) :
    (endTurn s).malformedCount = s.malformedCount := rfl
@[simp] theorem endTurn_tqDropCount (s : State) :
    (endTurn s).tqDropCount = s.tqDropCount := rfl
@[simp] theorem endTurn_jbDropCount (s : State) :
    (endTurn s).jbDropCount = s.jbDropCount := rfl
@[simp] theorem endTurn_run (s : State) :
    (endTurn s).run = s.run := rfl
@[simp] theorem endTurn_evtStatus (s : State) :
    (endTurn s).evtStatus = s.evtStatus := rfl
@[simp] theorem endTurn_evtEnable (s : State) :
    (endTurn s).evtEnable = s.evtEnable := rfl
@[simp] theorem endTurn_cfgRingSize (s : State) :
    (endTurn s).cfgRingSize = s.cfgRingSize := rfl
@[simp] theorem endTurn_cfgJbDepth (s : State) :
    (endTurn s).cfgJbDepth = s.cfgJbDepth := rfl
@[simp] theorem endTurn_events (s : State) :
    (endTurn s).events = s.events := rfl
@[simp] theorem endTurn_outputs (s : State) :
    (endTurn s).outputs = s.outputs := rfl
@[simp] theorem endTurn_ports (s : State) :
    (endTurn s).ports = s.ports := rfl
@[simp] theorem endTurn_sched (s : State) :
    (endTurn s).sched = s.sched.tail := rfl
@[simp] theorem endTurn_telSeen (s : State) :
    (endTurn s).telSeen = s.telSeen := rfl
@[simp] theorem endTurn_telDraws (s : State) :
    (endTurn s).telDraws = s.telDraws := rfl

/-! ### `setRing` -/

@[simp] theorem setRing_cfg (k : Nat) (fr : Frame) (s : State) :
    (setRing k fr s).cfg = s.cfg := rfl
@[simp] theorem setRing_ring (k : Nat) (fr : Frame) (s : State) :
    (setRing k fr s).ring = s.ring.set k (some fr) := rfl
@[simp] theorem setRing_tq (k : Nat) (fr : Frame) (s : State) :
    (setRing k fr s).tq = s.tq := rfl
@[simp] theorem setRing_cachedMeta (k : Nat) (fr : Frame) (s : State) :
    (setRing k fr s).cachedMeta = s.cachedMeta := rfl
@[simp] theorem setRing_correctableErrors (k : Nat) (fr : Frame) (s : State) :
    (setRing k fr s).correctableErrors = s.correctableErrors := rfl
@[simp] theorem setRing_uncorrectableErrors (k : Nat) (fr : Frame) (s : State) :
    (setRing k fr s).uncorrectableErrors = s.uncorrectableErrors := rfl
@[simp] theorem setRing_jb (k : Nat) (fr : Frame) (s : State) :
    (setRing k fr s).jb = s.jb := rfl
@[simp] theorem setRing_cursor (k : Nat) (fr : Frame) (s : State) :
    (setRing k fr s).cursor = s.cursor := rfl
@[simp] theorem setRing_readSamplesCount (k : Nat) (fr : Frame) (s : State) :
    (setRing k fr s).readSamplesCount = s.readSamplesCount := rfl
@[simp] theorem setRing_malformedCount (k : Nat) (fr : Frame) (s : State) :
    (setRing k fr s).malformedCount = s.malformedCount := rfl
@[simp] theorem setRing_tqDropCount (k : Nat) (fr : Frame) (s : State) :
    (setRing k fr s).tqDropCount = s.tqDropCount := rfl
@[simp] theorem setRing_jbDropCount (k : Nat) (fr : Frame) (s : State) :
    (setRing k fr s).jbDropCount = s.jbDropCount := rfl
@[simp] theorem setRing_run (k : Nat) (fr : Frame) (s : State) :
    (setRing k fr s).run = s.run := rfl
@[simp] theorem setRing_evtStatus (k : Nat) (fr : Frame) (s : State) :
    (setRing k fr s).evtStatus = s.evtStatus := rfl
@[simp] theorem setRing_evtEnable (k : Nat) (fr : Frame) (s : State) :
    (setRing k fr s).evtEnable = s.evtEnable := rfl
@[simp] theorem setRing_cfgRingSize (k : Nat) (fr : Frame) (s : State) :
    (setRing k fr s).cfgRingSize = s.cfgRingSize := rfl
@[simp] theorem setRing_cfgJbDepth (k : Nat) (fr : Frame) (s : State) :
    (setRing k fr s).cfgJbDepth = s.cfgJbDepth := rfl
@[simp] theorem setRing_events (k : Nat) (fr : Frame) (s : State) :
    (setRing k fr s).events = s.events := rfl
@[simp] theorem setRing_outputs (k : Nat) (fr : Frame) (s : State) :
    (setRing k fr s).outputs = s.outputs := rfl
@[simp] theorem setRing_ports (k : Nat) (fr : Frame) (s : State) :
    (setRing k fr s).ports = s.ports := rfl
@[simp] theorem setRing_sched (k : Nat) (fr : Frame) (s : State) :
    (setRing k fr s).sched = s.sched := rfl
@[simp] theorem setRing_telSeen (k : Nat) (fr : Frame) (s : State) :
    (setRing k fr s).telSeen = s.telSeen := rfl
@[simp] theorem setRing_telDraws (k : Nat) (fr : Frame) (s : State) :
    (setRing k fr s).telDraws = s.telDraws := rfl

/-! ### `tqClear` -/

@[simp] theorem tqClear_cfg (s : State) :
    (tqClear s).cfg = s.cfg := rfl
@[simp] theorem tqClear_ring (s : State) :
    (tqClear s).ring = s.ring := rfl
@[simp] theorem tqClear_tq (s : State) :
    (tqClear s).tq = [] := rfl
@[simp] theorem tqClear_cachedMeta (s : State) :
    (tqClear s).cachedMeta = s.cachedMeta := rfl
@[simp] theorem tqClear_correctableErrors (s : State) :
    (tqClear s).correctableErrors = s.correctableErrors := rfl
@[simp] theorem tqClear_uncorrectableErrors (s : State) :
    (tqClear s).uncorrectableErrors = s.uncorrectableErrors := rfl
@[simp] theorem tqClear_jb (s : State) :
    (tqClear s).jb = s.jb := rfl
@[simp] theorem tqClear_cursor (s : State) :
    (tqClear s).cursor = s.cursor := rfl
@[simp] theorem tqClear_readSamplesCount (s : State) :
    (tqClear s).readSamplesCount = s.readSamplesCount := rfl
@[simp] theorem tqClear_malformedCount (s : State) :
    (tqClear s).malformedCount = s.malformedCount := rfl
@[simp] theorem tqClear_tqDropCount (s : State) :
    (tqClear s).tqDropCount = s.tqDropCount := rfl
@[simp] theorem tqClear_jbDropCount (s : State) :
    (tqClear s).jbDropCount = s.jbDropCount := rfl
@[simp] theorem tqClear_run (s : State) :
    (tqClear s).run = s.run := rfl
@[simp] theorem tqClear_evtStatus (s : State) :
    (tqClear s).evtStatus = s.evtStatus := rfl
@[simp] theorem tqClear_evtEnable (s : State) :
    (tqClear s).evtEnable = s.evtEnable := rfl
@[simp] theorem tqClear_cfgRingSize (s : State) :
    (tqClear s).cfgRingSize = s.cfgRingSize := rfl
@[simp] theorem tqClear_cfgJbDepth (s : State) :
    (tqClear s).cfgJbDepth = s.cfgJbDepth := rfl
@[simp] theorem tqClear_events (s : State) :
    (tqClear s).events = s.events := rfl
@[simp] theorem tqClear_outputs (s : State) :
    (tqClear s).outputs = s.outputs := rfl
@[simp] theorem tqClear_ports (s : State) :
    (tqClear s).ports = s.ports := rfl
@[simp] theorem tqClear_sched (s : State) :
    (tqClear s).sched = s.sched := rfl
@[simp] theorem tqClear_telSeen (s : State) :
    (tqClear s).telSeen = s.telSeen := rfl
@[simp] theorem tqClear_telDraws (s : State) :
    (tqClear s).telDraws = s.telDraws := rfl

/-! ### `startReceiving` -/

@[simp] theorem startReceiving_cfg (s : State) :
    (startReceiving s).cfg = s.cfg := rfl
@[simp] theorem startReceiving_ring (s : State) :
    (startReceiving s).ring = s.ring := rfl
@[simp] theorem startReceiving_tq (s : State) :
    (startReceiving s).tq = s.tq := rfl
@[simp] theorem startReceiving_cachedMeta (s : State) :
    (startReceiving s).cachedMeta = s.cachedMeta := rfl
@[simp] theorem startReceiving_correctableErrors (s : State) :
    (startReceiving s).correctableErrors = s.correctableErrors := rfl
@[simp] theorem startReceiving_uncorrectableErrors (s : State) :
    (startReceiving s).uncorrectableErrors = s.uncorrectableErrors := rfl
@[simp] theorem startReceiving_jb (s : State) :
    (startReceiving s).jb = s.jb := rfl
@[simp] theorem startReceiving_cursor (s : State) :
    (startReceiving s).cursor = s.cursor := rfl
@[simp] theorem startReceiving_readSamplesCount (s : State) :
    (startReceiving s).readSamplesCount = s.readSamplesCount := rfl
@[simp] theorem startReceiving_malformedCount (s : State) :
    (startReceiving s).malformedCount = s.malformedCount := rfl
@[simp] theorem startReceiving_tqDropCount (s : State) :
    (startReceiving s).tqDropCount = s.tqDropCount := rfl
@[simp] theorem startReceiving_jbDropCount (s : State) :
    (startReceiving s).jbDropCount = s.jbDropCount := rfl
@[simp] theorem startReceiving_run (s : State) :
    (startReceiving s).run = true := rfl
@[simp] theorem startReceiving_evtStatus (s : State) :
    (startReceiving s).evtStatus = s.evtStatus := rfl
@[simp] theorem startReceiving_evtEnable (s : State) :
    (startReceiving s).evtEnable = s.evtEnable := rfl
@[simp] theorem startReceiving_cfgRingSize (s : State) :
    (startReceiving s).cfgRingSize = s.cfgRingSize := rfl
@[simp] theorem startReceiving_cfgJbDepth (s : State) :
    (startReceiving s).cfgJbDepth = s.cfgJbDepth := rfl
@[simp] theorem startReceiving_events (s : State) :
    (startReceiving s).events = s.events := rfl
@[simp] theorem startReceiving_outputs (s : State) :
    (startReceiving s).outputs = s.outputs := rfl
@[simp] theorem startReceiving_ports (s : State) :
    (startReceiving s).ports = s.ports := rfl
@[simp] theorem startReceiving_sched (s : State) :
    (startReceiving s).sched = s.sched := rfl
@[simp] theorem startReceiving_telSeen (s : State) :
    (startReceiving s).telSeen = s.telSeen := rfl
@[simp] theorem startReceiving_telDraws (s : State) :
    (startReceiving s).telDraws = s.telDraws := rfl

/-! ### `clearCounters` -/

@[simp] theorem clearCounters_cfg (s : State) :
    (clearCounters s).cfg = s.cfg := rfl
@[simp] theorem clearCounters_ring (s : State) :
    (clearCounters s).ring = s.ring := rfl
@[simp] theorem clearCounters_tq (s : State) :
    (clearCounters s).tq = s.tq := rfl
@[simp] theorem clearCounters_cachedMeta (s : State) :
    (clearCounters s).cachedMeta = s.cachedMeta := rfl
@[simp] theorem clearCounters_correctableErrors (s : State) :
    (clearCounters s).correctableErrors = 0#32 := rfl
@[simp] theorem clearCounters_uncorrectableErrors (s : State) :
    (clearCounters s).uncorrectableErrors = 0#32 := rfl
@[simp] theorem clearCounters_jb (s : State) :
    (clearCounters s).jb = s.jb := rfl
@[simp] theorem clearCounters_cursor (s : State) :
    (clearCounters s).cursor = s.cursor := rfl
@[simp] theorem clearCounters_readSamplesCount (s : State) :
    (clearCounters s).readSamplesCount = 0#32 := rfl
@[simp] theorem clearCounters_malformedCount (s : State) :
    (clearCounters s).malformedCount = 0#32 := rfl
@[simp] theorem clearCounters_tqDropCount (s : State) :
    (clearCounters s).tqDropCount = 0#32 := rfl
@[simp] theorem clearCounters_jbDropCount (s : State) :
    (clearCounters s).jbDropCount = 0#32 := rfl
@[simp] theorem clearCounters_run (s : State) :
    (clearCounters s).run = s.run := rfl
@[simp] theorem clearCounters_evtStatus (s : State) :
    (clearCounters s).evtStatus = s.evtStatus := rfl
@[simp] theorem clearCounters_evtEnable (s : State) :
    (clearCounters s).evtEnable = s.evtEnable := rfl
@[simp] theorem clearCounters_cfgRingSize (s : State) :
    (clearCounters s).cfgRingSize = s.cfgRingSize := rfl
@[simp] theorem clearCounters_cfgJbDepth (s : State) :
    (clearCounters s).cfgJbDepth = s.cfgJbDepth := rfl
@[simp] theorem clearCounters_events (s : State) :
    (clearCounters s).events = s.events := rfl
@[simp] theorem clearCounters_outputs (s : State) :
    (clearCounters s).outputs = s.outputs := rfl
@[simp] theorem clearCounters_ports (s : State) :
    (clearCounters s).ports = s.ports := rfl
@[simp] theorem clearCounters_sched (s : State) :
    (clearCounters s).sched = s.sched := rfl
@[simp] theorem clearCounters_telSeen (s : State) :
    (clearCounters s).telSeen = s.telSeen := rfl
@[simp] theorem clearCounters_telDraws (s : State) :
    (clearCounters s).telDraws = s.telDraws := rfl

/-! ### `countLost` -/

@[simp] theorem countLost_cfg (fr : Frame) (n : Nat) (s : State) :
    (countLost fr n s).cfg = s.cfg := rfl
@[simp] theorem countLost_ring (fr : Frame) (n : Nat) (s : State) :
    (countLost fr n s).ring = s.ring := rfl
@[simp] theorem countLost_tq (fr : Frame) (n : Nat) (s : State) :
    (countLost fr n s).tq = s.tq := rfl
@[simp] theorem countLost_cachedMeta (fr : Frame) (n : Nat) (s : State) :
    (countLost fr n s).cachedMeta = s.cachedMeta := rfl
@[simp] theorem countLost_correctableErrors (fr : Frame) (n : Nat) (s : State) :
    (countLost fr n s).correctableErrors = s.correctableErrors := rfl
@[simp] theorem countLost_uncorrectableErrors (fr : Frame) (n : Nat) (s : State) :
    (countLost fr n s).uncorrectableErrors = s.uncorrectableErrors + BitVec.ofNat 32 n := rfl
@[simp] theorem countLost_jb (fr : Frame) (n : Nat) (s : State) :
    (countLost fr n s).jb = s.jb := rfl
@[simp] theorem countLost_cursor (fr : Frame) (n : Nat) (s : State) :
    (countLost fr n s).cursor = s.cursor := rfl
@[simp] theorem countLost_readSamplesCount (fr : Frame) (n : Nat) (s : State) :
    (countLost fr n s).readSamplesCount = s.readSamplesCount := rfl
@[simp] theorem countLost_malformedCount (fr : Frame) (n : Nat) (s : State) :
    (countLost fr n s).malformedCount = s.malformedCount := rfl
@[simp] theorem countLost_tqDropCount (fr : Frame) (n : Nat) (s : State) :
    (countLost fr n s).tqDropCount = s.tqDropCount := rfl
@[simp] theorem countLost_jbDropCount (fr : Frame) (n : Nat) (s : State) :
    (countLost fr n s).jbDropCount = s.jbDropCount := rfl
@[simp] theorem countLost_run (fr : Frame) (n : Nat) (s : State) :
    (countLost fr n s).run = s.run := rfl
@[simp] theorem countLost_evtStatus (fr : Frame) (n : Nat) (s : State) :
    (countLost fr n s).evtStatus = s.evtStatus ||| eventBit (.uncorrectable fr.frameIndex n) := rfl
@[simp] theorem countLost_evtEnable (fr : Frame) (n : Nat) (s : State) :
    (countLost fr n s).evtEnable = s.evtEnable := rfl
@[simp] theorem countLost_cfgRingSize (fr : Frame) (n : Nat) (s : State) :
    (countLost fr n s).cfgRingSize = s.cfgRingSize := rfl
@[simp] theorem countLost_cfgJbDepth (fr : Frame) (n : Nat) (s : State) :
    (countLost fr n s).cfgJbDepth = s.cfgJbDepth := rfl
@[simp] theorem countLost_events (fr : Frame) (n : Nat) (s : State) :
    (countLost fr n s).events = s.events ++ [.uncorrectable fr.frameIndex n] := rfl
@[simp] theorem countLost_outputs (fr : Frame) (n : Nat) (s : State) :
    (countLost fr n s).outputs = s.outputs := rfl
@[simp] theorem countLost_ports (fr : Frame) (n : Nat) (s : State) :
    (countLost fr n s).ports = s.ports := rfl
@[simp] theorem countLost_sched (fr : Frame) (n : Nat) (s : State) :
    (countLost fr n s).sched = s.sched := rfl
@[simp] theorem countLost_telSeen (fr : Frame) (n : Nat) (s : State) :
    (countLost fr n s).telSeen = s.telSeen := rfl
@[simp] theorem countLost_telDraws (fr : Frame) (n : Nat) (s : State) :
    (countLost fr n s).telDraws = s.telDraws := rfl

/-! ### `setPort` -/

@[simp] theorem setPort_cfg (a : Agent) (bs : List Byte) (s : State) :
    (setPort a bs s).cfg = s.cfg := by cases a <;> rfl
@[simp] theorem setPort_ring (a : Agent) (bs : List Byte) (s : State) :
    (setPort a bs s).ring = s.ring := by cases a <;> rfl
@[simp] theorem setPort_tq (a : Agent) (bs : List Byte) (s : State) :
    (setPort a bs s).tq = s.tq := by cases a <;> rfl
@[simp] theorem setPort_cachedMeta (a : Agent) (bs : List Byte) (s : State) :
    (setPort a bs s).cachedMeta = s.cachedMeta := by cases a <;> rfl
@[simp] theorem setPort_correctableErrors (a : Agent) (bs : List Byte) (s : State) :
    (setPort a bs s).correctableErrors = s.correctableErrors := by cases a <;> rfl
@[simp] theorem setPort_uncorrectableErrors (a : Agent) (bs : List Byte) (s : State) :
    (setPort a bs s).uncorrectableErrors = s.uncorrectableErrors := by cases a <;> rfl
@[simp] theorem setPort_jb (a : Agent) (bs : List Byte) (s : State) :
    (setPort a bs s).jb = s.jb := by cases a <;> rfl
@[simp] theorem setPort_cursor (a : Agent) (bs : List Byte) (s : State) :
    (setPort a bs s).cursor = s.cursor := by cases a <;> rfl
@[simp] theorem setPort_readSamplesCount (a : Agent) (bs : List Byte) (s : State) :
    (setPort a bs s).readSamplesCount = s.readSamplesCount := by cases a <;> rfl
@[simp] theorem setPort_malformedCount (a : Agent) (bs : List Byte) (s : State) :
    (setPort a bs s).malformedCount = s.malformedCount := by cases a <;> rfl
@[simp] theorem setPort_tqDropCount (a : Agent) (bs : List Byte) (s : State) :
    (setPort a bs s).tqDropCount = s.tqDropCount := by cases a <;> rfl
@[simp] theorem setPort_jbDropCount (a : Agent) (bs : List Byte) (s : State) :
    (setPort a bs s).jbDropCount = s.jbDropCount := by cases a <;> rfl
@[simp] theorem setPort_run (a : Agent) (bs : List Byte) (s : State) :
    (setPort a bs s).run = s.run := by cases a <;> rfl
@[simp] theorem setPort_evtStatus (a : Agent) (bs : List Byte) (s : State) :
    (setPort a bs s).evtStatus = s.evtStatus := by cases a <;> rfl
@[simp] theorem setPort_evtEnable (a : Agent) (bs : List Byte) (s : State) :
    (setPort a bs s).evtEnable = s.evtEnable := by cases a <;> rfl
@[simp] theorem setPort_cfgRingSize (a : Agent) (bs : List Byte) (s : State) :
    (setPort a bs s).cfgRingSize = s.cfgRingSize := by cases a <;> rfl
@[simp] theorem setPort_cfgJbDepth (a : Agent) (bs : List Byte) (s : State) :
    (setPort a bs s).cfgJbDepth = s.cfgJbDepth := by cases a <;> rfl
@[simp] theorem setPort_events (a : Agent) (bs : List Byte) (s : State) :
    (setPort a bs s).events = s.events := by cases a <;> rfl
@[simp] theorem setPort_outputs (a : Agent) (bs : List Byte) (s : State) :
    (setPort a bs s).outputs = s.outputs := by cases a <;> rfl
@[simp] theorem setPort_sched (a : Agent) (bs : List Byte) (s : State) :
    (setPort a bs s).sched = s.sched := by cases a <;> rfl
@[simp] theorem setPort_telSeen (a : Agent) (bs : List Byte) (s : State) :
    (setPort a bs s).telSeen = s.telSeen := by cases a <;> rfl
@[simp] theorem setPort_telDraws (a : Agent) (bs : List Byte) (s : State) :
    (setPort a bs s).telDraws = s.telDraws := by cases a <;> rfl

/-- An agent's port after it was set. -/
@[simp] theorem portOf_setPort_self (a : Agent) (bs : List Byte) (s : State) :
    portOf (setPort a bs s) a = bs := by cases a <;> rfl

/-- Setting one agent's port leaves the others' as they are. -/
theorem portOf_setPort_other {a b : Agent} (h : b ≠ a) (bs : List Byte) (s : State) :
    portOf (setPort a bs s) b = portOf s b := by
  cases a <;> cases b <;> first | rfl | exact absurd rfl h

@[simp] theorem endTurn_portOf (a : Agent) (s : State) : portOf (endTurn s) a = portOf s a := by
  cases a <;> rfl

end Sys2Proof.Machine
end

