-- ==== Sys2Proof/Laws/Ops.lean ====
section
/-! SUPPORT. For each shared operation, what it can change (its frame, as one equation: every field not
named is as before) and what it does in each case. -/

namespace Sys2Proof.Machine

/-! ### The Transfer Queue -/
theorem tqMakeRoom_room (s : State) (h : s.tq.length ≠ s.cfg.tqCapacity) : tqMakeRoom s = s := by
  simp [tqMakeRoom, h]

theorem tqMakeRoom_full (s : State) {old : Frame} {rest : List Frame} (ht : s.tq = old :: rest)
    (h : s.tq.length = s.cfg.tqCapacity) :
    tqMakeRoom s =
      raise (.tqDrop old.frameIndex) { s with tq := rest, tqDropCount := s.tqDropCount + 1#32 } := by
  unfold tqMakeRoom
  rw [if_pos h, ht]

theorem tqMakeRoom_frame (s : State) :
    tqMakeRoom s = { s with tq := (tqMakeRoom s).tq, tqDropCount := (tqMakeRoom s).tqDropCount, events := (tqMakeRoom s).events, evtStatus := (tqMakeRoom s).evtStatus } := by
  unfold tqMakeRoom
  split
  · split <;> rfl
  · rfl

theorem tqPush_frame (fr : Frame) (s : State) :
    tqPush fr s = { s with tq := (tqPush fr s).tq, tqDropCount := (tqPush fr s).tqDropCount, events := (tqPush fr s).events, evtStatus := (tqPush fr s).evtStatus } := by
  conv => lhs; unfold tqPush; rw [tqMakeRoom_frame s]
  conv => rhs; unfold tqPush; rw [tqMakeRoom_frame s]
  rfl

/-- TQ_PUSH with room: the frame joins the tail, with E7. -/
theorem tqPush_room (fr : Frame) (s : State) (h : s.tq.length ≠ s.cfg.tqCapacity) :
    tqPush fr s = raise (.tqPush fr.frameIndex) { s with tq := s.tq ++ [fr] } := by
  simp only [tqPush, tqMakeRoom_room s h]

/-- TQ_PUSH on a full queue: the oldest frame is dropped and counted with E8, then as with room. -/
theorem tqPush_full (fr : Frame) (s : State) {old : Frame} {rest : List Frame} (ht : s.tq = old :: rest)
    (h : s.tq.length = s.cfg.tqCapacity) :
    tqPush fr s =
      { s with
        tq := rest ++ [fr], tqDropCount := s.tqDropCount + 1#32
        events := s.events ++ [.tqDrop old.frameIndex] ++ [.tqPush fr.frameIndex]
        evtStatus := s.evtStatus ||| eventBit (.tqDrop old.frameIndex) ||| eventBit (.tqPush fr.frameIndex) } := by
  simp only [tqPush, tqMakeRoom_full s ht h]
  rfl

/-- The frame pushed is last in the queue. -/
theorem tqPush_tq (fr : Frame) (s : State) : (tqPush fr s).tq = (tqMakeRoom s).tq ++ [fr] := rfl

/-- Making room removes at most the head. -/
theorem tqMakeRoom_tq (s : State) : (tqMakeRoom s).tq = s.tq ∨ (tqMakeRoom s).tq = s.tq.tail := by
  unfold tqMakeRoom
  split
  · split
    · exact .inl rfl
    · rename_i h; right; simp [h]
  · exact .inl rfl

/-- Room is made when the queue is at its capacity, which is at least 1. -/
theorem tqMakeRoom_length (s : State) (h : s.tq.length ≤ s.cfg.tqCapacity) :
    (tqMakeRoom s).tq.length < s.cfg.tqCapacity := by
  have hc : 1 ≤ s.cfg.tqCapacity := s.cfg.legal.bounds.2.2.2.2.2.2.2.2.2.2.2.1
  unfold tqMakeRoom
  split
  · rename_i hf
    split
    · rename_i ht; simp [ht] at hf; omega
    · rename_i ht; simp [ht] at hf; simp; omega
  · omega

/-! ### The Frame Reassembler -/
theorem completeFrame_frame (fi : Word) (s : State) :
    completeFrame fi s = { s with tq := (completeFrame fi s).tq, tqDropCount := (completeFrame fi s).tqDropCount, events := (completeFrame fi s).events, evtStatus := (completeFrame fi s).evtStatus } := by
  unfold completeFrame
  split
  · split
    · rfl
    · exact tqPush_frame _ s
  · rfl

theorem fileDatagram_frame (dg : List Byte) (s : State) :
    fileDatagram dg s = { s with ring := (fileDatagram dg s).ring, tq := (fileDatagram dg s).tq, tqDropCount := (fileDatagram dg s).tqDropCount, events := (fileDatagram dg s).events, evtStatus := (fileDatagram dg s).evtStatus } := by
  unfold fileDatagram
  dsimp only
  rw [completeFrame_frame]
  rfl

theorem rejectDatagram_frame (dg : List Byte) (s : State) :
    rejectDatagram dg s = { s with malformedCount := (rejectDatagram dg s).malformedCount, events := (rejectDatagram dg s).events, evtStatus := (rejectDatagram dg s).evtStatus } := by
  rfl

/-! ### The Meta Validator -/
theorem adoptMeta_frame (m : MetaDataFEC) (s : State) :
    adoptMeta m s = { s with cachedMeta := (adoptMeta m s).cachedMeta, events := (adoptMeta m s).events, evtStatus := (adoptMeta m s).evtStatus } := by
  unfold adoptMeta
  split <;> rfl

theorem metaValidate_frame (fr : Frame) (s : State) :
    metaValidate fr s = { s with cachedMeta := (metaValidate fr s).cachedMeta, events := (metaValidate fr s).events, evtStatus := (metaValidate fr s).evtStatus } := by
  unfold metaValidate
  dsimp only
  split
  · exact adoptMeta_frame _ s
  · rfl

/-! ### The Jitter/Read Buffer -/
theorem jbMakeRoom_room (s : State) (h : s.jb.length ≠ s.cfgJbDepth.toNat) : jbMakeRoom s = s := by
  simp [jbMakeRoom, h]

theorem jbMakeRoom_full (s : State) {old : JbEntry} {rest : List JbEntry} (ht : s.jb = old :: rest)
    (h : s.jb.length = s.cfgJbDepth.toNat) :
    jbMakeRoom s =
      raise (.jbDrop old.frame.frameIndex)
        { s with jb := rest, jbDropCount := s.jbDropCount + 1#32, cursor := cursorStart } := by
  unfold jbMakeRoom
  rw [if_pos h, ht]

theorem jbMakeRoom_frame (s : State) :
    jbMakeRoom s = { s with jb := (jbMakeRoom s).jb, cursor := (jbMakeRoom s).cursor, jbDropCount := (jbMakeRoom s).jbDropCount, events := (jbMakeRoom s).events, evtStatus := (jbMakeRoom s).evtStatus } := by
  unfold jbMakeRoom
  split
  · split <;> rfl
  · rfl

theorem jbPush_frame (e : JbEntry) (s : State) :
    jbPush e s = { s with jb := (jbPush e s).jb, cursor := (jbPush e s).cursor, jbDropCount := (jbPush e s).jbDropCount, events := (jbPush e s).events, evtStatus := (jbPush e s).evtStatus } := by
  conv => lhs; unfold jbPush; rw [jbMakeRoom_frame s]
  conv => rhs; unfold jbPush; rw [jbMakeRoom_frame s]

/-- The entry pushed is last in the buffer. -/
theorem jbPush_jb (e : JbEntry) (s : State) : (jbPush e s).jb = (jbMakeRoom s).jb ++ [e] := rfl

/-- Making room removes at most the head. -/
theorem jbMakeRoom_jb (s : State) : (jbMakeRoom s).jb = s.jb ∨ (jbMakeRoom s).jb = s.jb.tail := by
  unfold jbMakeRoom
  split
  · split
    · exact .inl rfl
    · rename_i h; right; simp [h]
  · exact .inl rfl

/-- Room is made when the buffer is at its depth, if that is at least 1. -/
theorem jbMakeRoom_length (s : State) (h : s.jb.length ≤ s.cfgJbDepth.toNat) (hd : 1 ≤ s.cfgJbDepth.toNat) :
    (jbMakeRoom s).jb.length < s.cfgJbDepth.toNat := by
  unfold jbMakeRoom
  split
  · rename_i hf
    split
    · rename_i ht; simp [ht] at hf; omega
    · rename_i ht; simp [ht] at hf; simp; omega
  · omega

theorem advance_frame (e : JbEntry) (s : State) :
    advance e s = { s with jb := (advance e s).jb, cursor := (advance e s).cursor } := by
  unfold advance
  split <;> rfl

theorem readSample_frame (isTx : Bool) (s : State) :
    readSample isTx s = { s with jb := (readSample isTx s).jb, cursor := (readSample isTx s).cursor, readSamplesCount := (readSample isTx s).readSamplesCount, events := (readSample isTx s).events, evtStatus := (readSample isTx s).evtStatus, outputs := (readSample isTx s).outputs } := by
  unfold readSample
  split
  · rfl
  · unfold advance
    dsimp only
    split <;> rfl

/-! ### The FEC Recovery Engine -/
theorem recoverState_frame (fr : Frame) (m : Nat) (s : State) :
    recoverState fr m s = { s with events := (recoverState fr m s).events, evtStatus := (recoverState fr m s).evtStatus } := by
  unfold recoverState
  split <;> rfl

theorem processState_frame (fr : Frame) (m : Nat) (s : State) :
    processState fr m s = { s with events := (processState fr m s).events, evtStatus := (processState fr m s).evtStatus } := by
  unfold processState
  split
  · rfl
  · split
    · rfl
    · exact recoverState_frame fr m s

theorem account_frame (fr : Frame) (m : Nat) (st : RecoverStatus) (s : State) :
    account fr m st s = { s with correctableErrors := (account fr m st s).correctableErrors, uncorrectableErrors := (account fr m st s).uncorrectableErrors, events := (account fr m st s).events, evtStatus := (account fr m st s).evtStatus } := by
  unfold account
  split
  · rfl
  · split <;> rfl

theorem validateStage_frame (fr : Frame) (st : RecoverStatus) (s : State) :
    validateStage fr st s = { s with cachedMeta := (validateStage fr st s).cachedMeta, events := (validateStage fr st s).events, evtStatus := (validateStage fr st s).evtStatus } := by
  unfold validateStage
  split
  · exact metaValidate_frame fr s
  · rfl

theorem forwardFrame_frame (fr : Frame) (s : State) :
    forwardFrame fr s = { s with jb := (forwardFrame fr s).jb, cursor := (forwardFrame fr s).cursor, jbDropCount := (forwardFrame fr s).jbDropCount, events := (forwardFrame fr s).events, evtStatus := (forwardFrame fr s).evtStatus } := by
  exact jbPush_frame _ s

theorem processFrame_frame (fr : Frame) (s : State) :
    processFrame fr s = { s with cachedMeta := (processFrame fr s).cachedMeta, correctableErrors := (processFrame fr s).correctableErrors, uncorrectableErrors := (processFrame fr s).uncorrectableErrors, jb := (processFrame fr s).jb, cursor := (processFrame fr s).cursor, jbDropCount := (processFrame fr s).jbDropCount, events := (processFrame fr s).events, evtStatus := (processFrame fr s).evtStatus } := by
  unfold processFrame
  dsimp only
  rw [forwardFrame_frame, account_frame, validateStage_frame, processState_frame]

/-! ### The host interface -/
theorem stopReceiving_frame (s : State) :
    stopReceiving s = { s with run := (stopReceiving s).run, ring := (stopReceiving s).ring, tq := (stopReceiving s).tq, jb := (stopReceiving s).jb, cursor := (stopReceiving s).cursor } := by
  unfold stopReceiving
  split <;> rfl

theorem writeCtrl_frame (d : Word) (s : State) :
    writeCtrl d s = { s with run := (writeCtrl d s).run, ring := (writeCtrl d s).ring, tq := (writeCtrl d s).tq, jb := (writeCtrl d s).jb, cursor := (writeCtrl d s).cursor, correctableErrors := (writeCtrl d s).correctableErrors, uncorrectableErrors := (writeCtrl d s).uncorrectableErrors, readSamplesCount := (writeCtrl d s).readSamplesCount, malformedCount := (writeCtrl d s).malformedCount, tqDropCount := (writeCtrl d s).tqDropCount, jbDropCount := (writeCtrl d s).jbDropCount } := by
  unfold writeCtrl
  dsimp only
  rw [stopReceiving_frame]
  split <;> split <;> try rfl
  all_goals split <;> rfl

theorem registerWrite_frame (d : Word) (r : Register) (s : State) :
    registerWrite d s r = { s with run := (registerWrite d s r).run, ring := (registerWrite d s r).ring, tq := (registerWrite d s r).tq, jb := (registerWrite d s r).jb, cursor := (registerWrite d s r).cursor, correctableErrors := (registerWrite d s r).correctableErrors, uncorrectableErrors := (registerWrite d s r).uncorrectableErrors, readSamplesCount := (registerWrite d s r).readSamplesCount, malformedCount := (registerWrite d s r).malformedCount, tqDropCount := (registerWrite d s r).tqDropCount, jbDropCount := (registerWrite d s r).jbDropCount, evtStatus := (registerWrite d s r).evtStatus, evtEnable := (registerWrite d s r).evtEnable, cfgRingSize := (registerWrite d s r).cfgRingSize, cfgJbDepth := (registerWrite d s r).cfgJbDepth } := by
  cases r <;> simp only [registerWrite] <;> try rfl
  · rw [writeCtrl_frame]
  · unfold writeRingSize; split <;> rfl
  · unfold writeJbDepth; split <;> rfl

theorem resetBlock_frame (s : State) :
    resetBlock s = { s with ring := (resetBlock s).ring, tq := (resetBlock s).tq, cachedMeta := (resetBlock s).cachedMeta, correctableErrors := (resetBlock s).correctableErrors, uncorrectableErrors := (resetBlock s).uncorrectableErrors, jb := (resetBlock s).jb, cursor := (resetBlock s).cursor, readSamplesCount := (resetBlock s).readSamplesCount, malformedCount := (resetBlock s).malformedCount, tqDropCount := (resetBlock s).tqDropCount, jbDropCount := (resetBlock s).jbDropCount, run := (resetBlock s).run, evtStatus := (resetBlock s).evtStatus, evtEnable := (resetBlock s).evtEnable, cfgRingSize := (resetBlock s).cfgRingSize, cfgJbDepth := (resetBlock s).cfgJbDepth } := by
  rfl

theorem afterRead_frame (r : Register) (s : State) :
    afterRead s r = { s with telSeen := (afterRead s r).telSeen, telDraws := (afterRead s r).telDraws } := by
  cases r <;> rfl

end Sys2Proof.Machine
end

