-- ==== Sys2Proof/Laws/Store.lean ====
section
/-! SUPPORT. The canonical form of the frame store: every operation on frame records keeps it, and the
state after reset has it. -/

namespace Sys2Proof.Machine

/-! ### Slots of a frame -/

theorem fieldBytes_length (p : List Byte) (off n : Nat) : (fieldBytes p off n).length = n := by
  simp [fieldBytes]

theorem frame_wf_iff (bb : Nat) (fr : Frame) :
    fr.wf bb = true ↔ fr.blocks.length = 256 ∧ ∀ b ∈ fr.blocks, b.payload.length = bb := by
  simp [Frame.wf, Block.wf, maxBlocks]

theorem freshFrame_wf (c : Config) (fi : Word) : (freshFrame c fi).wf c.blockBytes = true := by
  rw [frame_wf_iff]
  refine ⟨List.length_replicate, fun b hb => ?_⟩
  obtain ⟨-, rfl⟩ := List.mem_replicate.mp hb
  simp [freshBlock]

theorem setSlot_wf {bb : Nat} {fr : Frame} {blk : Block} (j : Nat) (h : fr.wf bb = true)
    (hb : blk.payload.length = bb) : (setSlot fr j blk).wf bb = true := by
  rw [frame_wf_iff] at h ⊢
  refine ⟨by simpa [setSlot] using h.1, fun b hm => ?_⟩
  rcases List.mem_or_eq_of_mem_set hm with hm | rfl
  · exact h.2 b hm
  · exact hb

theorem fileBlock_wf {c : Config} {fr : Frame} {blk : Block} (bi : Byte) (h : fr.wf c.blockBytes = true)
    (hb : blk.payload.length = c.blockBytes) : (fileBlock c bi blk fr).wf c.blockBytes = true :=
  setSlot_wf bi.toNat h hb

theorem dgBlock_length (c : Config) (dg : List Byte) : (dgBlock c dg).payload.length = c.blockBytes :=
  fieldBytes_length dg headerBytes c.blockBytes

/-- The slot just set. -/
theorem slotOf_setSlot_self {fr : Frame} {j : Nat} (blk : Block) (h : j < fr.blocks.length) :
    slotOf (setSlot fr j blk) j = blk := by
  simp [slotOf, setSlot, List.getD_eq_getElem?_getD, h]

/-- Every other slot. -/
theorem slotOf_setSlot_other {fr : Frame} {i j : Nat} (blk : Block) (h : i ≠ j) :
    slotOf (setSlot fr j blk) i = slotOf fr i := by
  simp [slotOf, setSlot, List.getD_eq_getElem?_getD, List.getElem?_set_ne (Ne.symm h)]

/-! ### The decoder's blocks have the size of a payload -/

theorem gscale_length (poly : BitVec 9) (a : Byte) (xs : List Byte) :
    (gscale poly a xs).length = xs.length := by simp [gscale]

theorem gadd_length (xs ys : List Byte) : (gadd xs ys).length = min xs.length ys.length := by
  simp [gadd]

theorem gcombine_length (poly : BitVec 9) {n : Nat} (as : List Byte) (xs : List (List Byte)) (acc : List Byte)
    (ha : acc.length = n) (hx : ∀ x ∈ xs, x.length = n) : (gcombine poly as xs acc).length = n := by
  induction as generalizing xs acc with
  | nil => simpa [gcombine] using ha
  | cons a as ih =>
    cases xs with
    | nil => simpa [gcombine] using ha
    | cons x xs =>
      simp only [gcombine]
      refine ih xs _ ?_ fun y hy => hx y (List.mem_cons_of_mem _ hy)
      rw [gadd_length, gscale_length, ha, hx x List.mem_cons_self, Nat.min_self]

theorem takePivot_mem {qs : List Equation} {p : Equation} {rest : List Equation}
    (h : takePivot qs = some (p, rest)) : p ∈ qs ∧ ∀ q ∈ rest, q ∈ qs := by
  induction qs generalizing p rest with
  | nil => cases h
  | cons q qs ih =>
    simp only [takePivot] at h
    split at h
    · split at h
      · rename_i hr
        cases h
        obtain ⟨h1, h2⟩ := ih hr
        refine ⟨List.mem_cons_of_mem _ h1, fun x hx => ?_⟩
        rcases List.mem_cons.mp hx with rfl | hx
        · exact List.mem_cons_self
        · exact List.mem_cons_of_mem _ (h2 x hx)
      · cases h
    · cases h
      exact ⟨List.mem_cons_self, fun x hx => List.mem_cons_of_mem _ hx⟩

theorem solve_length (poly : BitVec 9) {m : Nat} (n : Nat) (qs : List Equation) (o : List (List Byte))
    (hq : ∀ q ∈ qs, q.rhs.length = m) (h : solve poly n qs = some o) :
    o.length = n ∧ ∀ x ∈ o, x.length = m := by
  induction n generalizing qs o with
  | zero => cases h; simp
  | succ n ih =>
    simp only [solve] at h
    split at h
    · cases h
    · rename_i q rest hp
      obtain ⟨hq1, hq2⟩ := takePivot_mem hp
      have hql := hq q hq1
      split at h
      · cases h
      · rename_i xs hs
        cases h
        obtain ⟨h1, h2⟩ := ih _ xs (by
          intro x hx
          obtain ⟨r, hr, rfl⟩ := List.mem_map.mp hx
          simp [eliminate, gadd_length, gscale_length, scaledTail, hql, hq r (hq2 r hr)]) hs
        refine ⟨by simp [h1], fun x hx => ?_⟩
        rcases List.mem_cons.mp hx with rfl | hx
        · exact gcombine_length poly _ _ _ (by simp [scaledTail, gscale_length, hql]) h2
        · exact h2 x hx

/-- `Decode` returns P_K blocks of the size of the blocks it is given. -/
theorem decodeSet_length (c : Config) (set : List (Nat × List Byte))
    (hs : ∀ ib ∈ set, ib.2.length = c.blockBytes) :
    (decodeSet c set).length = c.k ∧ ∀ x ∈ decodeSet c set, x.length = c.blockBytes := by
  unfold decodeSet
  split
  · rename_i o ho
    refine solve_length _ _ _ _ (fun q hq => ?_) ho
    obtain ⟨ib, hib, rfl⟩ := List.mem_map.mp hq
    exact hs ib hib
  · refine ⟨by simp [freeOriginals], fun x hx => ?_⟩
    obtain ⟨j, -, rfl⟩ := List.mem_map.mp hx
    simp

/-! ### Recovery keeps the form of a frame -/

theorem payloadOf_length {bb : Nat} {fr : Frame} (h : fr.wf bb = true) {j : Nat} (hj : j < 256) :
    (payloadOf fr j).length = bb := by
  rw [frame_wf_iff] at h
  have hl : j < fr.blocks.length := by omega
  simp only [payloadOf, slotOf, List.getD_eq_getElem?_getD, List.getElem?_eq_getElem hl, Option.getD_some]
  exact h.2 _ (List.getElem_mem hl)

theorem decoderSet_lt (c : Config) (fr : Frame) (m : Nat) (hf : fr.wf c.blockBytes = true) :
    ∀ i ∈ decoderSet c fr m, i < 256 := by
  intro i hi
  have hk : c.k ≤ 256 := c.legal.bounds.2.1
  rcases List.mem_append.mp hi with hi | hi
  · have := List.mem_range.mp (List.mem_filter.mp hi).1
    omega
  · have hp := (List.mem_filter.mp (List.mem_of_mem_take hi)).2
    by_contra hge
    rw [frame_wf_iff] at hf
    simp [isPresent, slotOf, List.getD_eq_getElem?_getD, freshBlock,
      List.getElem?_eq_none (show fr.blocks.length ≤ i by omega)] at hp

/-- What a write-back of blocks of the right size does to a frame, slot by slot. -/
theorem writeBack_wf (c : Config) (o : List (List Byte)) (fr : Frame) (hf : fr.wf c.blockBytes = true)
    (hl : o.length = c.k) (ho : ∀ x ∈ o, x.length = c.blockBytes) :
    (writeBack c o fr).wf c.blockBytes = true := by
  unfold writeBack
  have hm : ∀ j ∈ missing c fr, j < o.length := fun j hj => by
    have := List.mem_range.mp (List.mem_filter.mp hj).1
    omega
  generalize missing c fr = js at hm
  induction js generalizing fr with
  | nil => exact hf
  | cons j js ih =>
    simp only [List.foldl_cons]
    refine ih _ ?_ fun i hi => hm i (List.mem_cons_of_mem _ hi)
    have hj := hm j List.mem_cons_self
    have := setSlot_wf (blk := rebuiltBlock (o.getD j [])) j hf (by
      simp only [rebuiltBlock, List.getD_eq_getElem?_getD, List.getElem?_eq_getElem hj, Option.getD_some]
      exact ho _ (List.getElem_mem hj))
    simpa [Frame.wf] using this

theorem decodedOriginals_length (c : Config) (fr : Frame) (m : Nat) (hf : fr.wf c.blockBytes = true) :
    (decodedOriginals c fr m).length = c.k ∧ ∀ x ∈ decodedOriginals c fr m, x.length = c.blockBytes := by
  refine decodeSet_length c _ fun ib hib => ?_
  obtain ⟨i, hi, rfl⟩ := List.mem_map.mp hib
  exact payloadOf_length hf (decoderSet_lt c fr m hf i hi)

theorem recoverResult_wf (c : Config) (fr : Frame) (m : Nat) (hf : fr.wf c.blockBytes = true) :
    (recoverResult c fr m).1.wf c.blockBytes = true := by
  unfold recoverResult
  split
  · exact hf
  · split
    · obtain ⟨h1, h2⟩ := decodedOriginals_length c fr m hf
      exact writeBack_wf c _ fr hf h1 h2
    · exact hf

theorem processResult_wf (c : Config) (fr : Frame) (m : Nat) (hf : fr.wf c.blockBytes = true) :
    (processResult c fr m).1.wf c.blockBytes = true := by
  unfold processResult
  split
  · exact hf
  · split
    · exact hf
    · exact recoverResult_wf c fr m hf

/-! ### The store -/

/-- A held frame stands in the ring, in the Transfer Queue or in the jitter buffer. -/
theorem mem_heldFrames {s : State} {fr : Frame} :
    fr ∈ heldFrames s ↔ some fr ∈ s.ring ∨ fr ∈ s.tq ∨ ∃ e ∈ s.jb, e.frame = fr := by
  simp [heldFrames]

/-- A state whose store holds no frame that was not held before, in as many ring slots, keeps the form. -/
theorem storeOk_of_subset {s t : State} (hs : s.StoreOk) (hc : t.cfg = s.cfg)
    (hr : t.ring.length = s.ring.length)
    (hf : ∀ fr ∈ heldFrames t, fr ∈ heldFrames s ∨ fr.wf s.cfg.blockBytes = true) : t.StoreOk := by
  refine ⟨by rw [hr, hc, hs.1], fun fr h => ?_⟩
  rw [hc]
  rcases hf fr h with h | h
  · exact hs.2 fr h
  · exact h

theorem mem_tqMakeRoom {fr : Frame} {s : State} (h : fr ∈ (tqMakeRoom s).tq) : fr ∈ s.tq := by
  rcases tqMakeRoom_tq s with e | e <;> rw [e] at h
  · exact h
  · exact List.mem_of_mem_tail h

theorem mem_tqPush {fr g : Frame} {s : State} (h : g ∈ (tqPush fr s).tq) : g ∈ s.tq ∨ g = fr := by
  rw [tqPush_tq] at h
  rcases List.mem_append.mp h with h | h
  · exact .inl (mem_tqMakeRoom h)
  · exact .inr (by simpa using h)

theorem mem_jbMakeRoom {e : JbEntry} {s : State} (h : e ∈ (jbMakeRoom s).jb) : e ∈ s.jb := by
  rcases jbMakeRoom_jb s with q | q <;> rw [q] at h
  · exact h
  · exact List.mem_of_mem_tail h

theorem mem_jbPush {e g : JbEntry} {s : State} (h : g ∈ (jbPush e s).jb) : g ∈ s.jb ∨ g = e := by
  rw [jbPush_jb] at h
  rcases List.mem_append.mp h with h | h
  · exact .inl (mem_jbMakeRoom h)
  · exact .inr (by simpa using h)

theorem tqPush_storeOk {fr : Frame} {s : State} (hs : s.StoreOk) (hf : fr.wf s.cfg.blockBytes = true) :
    (tqPush fr s).StoreOk := by
  refine storeOk_of_subset hs (by rw [tqPush_frame]) (by rw [tqPush_frame]) fun g hg => ?_
  rw [mem_heldFrames] at hg ⊢
  have hr : (tqPush fr s).ring = s.ring := by rw [tqPush_frame]
  have hj : (tqPush fr s).jb = s.jb := by rw [tqPush_frame]
  rw [hr, hj] at hg
  rcases hg with h | h | h
  · exact .inl (.inl h)
  · rcases mem_tqPush h with h | rfl
    · exact .inl (.inr (.inl h))
    · exact .inr hf
  · exact .inl (.inr (.inr h))

theorem jbPush_storeOk {e : JbEntry} {s : State} (hs : s.StoreOk) (hf : e.frame.wf s.cfg.blockBytes = true) :
    (jbPush e s).StoreOk := by
  refine storeOk_of_subset hs (by rw [jbPush_frame]) (by rw [jbPush_frame]) fun g hg => ?_
  rw [mem_heldFrames] at hg ⊢
  have hr : (jbPush e s).ring = s.ring := by rw [jbPush_frame]
  have ht : (jbPush e s).tq = s.tq := by rw [jbPush_frame]
  rw [hr, ht] at hg
  rcases hg with h | h | ⟨x, hx, rfl⟩
  · exact .inl (.inl h)
  · exact .inl (.inr (.inl h))
  · rcases mem_jbPush hx with h | rfl
    · exact .inl (.inr (.inr ⟨x, h, rfl⟩))
    · exact .inr hf

theorem setRing_storeOk {k : Nat} {fr : Frame} {s : State} (hs : s.StoreOk)
    (hf : fr.wf s.cfg.blockBytes = true) : (setRing k fr s).StoreOk := by
  refine storeOk_of_subset hs rfl (by simp) fun g hg => ?_
  rw [mem_heldFrames] at hg ⊢
  simp only [setRing_ring, setRing_tq, setRing_jb] at hg
  rcases hg with h | h | h
  · rcases List.mem_or_eq_of_mem_set h with h | h
    · exact .inl (.inl h)
    · cases h; exact .inr hf
  · exact .inl (.inr (.inl h))
  · exact .inl (.inr (.inr h))

/-- The state after reset has the form, whatever the parameters. -/
theorem init_storeOk (c : Config) : (State.init c).StoreOk := by
  refine ⟨by simp [State.init], fun fr h => ?_⟩
  rw [mem_heldFrames] at h
  simp [State.init] at h

end Sys2Proof.Machine
end

