-- ==== Sys2Proof/Laws/Decode.lean ====
section
/-! SUPPORT. The fields of an operation record: each reader gives back what its writer wrote, and what a
reader gives has the form of its type. -/

namespace Sys2Proof.Machine

/-! ### Reading back what was written -/

theorem takeBytes_append (xs rest : List Byte) : takeBytes xs.length (xs ++ rest) = .ok (xs, rest) := by
  induction xs with
  | nil => rfl
  | cons x xs ih => simp [takeBytes, ih]

theorem leBytes_length (n v : Nat) : (leBytes n v).length = n := by
  induction n generalizing v with
  | zero => rfl
  | succ n ih => simp [leBytes, ih]

theorem leNat_leBytes (n v : Nat) (h : v < 256 ^ n) : leNat (leBytes n v) = v := by
  induction n generalizing v with
  | zero => simp at h; simp [leBytes, leNat, h]
  | succ n ih =>
    simp only [leBytes, leNat, BitVec.toNat_ofNat]
    rw [ih]
    · omega
    · rw [pow_succ] at h; omega

theorem takeNat_append (n v : Nat) (rest : List Byte) (h : v < 256 ^ n) :
    takeNat n (leBytes n v ++ rest) = .ok (v, rest) := by
  have := takeBytes_append (leBytes n v) rest
  rw [leBytes_length] at this
  simp [takeNat, this, leNat_leBytes n v h]

theorem takeFlag_append (b : Bool) (rest : List Byte) : takeFlag (flagByte b :: rest) = .ok (b, rest) := by
  cases b <;> rfl

theorem takeBlock_append (bb : Nat) (b : Block) (rest : List Byte) (h : b.payload.length = bb) :
    takeBlock bb (encodeBlock bb b ++ rest) = .ok (b, rest) := by
  unfold encodeBlock
  split
  · rename_i h; subst h
    simp [takeBlock, takeFlag, bind, Except.bind]
  · subst h
    simp [takeBlock, bind, Except.bind, takeFlag_append, takeByte, takeBytes_append, takeFlag.eq_def 
      ((1#8 : Byte) :: _)]

theorem takeBlocks_append (bb : Nat) (bl : List Block) (rest : List Byte) (h : ∀ b ∈ bl, b.payload.length = bb) :
    takeBlocks bb bl.length (encodeBlocks bb bl ++ rest) = .ok (bl, rest) := by
  induction bl with
  | nil => rfl
  | cons b bl ih =>
    simp [takeBlocks, encodeBlocks, List.append_assoc, takeBlock_append bb b _ (h b List.mem_cons_self),
      ih fun x hx => h x (List.mem_cons_of_mem _ hx), bind, Except.bind]

theorem takeFrame_append (bb : Nat) (fr : Frame) (rest : List Byte) (h : fr.wf bb = true) :
    takeFrame bb (encodeFrame bb fr ++ rest) = .ok (fr, rest) := by
  rw [frame_wf_iff] at h
  have h3 := takeBlocks_append bb fr.blocks rest h.2
  rw [h.1] at h3
  have h1 : ∀ (w : Word), w.toNat < 256 ^ 4 := fun w => w.isLt
  simp only [takeFrame, encodeFrame, List.append_assoc, List.cons_append, takeNat_append _ _ _ (h1 _), takeFlag_append,
    bind, Except.bind, maxBlocks, h3, BitVec.ofNat_toNat, BitVec.setWidth_eq]

/-! ### What a reader gives -/

theorem takeBytes_length {n : Nat} {bs xs rest : List Byte} (h : takeBytes n bs = .ok (xs, rest)) : xs.length = n := by
  induction n generalizing bs xs rest with
  | zero => cases h; rfl
  | succ n ih =>
    cases bs with
    | nil => cases h
    | cons b bs =>
      simp only [takeBytes] at h
      split at h
      · rename_i hr; cases h; simp [ih hr]
      · cases h

theorem except_bind_ok {α β ε : Type} {x : Except ε α} {f : α → Except ε β} {r : β}
    (h : (x >>= f) = .ok r) : ∃ a, x = .ok a ∧ f a = .ok r := by
  cases x with
  | error e => cases h
  | ok a => exact ⟨a, rfl, h⟩

theorem takeBlock_wf {bb : Nat} {bs rest : List Byte} {b : Block} (h : takeBlock bb bs = .ok (b, rest)) :
    b.payload.length = bb := by
  unfold takeBlock at h
  obtain ⟨⟨l, bs1⟩, -, h⟩ := except_bind_ok h
  dsimp only at h
  split at h
  · obtain ⟨⟨p, bs2⟩, -, h⟩ := except_bind_ok h
    obtain ⟨⟨t1, bs3⟩, -, h⟩ := except_bind_ok h
    obtain ⟨⟨t2, bs4⟩, -, h⟩ := except_bind_ok h
    obtain ⟨⟨pl, bs5⟩, h5, h⟩ := except_bind_ok h
    cases h
    exact takeBytes_length h5
  · cases h; simp [freshBlock]

theorem takeBlocks_wf {bb n : Nat} {bs rest : List Byte} {bl : List Block} (h : takeBlocks bb n bs = .ok (bl, rest)) :
    bl.length = n ∧ ∀ b ∈ bl, b.payload.length = bb := by
  induction n generalizing bs rest bl with
  | zero => cases h; simp
  | succ n ih =>
    unfold takeBlocks at h
    obtain ⟨⟨b, bs1⟩, h1, h⟩ := except_bind_ok h
    obtain ⟨⟨r, bs2⟩, h2, h⟩ := except_bind_ok h
    cases h
    obtain ⟨i1, i2⟩ := ih h2
    exact ⟨by simp [i1], fun x hx => by
      rcases List.mem_cons.mp hx with rfl | hx
      · exact takeBlock_wf h1
      · exact i2 x hx⟩

theorem takeFrame_wf {bb : Nat} {bs rest : List Byte} {fr : Frame} (h : takeFrame bb bs = .ok (fr, rest)) :
    fr.wf bb = true := by
  unfold takeFrame at h
  obtain ⟨⟨f1, bs1⟩, -, h⟩ := except_bind_ok h
  obtain ⟨⟨f1, bs1⟩, -, h⟩ := except_bind_ok h
  obtain ⟨⟨f1, bs1⟩, -, h⟩ := except_bind_ok h
  obtain ⟨⟨f1, bs1⟩, -, h⟩ := except_bind_ok h
  obtain ⟨⟨f1, bs1⟩, -, h⟩ := except_bind_ok h
  obtain ⟨⟨bl, bs1⟩, h6, h⟩ := except_bind_ok h
  cases h
  rw [frame_wf_iff]
  exact takeBlocks_wf h6

theorem leNat_lt (bs : List Byte) : leNat bs < 256 ^ bs.length := by
  induction bs with
  | nil => simp [leNat]
  | cons b bs ih => simp only [leNat, List.length_cons, pow_succ]; have := b.isLt; omega

theorem takeNat_lt {n v : Nat} {bs rest : List Byte} (h : takeNat n bs = .ok (v, rest)) : v < 256 ^ n := by
  unfold takeNat at h
  split at h
  · rename_i xs r hr; cases h; have := leNat_lt xs; rwa [takeBytes_length hr] at this
  · cases h

end Sys2Proof.Machine
end

