-- ==== Sys2Proof/Laws/Recovery.lean ====
section
/-! SUPPORT. What the write-back, the recovery of a frame, the accounting and the push to the jitter
buffer do. -/

namespace Sys2Proof.Machine

/-! ### The sets of a frame -/

theorem usableCount_eq (c : Config) (fr : Frame) (m : Nat) :
    usableCount c fr m = ((List.range (c.k + m)).filter fun b => isPresent fr b).length := by
  simp only [usableCount, presentOrig, presentRec]
  rw [show (List.range (c.k + m)) = List.range c.k ++ List.range' c.k m by
    simpa [List.range_eq_range'] using (List.range'_append_1 (s := 0) (m := c.k) (n := m)).symm]
  rw [List.filter_append, List.length_append]

theorem missing_isEmpty (c : Config) (fr : Frame) :
    (missing c fr).isEmpty = true ↔ ∀ j < c.k, isPresent fr j = true := by
  simp [missing, List.isEmpty_iff, List.filter_eq_nil_iff]

theorem mem_missing (c : Config) (fr : Frame) (j : Nat) : j ∈ missing c fr ↔ j < c.k ∧ isPresent fr j = false := by
  simp [missing]

/-! ### Write-back -/

/-- One write of the write-back. -/
abbrev putBack (o : List (List Byte)) (f : Frame) (j : Nat) : Frame :=
  { setSlot f j (rebuiltBlock (o.getD j [])) with metaRetrieved := j == 0 || f.metaRetrieved }

theorem foldl_putBack_kept (o : List (List Byte)) (js : List Nat) (fr : Frame) :
    let new := js.foldl (putBack o) fr
    new.frameIndex = fr.frameIndex ∧ new.originalCount = fr.originalCount ∧ new.recoveryCount = fr.recoveryCount ∧
    new.blockCount = fr.blockCount ∧ (∀ b, b ∉ js → slotOf new b = slotOf fr b) := by
  induction js generalizing fr with
  | nil => simp
  | cons j js ih =>
    obtain ⟨h1, h3, h4, h5, h6⟩ := ih (putBack o fr j)
    refine ⟨h1, h3, h4, h5, ?_⟩
    intro b hb
    simp only [List.mem_cons, not_or] at hb
    simp only [List.foldl_cons]
    rw [h6 b hb.2]
    exact slotOf_setSlot_other _ hb.1

theorem foldl_putBack (o : List (List Byte)) (js : List Nat) (fr : Frame) (hj : ∀ j ∈ js, j < fr.blocks.length) :
    let new := js.foldl (putBack o) fr
    new.frameIndex = fr.frameIndex ∧ new.blocks.length = fr.blocks.length ∧
    new.originalCount = fr.originalCount ∧ new.recoveryCount = fr.recoveryCount ∧ new.blockCount = fr.blockCount ∧
    (∀ b, b ∉ js → slotOf new b = slotOf fr b) ∧ (∀ j ∈ js, slotOf new j = rebuiltBlock (o.getD j [])) ∧
    new.metaRetrieved = (fr.metaRetrieved || decide (0 ∈ js)) := by
  induction js generalizing fr with
  | nil => simp
  | cons j js ih =>
    have hl : (putBack o fr j).blocks.length = fr.blocks.length := by simp [setSlot]
    obtain ⟨h1, h2, h3, h4, h5, h6, h7, h8⟩ := ih (putBack o fr j) (by
      intro i hi; rw [hl]; exact hj i (List.mem_cons_of_mem _ hi))
    simp only [List.foldl_cons]
    refine ⟨h1, h2.trans hl, h3, h4, h5, ?_, ?_, ?_⟩
    · intro b hb
      simp only [List.mem_cons, not_or] at hb
      rw [h6 b hb.2]
      exact slotOf_setSlot_other _ hb.1
    · intro i hi
      by_cases hm : i ∈ js
      · exact h7 i hm
      · have : i = j := by simpa [hm] using hi
        subst this
        rw [h6 i hm]
        exact slotOf_setSlot_self _ (hj i List.mem_cons_self)
    · rw [h8]
      by_cases h : j = 0
      · subst h; simp
      · have : (0 : Nat) ≠ j := fun e => h e.symm
        cases hfm : fr.metaRetrieved <;> simp [h, this, hfm]

theorem writeBack_rebuilds (c : Config) (o : List (List Byte)) (fr : Frame) (hf : fr.wf c.blockBytes = true) :
    RebuildsFrame c o fr (writeBack c o fr) := by
  have hk : c.k ≤ 256 := c.legal.bounds.2.1
  have h256 := ((frame_wf_iff _ _).mp hf).1
  obtain ⟨h1, h2, h3, h4, h5, h6, h7, h8⟩ := foldl_putBack o (missing c fr) fr (by
    intro j hj; have := ((mem_missing c fr j).mp hj).1; omega)
  have hk1 : 2 ≤ c.k := c.legal.bounds.1
  refine ⟨h1, h2, h3, h4, h5, fun b hb => h6 b ?_, fun j hj hp => h7 j ((mem_missing c fr j).mpr ⟨hj, hp⟩), ?_⟩
  · rw [mem_missing]; rintro ⟨h, h'⟩; rcases hb with hb | hb
    · omega
    · rw [hb] at h'; cases h'
  · unfold writeBack; rw [h8]
    have hm := mem_missing c fr 0
    cases hp : isPresent fr 0
    · have : 0 ∈ missing c fr := hm.mpr ⟨by omega, hp⟩
      simp [this]
    · have : 0 ∉ missing c fr := fun h => by have := (hm.mp h).2; rw [hp] at this; cases this
      simp [this]

/-! ### REC_PROCESS -/

theorem processResult_kept (c : Config) (fr : Frame) (m : Nat) : 
    (processResult c fr m).1.frameIndex = fr.frameIndex ∧
    (processResult c fr m).1.originalCount = fr.originalCount ∧
    (processResult c fr m).1.recoveryCount = fr.recoveryCount ∧
    (processResult c fr m).1.blockCount = fr.blockCount ∧
    ∀ b, isPresent fr b = true → slotOf (processResult c fr m).1 b = slotOf fr b := by
  unfold processResult recoverResult
  obtain ⟨h1, h2, h3, h4, h5⟩ := foldl_putBack_kept (decodedOriginals c fr m) (missing c fr) fr
  split
  · simp
  split
  · simp
  split
  · simp
  split
  · refine ⟨h1, h2, h3, h4, fun b hb => h5 b fun hm => ?_⟩
    have := ((mem_missing c fr b).mp hm).2
    rw [hb] at this; cases this
  · simp

/-- Whether recovery rebuilds a frame (R104, R107). -/
def Rebuilds (c : Config) (fr : Frame) (m : Nat) : Prop :=
  c.k ≤ fr.blockCount.toNat ∧ fr.originalCount.toNat ≠ c.k ∧ (missing c fr).isEmpty = false ∧ decodable c fr m = true

theorem processResult_incomplete {c : Config} {fr : Frame} {m : Nat} (h : fr.blockCount.toNat < c.k) :
    processResult c fr m = (fr, .incomplete) := by simp [processResult, h]

theorem processResult_rebuilt {c : Config} {fr : Frame} {m : Nat} (h : Rebuilds c fr m) :
    processResult c fr m = (writeBack c (decodedOriginals c fr m) fr, .success) := by
  obtain ⟨h1, h2, h3, h4⟩ := h
  simp [processResult, Nat.not_lt.mpr h1, h2, recoverResult, h3, h4]

theorem processResult_failed {c : Config} {fr : Frame} {m : Nat} (h1 : c.k ≤ fr.blockCount.toNat)
    (h2 : fr.originalCount.toNat ≠ c.k) (h3 : (missing c fr).isEmpty = false) (h4 : decodable c fr m = false) :
    processResult c fr m = (fr, .failure) := by
  simp [processResult, Nat.not_lt.mpr h1, h2, recoverResult, h3, h4]

theorem processResult_notNeeded {c : Config} {fr : Frame} {m : Nat} (h1 : c.k ≤ fr.blockCount.toNat)
    (h2 : fr.originalCount.toNat = c.k ∨ (missing c fr).isEmpty = true) :
    processResult c fr m = (fr, .notNeeded) := by
  simp only [processResult, Nat.not_lt.mpr h1, if_false]
  split
  · rfl
  · rw [recoverResult, if_pos (h2.resolve_left ‹_›)]

/-- The state that reaches the jitter buffer. -/
abbrev accounted (fr : Frame) (s : State) : State :=
  account (processResult s.cfg fr (selectM s fr)).1 (selectM s fr) (processResult s.cfg fr (selectM s fr)).2
    (validateStage (processResult s.cfg fr (selectM s fr)).1 (processResult s.cfg fr (selectM s fr)).2
      (processState fr (selectM s fr) s))

theorem accounted_frame (fr : Frame) (s : State) : accounted fr s = { s with
    cachedMeta := (accounted fr s).cachedMeta, correctableErrors := (accounted fr s).correctableErrors
    uncorrectableErrors := (accounted fr s).uncorrectableErrors
    events := (accounted fr s).events, evtStatus := (accounted fr s).evtStatus } := by
  unfold accounted
  rw [account_frame, validateStage_frame, processState_frame]

theorem processFrame_eq (fr : Frame) (s : State) :
    processFrame fr s = jbPush ⟨(processResult s.cfg fr (selectM s fr)).1, sbFor s.cfg (accounted fr s).cachedMeta (processResult s.cfg fr (selectM s fr)).1⟩ (accounted fr s) := by
  have h : (accounted fr s).cfg = s.cfg := by rw [accounted_frame]
  have h2 : processFrame fr s = jbPush ⟨(processResult s.cfg fr (selectM s fr)).1, sbFor (accounted fr s).cfg (accounted fr s).cachedMeta (processResult s.cfg fr (selectM s fr)).1⟩ (accounted fr s) := rfl
  rw [h2, h]

theorem accounted_counters (fr : Frame) (s : State) :
    let m := selectM s fr
    let r := processResult s.cfg fr m
    (0 < shortfall s.cfg r.1 m → (accounted fr s).correctableErrors = s.correctableErrors ∧
      (accounted fr s).uncorrectableErrors = s.uncorrectableErrors + BitVec.ofNat 32 (shortfall s.cfg r.1 m).toNat) ∧
    (¬ 0 < shortfall s.cfg r.1 m →
      (r.2 = .success → (accounted fr s).correctableErrors = s.correctableErrors + r.1.recoveryCount ∧
        (accounted fr s).uncorrectableErrors = s.uncorrectableErrors) ∧
      (r.2 = .notNeeded → (accounted fr s).correctableErrors = s.correctableErrors ∧
        (accounted fr s).uncorrectableErrors = s.uncorrectableErrors) ∧
      (r.2 = .incomplete ∨ r.2 = .failure → (accounted fr s).correctableErrors = s.correctableErrors ∧
        (accounted fr s).uncorrectableErrors = s.uncorrectableErrors + BitVec.ofNat 32 (missing s.cfg r.1).length)) := by
  dsimp only
  unfold accounted
  generalize processResult s.cfg fr (selectM s fr) = r
  have h1 : (validateStage r.1 r.2 (processState fr (selectM s fr) s)).cfg = s.cfg := by
    rw [validateStage_frame, processState_frame]
  have h2 : (validateStage r.1 r.2 (processState fr (selectM s fr) s)).correctableErrors = s.correctableErrors := by
    rw [validateStage_frame, processState_frame]
  have h3 : (validateStage r.1 r.2 (processState fr (selectM s fr) s)).uncorrectableErrors = s.uncorrectableErrors := by
    rw [validateStage_frame, processState_frame]
  generalize validateStage r.1 r.2 (processState fr (selectM s fr) s) = u at h1 h2 h3
  rw [← h1, ← h2, ← h3]
  refine ⟨fun h => ?_, fun h => ⟨fun h' => ?_, fun h' => ?_, fun h' => ?_⟩⟩
  · unfold account; rw [if_pos h]; exact ⟨rfl, rfl⟩
  · unfold account; rw [if_neg h, h']; exact ⟨rfl, rfl⟩
  · unfold account; rw [if_neg h, h']; exact ⟨rfl, rfl⟩
  · unfold account; rw [if_neg h]; rcases h' with h' | h' <;> rw [h'] <;> exact ⟨rfl, rfl⟩

/-! ### JB_PUSH and READ_SAMPLE -/

theorem jbPush_jb_cases (e : JbEntry) (s : State) :
    (jbPush e s).jb = (if s.jb.length = s.cfgJbDepth.toNat then s.jb.tail else s.jb) ++ [e] := by
  rw [jbPush_jb]; congr 1
  split
  · rename_i h
    cases hj : s.jb with
    | nil => rw [jbMakeRoom, if_pos h, hj]; simpa using hj
    | cons o r => rw [jbMakeRoom_full s hj h]; rfl
  · rename_i h; rw [jbMakeRoom_room s h]

theorem jbPush_events (e : JbEntry) (s : State) :
    (jbPush e s).events = s.events ++ (if s.jb.length = s.cfgJbDepth.toNat then
        (s.jb.head?.toList.map fun e => .jbDrop e.frame.frameIndex) else []) := by
  have : (jbPush e s).events = (jbMakeRoom s).events := rfl
  rw [this]
  split
  · rename_i h
    cases hj : s.jb with
    | nil => rw [jbMakeRoom, if_pos h, hj]; simp
    | cons o r => rw [jbMakeRoom_full s hj h]; rfl
  · rename_i h; rw [jbMakeRoom_room s h]; simp

theorem jbPush_cursor (e : JbEntry) (s : State) : (jbPush e s).cursor =
    if s.jb = [] ∨ s.jb.length = s.cfgJbDepth.toNat then ⟨1, 0⟩ else s.cursor := by
  by_cases h : s.jb.length = s.cfgJbDepth.toNat
  · rw [if_pos (.inr h)]
    cases hj : s.jb with
    | nil => simp [jbPush, jbMakeRoom, hj, cursorStart]
    | cons o r => rw [jbPush, jbMakeRoom_full s hj h]; simp [raise, cursorStart]
  · rw [jbPush, jbMakeRoom_room s h]
    simp [h, cursorStart]

/-- The samples of a block for a supported width (44_jitter_buffer.md R121). -/
theorem samplesPerBlock_supported (c : Config) {sb : Byte} {n : Nat} (hn : n = 1 ∨ n = 2 ∨ n = 4)
    (h : sb = BitVec.ofNat 8 n) : samplesPerBlock c sb = c.blockBytes / (2 * n) := by
  rcases hn with rfl | rfl | rfl <;> subst h <;> rfl

theorem readSample_step (isTx : Bool) (s : State) (e : JbEntry) (rest : List JbEntry) (hj : s.jb = e :: rest) :
    readSample isTx s = { s with
      jb := (match nextCursor s.cfg e s.cursor with | some _ => s.jb | none => rest)
      cursor := (match nextCursor s.cfg e s.cursor with | some c => c | none => ⟨1, 0⟩)
      readSamplesCount := s.readSamplesCount + 1#32
      outputs := s.outputs ++ [.sample (samplePair s.cfg isTx e s.cursor).1 (samplePair s.cfg isTx e s.cursor).2] } := by
  unfold readSample
  rw [hj]
  dsimp only [advance]
  split <;> simp_all [emit, cursorStart]

theorem readMany_snoc (isTx : Bool) (n : Nat) (s : State) : readMany isTx (n + 1) s = readSample isTx (readMany isTx n s) := by
  induction n generalizing s with
  | zero => rfl
  | succ n ih => rw [readMany, ih]; rfl

end Sys2Proof.Machine
end

