-- ==== Sys2Proof/Laws/Events.lean ====
section
/-! SUPPORT. What each operation does to the event log and EVT_STATUS: it appends events and sets their bits. -/

namespace Sys2Proof.Machine

/-- The status bits of a list of events. -/
def eventBits : List Event → Word
  | [] => 0#32
  | e :: es => eventBit e ||| eventBits es

theorem eventBits_append (xs ys : List Event) : eventBits (xs ++ ys) = eventBits xs ||| eventBits ys := by
  induction xs with
  | nil => simp [eventBits]
  | cons x xs ih => simp [eventBits, ih, BitVec.or_assoc]

theorem eventBits_getLsbD (es : List Event) (n : Nat) : (eventBits es).getLsbD n = true ↔ ∃ e ∈ es, eventCode e = n + 1 := by
  have h1 : ∀ e, (eventBit e).getLsbD n = true ↔ eventCode e = n + 1 := by
    intro e
    have : eventBit e = BitVec.twoPow 32 (eventCode e - 1) := by simp [eventBit, BitVec.twoPow]
    rw [this, BitVec.getLsbD_twoPow]
    rw [Bool.and_eq_true, decide_eq_true_eq, decide_eq_true_eq]
    cases e <;> simp only [eventCode] <;> omega
  induction es with
  | nil => simp [eventBits]
  | cons e es ih => simp [eventBits, BitVec.getLsbD_or, -BitVec.getLsbD_eq_getElem, h1, ih]

/-- `t` has the log of `s` with at most `n` more events, and their status bits with it. -/
def Raised (n : Nat) (s t : State) : Prop :=
  ∃ es, t.events = s.events ++ es ∧ es.length ≤ n ∧ t.evtStatus = s.evtStatus ||| eventBits es

theorem Raised.refl (n : Nat) {s t : State} (h1 : t.events = s.events) (h2 : t.evtStatus = s.evtStatus) : Raised n s t :=
  ⟨[], by simp [h1], by simp, by simp [h2, eventBits]⟩

theorem Raised.trans {m n : Nat} {s t u : State} (h1 : Raised m s t) (h2 : Raised n t u) : Raised (m + n) s u := by
  obtain ⟨es, a1, a2, a3⟩ := h1
  obtain ⟨fs, b1, b2, b3⟩ := h2
  exact ⟨es ++ fs, by rw [b1, a1, List.append_assoc], by simp; omega, by rw [b3, a3, eventBits_append, BitVec.or_assoc]⟩

theorem Raised.one {n : Nat} (e : Event) {s t : State} (h1 : t.events = s.events ++ [e]) (h2 : t.evtStatus = s.evtStatus ||| eventBit e)
    : Raised (n+1) s t := ⟨[e], h1, by simp, by simp [h2, eventBits]⟩

theorem Raised.congr {n : Nat} {s t u : State} (h : Raised n s t) (h1 : u.events = t.events) (h2 : u.evtStatus = t.evtStatus) :
    Raised n s u := by
  obtain ⟨es, a1, a2, a3⟩ := h; exact ⟨es, by rw [h1, a1], a2, by rw [h2, a3]⟩

theorem Raised.mono {m n : Nat} {s t : State} (h : Raised m s t) (hmn : m ≤ n) : Raised n s t := by
  obtain ⟨es, a1, a2, a3⟩ := h; exact ⟨es, a1, by omega, a3⟩

theorem tqMakeRoom_raised (s : State) : Raised 1 s (tqMakeRoom s) := by
  unfold tqMakeRoom; split
  · split
    · exact .refl _ rfl rfl
    · exact .one _ rfl rfl
  · exact .refl _ rfl rfl

theorem tqPush_raised (fr : Frame) (s : State) : Raised 2 s (tqPush fr s) :=
  (tqMakeRoom_raised s).trans (.one (n := 0) (.tqPush fr.frameIndex) rfl rfl)

theorem fileDatagram_raised (dg : List Byte) (s : State) : Raised 2 s (fileDatagram dg s) := by
  have : Raised 2 s (completeFrame (dgFrameIndex s.cfg dg) s) := by
    unfold completeFrame; split
    · split
      · exact .refl _ rfl rfl
      · exact tqPush_raised _ _
    · exact .refl _ rfl rfl
  exact this.congr rfl rfl

theorem metaValidate_raised (fr : Frame) (s : State) : Raised 1 s (metaValidate fr s) := by
  unfold metaValidate adoptMeta; dsimp only; split
  · split
    · exact .one _ rfl rfl
    · exact .refl _ rfl rfl
  · exact .one _ rfl rfl

theorem recoverState_raised (fr : Frame) (m : Nat) (s : State) : Raised 1 s (recoverState fr m s) := by
  unfold recoverState; split
  · exact .one _ rfl rfl
  · exact .refl _ rfl rfl

theorem processState_raised (fr : Frame) (m : Nat) (s : State) : Raised 1 s (processState fr m s) := by
  unfold processState; split
  · exact .one _ rfl rfl
  · split
    · exact .refl _ rfl rfl
    · exact recoverState_raised _ _ _

theorem validateStage_raised (fr : Frame) (st : RecoverStatus) (s : State) : Raised 1 s (validateStage fr st s) := by
  unfold validateStage; split
  · exact metaValidate_raised _ _
  · exact .refl _ rfl rfl

theorem account_raised (fr : Frame) (m : Nat) (st : RecoverStatus) (s : State) : Raised 1 s (account fr m st s) := by
  unfold account; split
  · exact .one _ rfl rfl
  · split
    · exact .refl _ rfl rfl
    · exact .refl _ rfl rfl
    · exact .one _ rfl rfl
    · exact .one _ rfl rfl

theorem jbPush_raised (e : JbEntry) (s : State) : Raised 1 s (jbPush e s) := by
  have : Raised 1 s (jbMakeRoom s) := by
    unfold jbMakeRoom; split
    · split
      · exact .refl _ rfl rfl
      · exact .one _ rfl rfl
    · exact .refl _ rfl rfl
  exact this.congr rfl rfl

theorem processFrame_raised (fr : Frame) (s : State) : Raised 4 s (processFrame fr s) :=
  (((processState_raised fr (selectM s fr) s).trans (validateStage_raised _ _ _)).trans (account_raised _ _ _ _)).trans
    (jbPush_raised _ _)

theorem readSample_raised (b : Bool) (s : State) : Raised 1 s (readSample b s) := by
  unfold readSample; split
  · exact .one _ rfl rfl
  · refine .refl _ ?_ ?_ <;> dsimp only [emit] <;> rw [advance_frame]

/-! ### E3 (42_fec_recovery.md R111) -/

/-- `t` has the log of `s` with more events, none of them E3. -/
def NoLoss (s t : State) : Prop := ∃ es, t.events = s.events ++ es ∧ es.filter (fun e => eventCode e == 3) = []

theorem NoLoss.refl {s t : State} (h : t.events = s.events) : NoLoss s t := ⟨[], by simp [h], rfl⟩

theorem NoLoss.one {s t : State} (e : Event) (h : t.events = s.events ++ [e]) (he : eventCode e ≠ 3) : NoLoss s t :=
  ⟨[e], h, by simp [he]⟩

theorem NoLoss.trans {s t u : State} (h1 : NoLoss s t) (h2 : NoLoss t u) : NoLoss s u := by
  obtain ⟨es, a1, a2⟩ := h1
  obtain ⟨fs, b1, b2⟩ := h2
  exact ⟨es ++ fs, by rw [b1, a1, List.append_assoc], by rw [List.filter_append, a2, b2]; rfl⟩

theorem recoverState_noLoss (fr : Frame) (m : Nat) (s : State) : NoLoss s (recoverState fr m s) := by
  unfold recoverState; split
  · exact .one _ rfl (by decide : (4 : Nat) ≠ 3)
  · exact .refl rfl

theorem processState_noLoss (fr : Frame) (m : Nat) (s : State) : NoLoss s (processState fr m s) := by
  unfold processState; split
  · exact .one _ rfl (by decide : (2 : Nat) ≠ 3)
  · split
    · exact .refl rfl
    · exact recoverState_noLoss _ _ _

theorem validateStage_noLoss (fr : Frame) (st : RecoverStatus) (s : State) : NoLoss s (validateStage fr st s) := by
  unfold validateStage; split
  · unfold metaValidate adoptMeta; dsimp only; split
    · split
      · exact .one _ rfl (by decide : (6 : Nat) ≠ 3)
      · exact .refl rfl
    · exact .one _ rfl (by decide : (5 : Nat) ≠ 3)
  · exact .refl rfl

theorem jbPush_noLoss (e : JbEntry) (s : State) : NoLoss s (jbPush e s) := by
  refine ⟨_, jbPush_events e s, ?_⟩
  split
  · cases s.jb <;> simp [eventCode]
  · rfl

/-- The events of the accounting: E3 with the lost originals, or none. -/
def accountEvents (c : Config) (fr : Frame) (m : Nat) (status : RecoverStatus) : List Event :=
  if 0 < shortfall c fr m then [.uncorrectable fr.frameIndex (shortfall c fr m).toNat]
  else match status with
    | .success => []
    | .notNeeded => []
    | .incomplete => [.uncorrectable fr.frameIndex (missing c fr).length]
    | .failure => [.uncorrectable fr.frameIndex (missing c fr).length]

theorem account_events (fr : Frame) (m : Nat) (status : RecoverStatus) (s : State) :
    (account fr m status s).events = s.events ++ accountEvents s.cfg fr m status := by
  unfold account accountEvents; split
  · rfl
  · cases status <;> simp [countLost, raise]

theorem accountEvents_all (c : Config) (fr : Frame) (m : Nat) (status : RecoverStatus) :
    (accountEvents c fr m status).filter (fun e => eventCode e == 3) = accountEvents c fr m status := by
  unfold accountEvents; split
  · simp [eventCode]
  · cases status <;> simp [eventCode]

/-- Among the events of one processed frame the E3 events are those of the accounting. -/
theorem processFrame_lost (fr : Frame) (s : State) :
    ∃ new, (processFrame fr s).events = s.events ++ new ∧
      new.filter (fun e => eventCode e == 3) =
        accountEvents s.cfg (processResult s.cfg fr (selectM s fr)).1 (selectM s fr)
          (processResult s.cfg fr (selectM s fr)).2 := by
  obtain ⟨a, a1, a2⟩ := (processState_noLoss fr (selectM s fr) s).trans
    (validateStage_noLoss (processResult s.cfg fr (selectM s fr)).1 (processResult s.cfg fr (selectM s fr)).2 _)
  obtain ⟨b, b1, b2⟩ := jbPush_noLoss ⟨(processResult s.cfg fr (selectM s fr)).1,
    sbFor s.cfg (accounted fr s).cachedMeta (processResult s.cfg fr (selectM s fr)).1⟩ (accounted fr s)
  have hc : (validateStage (processResult s.cfg fr (selectM s fr)).1 (processResult s.cfg fr (selectM s fr)).2
      (processState fr (selectM s fr) s)).cfg = s.cfg := by rw [validateStage_frame, processState_frame]
  rw [processFrame_eq, b1, account_events, hc, a1]
  exact ⟨_, by rw [List.append_assoc, List.append_assoc], by rw [List.filter_append, List.filter_append, a2, b2, accountEvents_all]; simp⟩

/-! ### The events of one processed frame, in their order (42_fec_recovery.md R107) -/

/-- E2 of an incomplete frame, E4 of a failed decode, or none. -/
def recoveryEvents (c : Config) (fr : Frame) (m : Nat) : List Event :=
  match (processResult c fr m).2 with
  | .incomplete => [.incomplete fr.frameIndex fr.blockCount]
  | .failure => [.decodeFail fr.frameIndex (usableCount c fr m)]
  | .notNeeded => []
  | .success => []

theorem processState_events (fr : Frame) (m : Nat) (s : State) :
    (processState fr m s).events = s.events ++ recoveryEvents s.cfg fr m := by
  unfold processState recoveryEvents processResult recoverState
  split
  · rfl
  · split
    · simp
    · unfold recoverResult
      split
      · simp
      · split
        · simp
        · simp [raise]

/-- E5 or E6 of META_VALIDATE, or none. -/
def validationEvents (fr : Frame) (status : RecoverStatus) (s : State) : List Event :=
  let p := payloadOf fr 0
  if status ≠ .incomplete ∧ fr.metaRetrieved = true then
    if crcOk s.cfg p then
      if rateChanges (metaParse s.cfg p) s then [.newSampleRate (cachedRate s) (metaParse s.cfg p).sampleRate] else []
    else [.metaCrc fr.frameIndex (metaCrcComputed s.cfg p) (metaCrcEmbedded s.cfg p)]
  else []

theorem validateStage_events (fr : Frame) (status : RecoverStatus) (s : State) :
    (validateStage fr status s).events = s.events ++ validationEvents fr status s := by
  unfold validateStage validationEvents metaValidate adoptMeta
  dsimp only
  split
  · split
    · split <;> simp [raise]
    · rfl
  · simp

theorem validateStage_cachedMeta (fr : Frame) (status : RecoverStatus) (s : State) :
    (validateStage fr status s).cachedMeta =
      if status ≠ .incomplete ∧ fr.metaRetrieved = true ∧ crcOk s.cfg (payloadOf fr 0) = true then
        some (metaParse s.cfg (payloadOf fr 0)) else s.cachedMeta := by
  unfold validateStage metaValidate adoptMeta
  by_cases h : status ≠ .incomplete ∧ fr.metaRetrieved = true
  · by_cases hc : crcOk s.cfg (payloadOf fr 0) = true
    · simp [h, hc]
    · simp [h, hc, raise]
  · rw [if_neg h, if_neg fun h' => h ⟨h'.1, h'.2.1⟩]

theorem validationEvents_congr (fr : Frame) (status : RecoverStatus) {s t : State} (h1 : t.cfg = s.cfg)
    (h2 : t.cachedMeta = s.cachedMeta) : validationEvents fr status t = validationEvents fr status s := by
  have hr : ∀ m, rateChanges m t = rateChanges m s := fun m => by rw [rateChanges, rateChanges, h2]
  have ho : cachedRate t = cachedRate s := by rw [cachedRate, cachedRate, ofCached, ofCached, h2]
  unfold validationEvents
  dsimp only
  rw [h1, ho, hr]

/-- The events of one processed frame: recovery, validation, accounting, push. -/
theorem processFrame_events (fr : Frame) (s : State) :
    let r := processResult s.cfg fr (selectM s fr)
    (processFrame fr s).events = s.events ++ recoveryEvents s.cfg fr (selectM s fr) ++ validationEvents r.1 r.2 s ++
      accountEvents s.cfg r.1 (selectM s fr) r.2 ++
      (if s.jb.length = s.cfgJbDepth.toNat then
        (s.jb.head?.toList.map fun e => .jbDrop e.frame.frameIndex) else []) := by
  dsimp only
  have hc : (processState fr (selectM s fr) s).cfg = s.cfg := by rw [processState_frame]
  have hm : (processState fr (selectM s fr) s).cachedMeta = s.cachedMeta := by rw [processState_frame]
  have hv : (validateStage (processResult s.cfg fr (selectM s fr)).1 (processResult s.cfg fr (selectM s fr)).2
      (processState fr (selectM s fr) s)).cfg = s.cfg := by rw [validateStage_frame, processState_frame]
  have hj : (accounted fr s).jb = s.jb ∧ (accounted fr s).cfgJbDepth = s.cfgJbDepth := by
    rw [accounted_frame]; exact ⟨rfl, rfl⟩
  rw [processFrame_eq, jbPush_events, hj.1, hj.2]
  congr 1
  rw [accounted, account_events, validateStage_events, processState_events, hv, validationEvents_congr _ _ hc hm]

/-- The descriptor cached after one processed frame. -/
theorem processFrame_cachedMeta (fr : Frame) (s : State) :
    let r := processResult s.cfg fr (selectM s fr)
    (processFrame fr s).cachedMeta =
      if r.2 ≠ .incomplete ∧ r.1.metaRetrieved = true ∧ crcOk s.cfg (payloadOf r.1 0) = true then
        some (metaParse s.cfg (payloadOf r.1 0)) else s.cachedMeta := by
  dsimp only
  have hc : (processState fr (selectM s fr) s).cfg = s.cfg := by rw [processState_frame]
  have hm : (processState fr (selectM s fr) s).cachedMeta = s.cachedMeta := by rw [processState_frame]
  rw [processFrame_eq, jbPush_frame]
  show (accounted fr s).cachedMeta = _
  rw [accounted, account_frame]
  show (validateStage _ _ _).cachedMeta = _
  rw [validateStage_cachedMeta, hc, hm]

end Sys2Proof.Machine
end

