-- ==== Sys2Proof/Laws/Fields.lean ====
section
/-! SUPPORT. Fields of a byte sequence as concatenations of bytes, converted components as shifts, and
CRC-32: a step of the register loses nothing when the generator has its constant term. -/

namespace Sys2Proof.Machine

/-! ### Fields -/

theorem append_toNat {n : Nat} (x : BitVec n) (b : Byte) : (x ++ b).toNat = b.toNat + 256 * x.toNat := by
  have := b.isLt
  rw [BitVec.toNat_append, Nat.shiftLeft_eq, Nat.mul_comm, ← Nat.two_pow_add_eq_or_of_lt b.isLt]; omega

theorem readField_little_two (c : Config) (hc : c.wireEndian = .little) (p : List Byte) (o : Nat) :
    readField c.wireEndian 2 p o = byteAt p (o+1) ++ byteAt p o := by
  simp only [readField, hc, orient, fieldBytes]
  apply BitVec.eq_of_toNat_eq
  rw [append_toNat]
  simp [List.range, List.range.loop, leNat]
  omega

theorem readField_little_four (c : Config) (hc : c.wireEndian = .little) (p : List Byte) (o : Nat) :
    readField c.wireEndian 4 p o = byteAt p (o+3) ++ byteAt p (o+2) ++ byteAt p (o+1) ++ byteAt p o := by
  simp only [readField, hc, orient, fieldBytes]
  apply BitVec.eq_of_toNat_eq
  rw [append_toNat, append_toNat, append_toNat]
  simp [List.range, List.range.loop, leNat]
  omega

theorem readField_little_eight (c : Config) (hc : c.wireEndian = .little) (p : List Byte) (o : Nat) :
    readField c.wireEndian 8 p o = byteAt p (o+7) ++ byteAt p (o+6) ++ byteAt p (o+5) ++ byteAt p (o+4) ++ byteAt p (o+3) ++ byteAt p (o+2) ++ byteAt p (o+1) ++ byteAt p o := by
  simp only [readField, hc, orient, fieldBytes]
  apply BitVec.eq_of_toNat_eq
  rw [append_toNat, append_toNat, append_toNat, append_toNat, append_toNat, append_toNat, append_toNat]
  simp [List.range, List.range.loop, leNat]
  omega

theorem fieldBytes_drop (p : List Byte) (off n : Nat) (h : p.length = off + n) : fieldBytes p off n = p.drop off := by
  apply List.ext_getElem
  · simp [fieldBytes, h]
  · intro i h1 h2
    simp [fieldBytes, byteAt, List.getD_eq_getElem?_getD]
    simp [fieldBytes] at h1
    rw [List.getElem?_eq_getElem (by omega)]; rfl

theorem fieldBytes_set (p : List Byte) (i : Nat) (v : Byte) (off n : Nat) :
    fieldBytes (p.set i v) off n = if i < p.length ∧ off ≤ i ∧ i < off + n then (fieldBytes p off n).set (i - off) v else fieldBytes p off n := by
  apply List.ext_getElem
  · split <;> simp [fieldBytes]
  · intro j h1 h2
    have hj : j < n := by simpa [fieldBytes] using h1
    by_cases hi : i < p.length
    · by_cases he : i = off + j
      · subst he
        simp [fieldBytes, byteAt, List.getD_eq_getElem?_getD, hi, hj]
      · have : (fieldBytes (p.set i v) off n)[j] = (fieldBytes p off n)[j]'(by simpa [fieldBytes] using hj) := by
          simp [fieldBytes, byteAt, List.getD_eq_getElem?_getD, List.getElem?_set_ne he]
        rw [this]
        split
        · rw [List.getElem_set_ne (by omega)]
        · rfl
    · simp [hi, List.set_eq_of_length_le (Nat.le_of_not_lt hi)]

/-! ### Components as shifts -/

theorem ofInt_ediv_two_pow (x : Word) (n : Nat) : BitVec.ofInt 32 (x.toInt / 2 ^ n) = x.sshiftRight n := by
  apply BitVec.eq_of_toInt_eq
  rw [BitVec.toInt_sshiftRight, Int.shiftRight_eq_div_pow, BitVec.toInt_ofInt]
  have h1 := BitVec.toInt_lt (x := x)
  have h2 := BitVec.le_toInt (x := x)
  have hp : (0:Int) < 2 ^ n := by positivity
  have hp1 : (1:Int) ≤ 2 ^ n := hp
  norm_num at h1 h2
  have h3 : x.toInt / 2 ^ n < 2 ^ 31 := by
    rw [Int.ediv_lt_iff_lt_mul hp]; nlinarith
  have h4 : -2 ^ 31 ≤ x.toInt / 2 ^ n := by
    rw [Int.le_ediv_iff_mul_le hp]; nlinarith
  push_cast
  rw [Int.bmod_eq_of_le] <;> omega

theorem ofInt_mul_two_pow {w : Nat} (b : BitVec w) (n : Nat) : BitVec.ofInt 32 (b.toInt * 2 ^ n) = b.signExtend 32 <<< n := by
  have h1 : BitVec.ofInt 32 b.toInt = b.signExtend 32 := by simp [BitVec.signExtend]
  rw [BitVec.ofInt_mul, h1, BitVec.shiftLeft_eq_mul_twoPow]
  congr 1
  apply BitVec.eq_of_toNat_eq
  rw [BitVec.toNat_ofInt, BitVec.toNat_twoPow]
  rfl

/-! ### CRC-32 -/

theorem crcStepRight_inj {q a b : Word} (hq : q.getLsbD 31 = true) (h : crcStepRight q a = crcStepRight q b) : a = b := by
  apply BitVec.eq_of_getLsbD_eq
  have e : ∀ i, (crcStepRight q a).getLsbD i = (crcStepRight q b).getLsbD i := fun i => by rw [h]
  have k : ∀ (c : Word) i, (crcStepRight q c).getLsbD i = (c.getLsbD (i+1) ^^ (c.getLsbD 0 && q.getLsbD i)) := by
    intro c i; unfold crcStepRight
    cases hc : c.getLsbD 0 <;> simp [Nat.add_comm]
  have e31 := e 31
  rw [k, k, hq] at e31
  simp at e31
  intro i hi
  cases i with
  | zero => exact e31
  | succ i =>
    have hz : a.getLsbD 0 = b.getLsbD 0 := by simpa using e31
    have := e i; rw [k, k, hz] at this; simpa using this

theorem crcStepLeft_inj {q a b : Word} (hq : q.getLsbD 0 = true) (h : crcStepLeft q a = crcStepLeft q b) : a = b := by
  apply BitVec.eq_of_getLsbD_eq
  have e : ∀ i, (crcStepLeft q a).getLsbD i = (crcStepLeft q b).getLsbD i := fun i => by rw [h]
  have k : ∀ (c : Word) i, i < 32 → (crcStepLeft q c).getLsbD i = ((decide (1 ≤ i) && c.getLsbD (i-1)) ^^ (c.getLsbD 31 && q.getLsbD i)) := by
    intro c i hi; unfold crcStepLeft
    cases hc : c.getLsbD 31 <;> cases i <;> simp_all <;> rw [BitVec.getLsbD_eq_getElem (by omega)]
  have e0 := e 0
  rw [k _ _ (by omega), k _ _ (by omega), hq] at e0
  simp at e0
  intro i hi
  by_cases h31 : i = 31
  · subst h31; exact e0
  · have := e (i+1)
    have hz : a.getLsbD 31 = b.getLsbD 31 := by simpa using e0
    rw [k _ _ (by omega), k _ _ (by omega), hz] at this
    simpa using this

theorem repeatStep_inj {f : Word → Word} (hf : ∀ a b, f a = f b → a = b) (n : Nat) {a b : Word}
    (h : repeatStep f n a = repeatStep f n b) : a = b := by
  induction n generalizing a b with
  | zero => exact h
  | succ n ih => exact hf _ _ (ih h)

theorem crcByte_inj {k : CrcParams} (hk : k.poly.getLsbD 0 = true) {c d : Word} {x y : Byte}
    (h : crcByte k c x = crcByte k d y) : (x = y → c = d) ∧ (c = d → x = y) := by
  unfold crcByte at h
  split at h
  · have := repeatStep_inj (fun a b => crcStepRight_inj (by rw [BitVec.getLsbD_reverse, BitVec.getMsbD]; simpa using hk)) 8 h
    refine ⟨fun e => by subst e; simpa using this, fun e => ?_⟩
    subst e
    have := BitVec.xor_right_inj c |>.mp this
    have := congrArg (BitVec.setWidth 8) this
    simpa using this
  · have := repeatStep_inj (fun a b => crcStepLeft_inj hk) 8 h
    refine ⟨fun e => by subst e; simpa using this, fun e => ?_⟩
    subst e
    have := BitVec.xor_right_inj c |>.mp this
    have := congrArg (fun z : Word => BitVec.setWidth 8 (z >>> 24)) this
    apply BitVec.eq_of_getLsbD_eq
    intro i hi
    have := congrArg (fun z => z.getLsbD i) this
    simp [show 24 + i < 32 by omega, hi] at this
    rw [BitVec.getLsbD_eq_getElem hi, BitVec.getLsbD_eq_getElem hi]; exact this

theorem foldl_crc_inj {k : CrcParams} (hk : k.poly.getLsbD 0 = true) (xs : List Byte) {c d : Word}
    (h : xs.foldl (crcByte k) c = xs.foldl (crcByte k) d) : c = d := by
  induction xs generalizing c d with
  | nil => exact h
  | cons x xs ih => exact (crcByte_inj hk (ih h)).1 rfl

theorem foldl_crc_set {k : CrcParams} (hk : k.poly.getLsbD 0 = true) (xs : List Byte) (c : Word) (n : Nat) (v : Byte)
    (hn : n < xs.length) (h : (xs.set n v).foldl (crcByte k) c = xs.foldl (crcByte k) c) : xs[n] = v := by
  induction xs generalizing c n with
  | nil => simp at hn
  | cons x xs ih =>
    cases n with
    | zero => exact ((crcByte_inj hk (foldl_crc_inj hk _ h)).2 rfl).symm
    | succ n => exact ih _ n (by simpa using hn) h

end Sys2Proof.Machine
end

