-- ==== Sys2Proof/Laws/Galois.lean ====
section
/-! SUPPORT. Sums and multiples of blocks over the default field, and what the elimination of the decoder
does: it finds the one solution of its equations. -/

namespace Sys2Proof.Machine

/-! ### Blocks -/

theorem gscale_one (xs : List Byte) : gscale 0x14D#9 1#8 xs = xs := by
  induction xs with
  | nil => rfl
  | cons x xs ih => simpa [gscale, gmul_one] using ih

theorem gscale_gadd (a : Byte) (xs ys : List Byte) : gscale 0x14D#9 a (gadd xs ys) = gadd (gscale 0x14D#9 a xs) (gscale 0x14D#9 a ys) := by
  simp only [gscale, gadd, List.map_zipWith, List.zipWith_map, gmul_xor_right]

theorem gscale_gscale (a b : Byte) (xs : List Byte) : gscale 0x14D#9 a (gscale 0x14D#9 b xs) = gscale 0x14D#9 (gmul 0x14D#9 a b) xs := by
  simp [gscale, ← gmul_assoc]

theorem gadd_assoc (xs ys zs : List Byte) : gadd (gadd xs ys) zs = gadd xs (gadd ys zs) := by
  induction xs generalizing ys zs with
  | nil => simp [gadd]
  | cons x xs ih =>
    cases ys <;> cases zs <;> simp [gadd, BitVec.xor_assoc]
    simpa [gadd] using ih _ _

theorem gadd_comm (xs ys : List Byte) : gadd xs ys = gadd ys xs := by
  unfold gadd; rw [List.zipWith_comm]; congr 1; funext a b; exact BitVec.xor_comm _ _

theorem gadd_self {n : Nat} (xs : List Byte) (h : xs.length = n) : gadd xs xs = List.replicate n 0#8 := by
  induction xs generalizing n with
  | nil => simp at h; subst h; rfl
  | cons x xs ih => obtain ⟨n, rfl⟩ : ∃ m, n = m + 1 := ⟨_, h.symm⟩; simpa [gadd, List.replicate_succ] using ih (by simpa using h)

theorem gadd_zero {n : Nat} (xs : List Byte) (h : xs.length = n) : gadd (List.replicate n 0#8) xs = xs := by
  induction xs generalizing n with
  | nil => simp [gadd]
  | cons x xs ih => obtain ⟨n, rfl⟩ : ∃ m, n = m + 1 := ⟨_, h.symm⟩; simpa [gadd, List.replicate_succ] using ih (by simpa using h)

theorem gscale_zero (a : Byte) (n : Nat) : gscale 0x14D#9 a (List.replicate n 0#8) = List.replicate n 0#8 := by
  simp [gscale, gmul_zero_right]

theorem gscale_xor (a b : Byte) (xs : List Byte) : gscale 0x14D#9 (a ^^^ b) xs = gadd (gscale 0x14D#9 a xs) (gscale 0x14D#9 b xs) := by
  induction xs with
  | nil => rfl
  | cons x xs ih => simp [gscale, gadd, gmul_xor_left]

/-- acc comes out. -/
theorem gcombine_acc {n : Nat} (as : List Byte) (o : List (List Byte)) (acc : List Byte) (ha : acc.length = n)
    (ho : ∀ x ∈ o, x.length = n) :
    gcombine 0x14D#9 as o acc = gadd acc (gcombine 0x14D#9 as o (List.replicate n 0#8)) := by
  induction as generalizing o acc with
  | nil => simp only [gcombine]; rw [gadd_comm, gadd_zero _ ha]
  | cons a as ih =>
    cases o with
    | nil => simp only [gcombine]; rw [gadd_comm, gadd_zero _ ha]
    | cons x o =>
      have hx := ho x List.mem_cons_self
      have ho' := fun y hy => ho y (List.mem_cons_of_mem _ hy)
      have hs : (gscale 0x14D#9 a x).length = n := by rw [gscale_length, hx]
      simp only [gcombine]
      rw [ih o _ (by rw [gadd_length, hs, ha, Nat.min_self]) ho', gadd_zero _ hs, ih o _ hs ho', gadd_assoc]

theorem gcombine_gscale {n : Nat} (a : Byte) (as : List Byte) (o : List (List Byte)) (acc : List Byte)
    (ho : ∀ x ∈ o, x.length = n) :
    gcombine 0x14D#9 (gscale 0x14D#9 a as) o (gscale 0x14D#9 a acc) = gscale 0x14D#9 a (gcombine 0x14D#9 as o acc) := by
  induction as generalizing o acc with
  | nil => simp [gscale, gcombine]
  | cons b as ih =>
    cases o with
    | nil => simp [gscale, gcombine]
    | cons x o =>
      have : gscale 0x14D#9 a (b :: as) = gmul 0x14D#9 a b :: gscale 0x14D#9 a as := rfl
      simp only [this, gcombine]
      rw [← gscale_gscale, ← gscale_gadd, ih _ _ fun y hy => ho y (List.mem_cons_of_mem _ hy)]

theorem gcombine_gadd (as bs : List Byte) (o : List (List Byte)) (x y : List Byte)
    (hab : as.length = bs.length) :
    gcombine 0x14D#9 (gadd as bs) o (gadd x y) = gadd (gcombine 0x14D#9 as o x) (gcombine 0x14D#9 bs o y) := by
  induction as generalizing bs o x y with
  | nil => cases bs <;> simp at hab; simp [gadd, gcombine]
  | cons a as ih =>
    obtain ⟨b, bs, rfl⟩ := List.exists_cons_of_length_eq_add_one hab.symm
    cases o with
    | nil => simp [gadd, gcombine]
    | cons z o =>
      have : gadd (a :: as) (b :: bs) = (a ^^^ b) :: gadd as bs := rfl
      simp only [this, gcombine]
      rw [← ih _ _ _ _ (by simpa using hab), gscale_xor]
      congr 1
      rw [gadd_assoc, gadd_assoc]; congr 1
      rw [← gadd_assoc, gadd_comm y, gadd_assoc]

theorem takePivot_leading {qs : List Equation} {p : Equation} {rest : List Equation}
    (h : takePivot qs = some (p, rest)) : leading p ≠ 0#8 := by
  induction qs generalizing p rest with
  | nil => cases h
  | cons q qs ih =>
    simp only [takePivot] at h
    split at h
    · split at h
      · rename_i hr; cases h; exact ih hr
      · cases h
    · rename_i hl; cases h; exact hl

/-! ### Sums of products of two vectors -/

theorem gdot_gadd (poly : BitVec 9) (as bs xs : List Byte) (h : as.length = bs.length) :
    gdot poly (gadd as bs) xs = gdot poly as xs ^^^ gdot poly bs xs := by
  induction as generalizing bs xs with
  | nil => cases bs <;> simp at h; simp [gadd, gdot]
  | cons a as ih =>
    obtain ⟨b, bs, rfl⟩ := List.exists_cons_of_length_eq_add_one h.symm
    cases xs with
    | nil => simp [gadd, gdot]
    | cons x xs =>
      have : gadd (a :: as) (b :: bs) = (a ^^^ b) :: gadd as bs := rfl
      simp only [this, gdot]
      rw [ih _ _ (by simpa using h), gmul_xor_left]
      ac_rfl

theorem gdot_gscale (a : Byte) (as xs : List Byte) :
    gdot 0x14D#9 (gscale 0x14D#9 a as) xs = gmul 0x14D#9 a (gdot 0x14D#9 as xs) := by
  induction as generalizing xs with
  | nil => simp [gscale, gdot, gmul_zero_right]
  | cons b as ih =>
    cases xs with
    | nil => simp [gscale, gdot, gmul_zero_right]
    | cons x xs =>
      have : gscale 0x14D#9 a (b :: as) = gmul 0x14D#9 a b :: gscale 0x14D#9 a as := rfl
      simp only [this, gdot]
      rw [ih, gmul_xor_right, gmul_assoc]

theorem gdot_zero (poly : BitVec 9) (as : List Byte) (n : Nat) : gdot poly as (List.replicate n 0#8) = 0#8 := by
  induction as generalizing n with
  | nil => simp [gdot]
  | cons a as ih => cases n <;> simp [gdot, List.replicate_succ, gmul_zero_right, ih]

/-! ### The elimination -/

theorem takePivot_none {qs : List Equation} (h : takePivot qs = none) : ∀ q ∈ qs, leading q = 0#8 := by
  induction qs with
  | nil => simp
  | cons q qs ih =>
    simp only [takePivot] at h
    split at h
    · rename_i hl
      split at h
      · cases h
      · rename_i hn
        exact List.forall_mem_cons.mpr ⟨hl, ih hn⟩
    · cases h

/-- Every equation is the pivot or one of the rest, and the rest are one fewer. -/
theorem takePivot_all {qs : List Equation} {p : Equation} {rest : List Equation}
    (h : takePivot qs = some (p, rest)) : (∀ q ∈ qs, q = p ∨ q ∈ rest) ∧ qs.length = rest.length + 1 := by
  induction qs generalizing p rest with
  | nil => cases h
  | cons q qs ih =>
    simp only [takePivot] at h
    split at h
    · split at h
      · rename_i hr
        cases h
        obtain ⟨h1, h2⟩ := ih hr
        refine ⟨List.forall_mem_cons.mpr ⟨.inr List.mem_cons_self, fun r hr => ?_⟩, by simp [h2]⟩
        exact (h1 r hr).imp_right (List.mem_cons_of_mem _)
      · cases h
    · cases h
      exact ⟨List.forall_mem_cons.mpr ⟨.inl rfl, fun r hr => .inr hr⟩, rfl⟩

/-- Equations that only 0 solves with right sides 0 have all their pivots. -/
theorem solve_total (n : Nat) (qs : List Equation) (hl : ∀ q ∈ qs, q.coefs.length = n)
    (h0 : ∀ x : List Byte, x.length = n → (∀ q ∈ qs, gdot 0x14D#9 q.coefs x = 0#8) → ∀ b ∈ x, b = 0#8) :
    (solve 0x14D#9 n qs).isSome = true := by
  induction n generalizing qs with
  | zero => rfl
  | succ n ih =>
    have key : ∀ q ∈ qs, ∃ cs, q.coefs = leading q :: cs ∧ q.coefs.tail = cs ∧ cs.length = n := by
      intro q hq
      obtain ⟨l, cs, hc⟩ := List.exists_cons_of_length_eq_add_one (hl q hq)
      exact ⟨cs, by simp [leading, hc], by simp [hc], by simpa [hc] using hl q hq⟩
    simp only [solve]
    split
    · rename_i hn
      have := h0 (1#8 :: List.replicate n 0#8) (by simp) (fun q hq => by
        obtain ⟨cs, hc, -, -⟩ := key q hq
        rw [hc, takePivot_none hn q hq, gdot, gdot_zero, gmul_zero_left]; rfl) 1#8 List.mem_cons_self
      exact absurd this (by decide)
    · rename_i q rest hp
      obtain ⟨hq, hr⟩ := takePivot_mem hp
      obtain ⟨cs, hc, ht, hcl⟩ := key q hq
      have hi : gmul 0x14D#9 (leading q) (ginv 0x14D#9 (leading q)) = 1#8 := gmul_ginv (takePivot_leading hp)
      have hpl : (scaledTail 0x14D#9 (ginv 0x14D#9 (leading q)) q).coefs.length = n := by
        simp [scaledTail, gscale_length, ht, hcl]
      have := ih (rest.map (eliminate 0x14D#9 (scaledTail 0x14D#9 (ginv 0x14D#9 (leading q)) q)))
        (by
          intro e he
          obtain ⟨r, hrm, rfl⟩ := List.mem_map.mp he
          obtain ⟨cs', -, ht', hcl'⟩ := key r (hr r hrm)
          simp [eliminate, gadd_length, gscale_length, hpl, ht', hcl'])
        (by
          intro y hy hz b hb
          refine h0 (gdot 0x14D#9 (scaledTail 0x14D#9 (ginv 0x14D#9 (leading q)) q).coefs y :: y) (by simp [hy])
            (fun q' hq' => ?_) b (List.mem_cons_of_mem _ hb)
          rcases (takePivot_all hp).1 q' hq' with rfl | hq'
          · rw [hc, gdot]
            simp only [scaledTail, ht]
            rw [gdot_gscale, ← gmul_assoc, hi, gmul_one, BitVec.xor_self]
          · obtain ⟨cs', hc', ht', hcl'⟩ := key q' (hr q' hq')
            have := hz _ (List.mem_map.mpr ⟨q', hq', rfl⟩)
            simp only [eliminate, ht'] at this
            rw [gdot_gadd _ _ _ _ (by rw [gscale_length, hcl', hpl]), gdot_gscale] at this
            rw [hc', gdot, BitVec.xor_comm]; exact this)
      obtain ⟨xs, hxs⟩ := Option.isSome_iff_exists.mp this
      simp [hxs]

/-- An equation holds of the blocks. -/
def Holds (m : Nat) (o : List (List Byte)) (q : Equation) : Prop :=
  q.coefs.length = o.length ∧ q.rhs = gcombine 0x14D#9 q.coefs o (List.replicate m 0#8)

/-- As many equations as unknowns: the blocks found solve every equation. -/
theorem solve_sound (m n : Nat) (qs : List Equation) (xs : List (List Byte)) (hn : qs.length = n)
    (hl : ∀ q ∈ qs, q.coefs.length = n ∧ q.rhs.length = m) (h : solve 0x14D#9 n qs = some xs) :
    ∀ q ∈ qs, Holds m xs q := by
  induction n generalizing qs xs with
  | zero => rw [List.eq_nil_of_length_eq_zero hn]; simp
  | succ n ih =>
    obtain ⟨hxl, hxm⟩ := solve_length _ _ _ _ (fun q hq => (hl q hq).2) h
    simp only [solve] at h
    split at h
    · cases h
    rename_i q rest hp
    obtain ⟨hq, hr⟩ := takePivot_mem hp
    have key : ∀ q ∈ qs, ∃ cs, q.coefs = leading q :: cs ∧ q.coefs.tail = cs ∧ cs.length = n := by
      intro q hq
      obtain ⟨l, cs, hc⟩ := List.exists_cons_of_length_eq_add_one (hl q hq).1
      exact ⟨cs, by simp [leading, hc], by simp [hc], by simpa [hc] using (hl q hq).1⟩
    obtain ⟨cs, hc, ht, hcl⟩ := key q hq
    have hi : gmul 0x14D#9 (leading q) (ginv 0x14D#9 (leading q)) = 1#8 := gmul_ginv (takePivot_leading hp)
    split at h
    · cases h
    rename_i ys hs
    cases h
    have hym : ∀ y ∈ ys, y.length = m := fun y hy => hxm y (List.mem_cons_of_mem _ hy)
    have hyl : ys.length = n := by simpa using hxl
    have hpc : (scaledTail 0x14D#9 (ginv 0x14D#9 (leading q)) q).coefs = gscale 0x14D#9 (ginv 0x14D#9 (leading q)) cs := by
      simp [scaledTail, ht]
    have hpr : (scaledTail 0x14D#9 (ginv 0x14D#9 (leading q)) q).rhs = gscale 0x14D#9 (ginv 0x14D#9 (leading q)) q.rhs := rfl
    have hprm : (scaledTail 0x14D#9 (ginv 0x14D#9 (leading q)) q).rhs.length = m := by
      rw [hpr, gscale_length, (hl q hq).2]
    have hpl : (scaledTail 0x14D#9 (ginv 0x14D#9 (leading q)) q).coefs.length = n := by rw [hpc, gscale_length, hcl]
    have IH := ih _ ys (by simpa [hn] using (takePivot_all hp).2.symm) (by
      intro e he
      obtain ⟨r, hrm, rfl⟩ := List.mem_map.mp he
      obtain ⟨cs', -, ht', hcl'⟩ := key r (hr r hrm)
      simp [eliminate, gadd_length, gscale_length, hpl, hprm, ht', hcl', (hl r (hr r hrm)).2]) hs
    have zero_len : ∀ as : List Byte, (gcombine 0x14D#9 as ys (List.replicate m 0#8)).length = m :=
      fun as => gcombine_length _ _ _ _ (by simp) hym
    -- an equation `l x + cs ys`, with the first block found put in for `x`
    have unfold_eq : ∀ l cs, gcombine 0x14D#9 (l :: cs)
        (gcombine 0x14D#9 (scaledTail 0x14D#9 (ginv 0x14D#9 (leading q)) q).coefs ys
          (scaledTail 0x14D#9 (ginv 0x14D#9 (leading q)) q).rhs :: ys) (List.replicate m 0#8) =
        gadd (gscale 0x14D#9 l (scaledTail 0x14D#9 (ginv 0x14D#9 (leading q)) q).rhs)
          (gadd (gcombine 0x14D#9 (gscale 0x14D#9 l (scaledTail 0x14D#9 (ginv 0x14D#9 (leading q)) q).coefs) ys
            (List.replicate m 0#8)) (gcombine 0x14D#9 cs ys (List.replicate m 0#8))) := by
      intro l cs
      have hm0 : (gcombine 0x14D#9 (scaledTail 0x14D#9 (ginv 0x14D#9 (leading q)) q).coefs ys
          (scaledTail 0x14D#9 (ginv 0x14D#9 (leading q)) q).rhs).length = m := gcombine_length _ _ _ _ hprm hym
      rw [gcombine, gadd_zero _ (by rw [gscale_length, hm0]), gcombine_acc _ _ _ (by rw [gscale_length, hm0]) hym,
        gcombine_acc _ _ _ hprm hym, gscale_gadd, gadd_assoc]
      congr 2
      conv => rhs; rw [← gscale_zero l m]
      rw [gcombine_gscale _ _ _ _ hym]
    intro r hrq
    rcases (takePivot_all hp).1 r hrq with rfl | hrr
    · refine ⟨by simp [hc, hcl, hyl], ?_⟩
      rw [hc, unfold_eq, hpc, hpr, gscale_gscale, hi, gscale_one, gscale_gscale, hi, gscale_one,
        gadd_self _ (zero_len cs), gadd_comm, gadd_zero _ (hl r hq).2]
    · obtain ⟨cs', hc', ht', hcl'⟩ := key r hrq
      obtain ⟨-, e⟩ := IH _ (List.mem_map.mpr ⟨r, hrr, rfl⟩)
      refine ⟨by simp [hc', hcl', hyl], ?_⟩
      simp only [eliminate, ht'] at e
      have z : List.replicate m 0#8 = gadd (List.replicate m 0#8) (List.replicate m 0#8) :=
        (gadd_zero _ (by simp)).symm
      rw [z, gcombine_gadd _ _ _ _ _ (by rw [gscale_length, hcl', hpl])] at e
      rw [hc', unfold_eq]
      rw [gadd_comm (gcombine 0x14D#9 (gscale 0x14D#9 (leading r) _) ys _), ← e, gadd_comm r.rhs, ← gadd_assoc,
        gadd_self _ (by rw [gscale_length, hprm]), gadd_zero _ (hl r hrq).2]

/-- Blocks of which every equation holds are the blocks found. -/
theorem solve_eq (m : Nat) (n : Nat) (qs : List Equation) (o o' : List (List Byte)) (hn : o.length = n)
    (hx : ∀ x ∈ o, x.length = m) (hq : ∀ q ∈ qs, Holds m o q) (h : solve 0x14D#9 n qs = some o') : o' = o := by
  induction n generalizing qs o o' with
  | zero => cases h; exact (List.eq_nil_of_length_eq_zero hn).symm
  | succ n ih =>
    obtain ⟨x, o, rfl⟩ := List.exists_cons_of_length_eq_add_one hn
    have hxl := hx x List.mem_cons_self
    have hol := fun y hy => hx y (List.mem_cons_of_mem _ hy)
    simp only [solve] at h
    split at h
    · cases h
    rename_i q rest hp
    obtain ⟨hq1, hq2⟩ := takePivot_mem hp
    have hlead := takePivot_leading hp
    have key : ∀ q ∈ qs, ∃ l cs, q.coefs = l :: cs ∧ cs.length = o.length ∧
        q.rhs = gadd (gscale 0x14D#9 l x) (gcombine 0x14D#9 cs o (List.replicate m 0#8)) := by
      intro q hqm
      obtain ⟨h1, h2⟩ := hq q hqm
      obtain ⟨l, cs, hc⟩ := List.exists_cons_of_length_eq_add_one h1
      refine ⟨l, cs, hc, by simpa [hc] using h1, ?_⟩
      rw [h2, hc]
      simp only [gcombine]
      have hs : (gscale 0x14D#9 l x).length = m := by rw [gscale_length, hxl]
      rw [gadd_zero _ hs, gcombine_acc cs o _ hs hol]
    obtain ⟨l, cs, hc, hcl, hr⟩ := key q hq1
    have hl : leading q = l := by simp [leading, hc]
    rw [hl] at h hlead
    have hi : gmul 0x14D#9 (ginv 0x14D#9 l) l = 1#8 := by rw [gmul_comm, gmul_ginv hlead]
    have hG : (gcombine 0x14D#9 cs o (List.replicate m 0#8)).length = m := gcombine_length 0x14D#9 cs o _ (by simp) hol
    -- the pivot equation
    have hpr : (scaledTail 0x14D#9 (ginv 0x14D#9 l) q).rhs =
        gadd x (gcombine 0x14D#9 (scaledTail 0x14D#9 (ginv 0x14D#9 l) q).coefs o (List.replicate m 0#8)) := by
      simp only [scaledTail, hr, hc, List.tail_cons]
      rw [gscale_gadd, gscale_gscale, hi, gscale_one, ← gcombine_gscale _ _ _ _ hol, gscale_zero]
    have hpc : (scaledTail 0x14D#9 (ginv 0x14D#9 l) q).coefs.length = o.length := by simp [scaledTail, hc, gscale_length, hcl]
    generalize scaledTail 0x14D#9 (ginv 0x14D#9 l) q = p at h hpr hpc
    have hpG : (gcombine 0x14D#9 p.coefs o (List.replicate m 0#8)).length = m := gcombine_length 0x14D#9 _ o _ (by simp) hol
    split at h
    · cases h
    rename_i xs hs
    cases h
    have := ih _ o xs (by simpa using hn) hol (by
      intro r0 hr0
      obtain ⟨r, hrm, rfl⟩ := List.mem_map.mp hr0
      obtain ⟨l', cs', hc', hcl', hr'⟩ := key r (hq2 r hrm)
      have hl' : leading r = l' := by simp [leading, hc']
      refine ⟨by simp [eliminate, hc', gadd_length, gscale_length, hpc, hcl'], ?_⟩
      have hG' : (gcombine 0x14D#9 cs' o (List.replicate m 0#8)).length = m := gcombine_length 0x14D#9 cs' o _ (by simp) hol
      have hs : (gscale 0x14D#9 l' x).length = m := by rw [gscale_length, hxl]
      simp only [eliminate, hl', hr', hc', List.tail_cons, hpr]
      have h0 : List.replicate m 0#8 = gadd (List.replicate m 0#8) (gscale 0x14D#9 l' (List.replicate m 0#8)) := by
        rw [gscale_zero, gadd_zero _ (by simp)]
      conv => rhs; rw [h0]
      rw [gcombine_gadd _ _ _ _ _ (by simp [gscale_length, hcl', hpc]), gcombine_gscale _ _ _ _ hol, gscale_gadd]
      rw [gadd_comm (gscale 0x14D#9 l' x), gadd_assoc, ← gadd_assoc (gscale 0x14D#9 l' x), gadd_self _ hs, gadd_zero _ (by rw [gscale_length, hpG])]) hs
    subst this
    have : gcombine 0x14D#9 p.coefs xs p.rhs = x := by
      rw [gcombine_acc p.coefs xs p.rhs (by rw [hpr, gadd_length, hxl, hpG, Nat.min_self]) hol, hpr, gadd_assoc,
        gadd_self _ hpG, gadd_comm, gadd_zero _ hxl]
    rw [this]

end Sys2Proof.Machine
end

