-- ==== Sys2Proof/Laws/Invariant.lean ====
section
/-! SUPPORT. What keeps the invariant of the block: updates outside it, the operations on frame records, and
each shared operation. -/

namespace Sys2Proof.Machine

/-! ### Frames -/

theorem freshFrame_ok (c : Config) (fi : Word) : FrameOk c (freshFrame c fi) := by
  refine ⟨freshFrame_wf c fi, ?_, rfl, ?_⟩
  · show false = isPresent _ _
    simp only [isPresent, slotOf, freshFrame]
    rw [List.getD_eq_getElem?_getD, List.getElem?_eq_getElem (by rw [List.length_replicate]; unfold maxBlocks; omega), Option.getD_some, List.getElem_replicate]
    rfl
  · intro b hb _
    exact (List.mem_replicate.mp hb).2

theorem fileBlock_ok (c : Config) (fr : Frame) (dg : List Byte) (h : FrameOk c fr) :
    FrameOk c (fileBlock c (dgBlockIndex dg) (dgBlock c dg) fr) := by
  obtain ⟨h1, h2, h3, h4⟩ := h
  have hl := ((frame_wf_iff _ _).mp h1).1
  refine ⟨fileBlock_wf _ h1 (dgBlock_length _ _), ?_, ?_, ?_⟩
  · have hs : ∀ b, isPresent (fileBlock c (dgBlockIndex dg) (dgBlock c dg) fr) b = isPresent (setSlot fr (dgBlockIndex dg).toNat (dgBlock c dg)) b := fun b => rfl
    rw [hs]
    by_cases hb : dgBlockIndex dg = 0#8
    · simp only [fileBlock, hb, if_true]
      unfold isPresent
      have := slotOf_setSlot_self (j := 0) (dgBlock c dg) (show 0 < fr.blocks.length by omega)
      rw [show (0#8 : Byte).toNat = 0 from rfl, this]; rfl
    · simp only [fileBlock, if_neg hb]
      show fr.metaRetrieved = _
      unfold isPresent
      rw [slotOf_setSlot_other _ (by intro h0; apply hb; exact BitVec.eq_of_toNat_eq h0.symm)]
      exact h2
  · show fr.blockCount + 1#32 = _
    simp only [fileBlock, setSlot]
    rw [h3]
    split <;> ac_rfl
  · intro b hb hp
    rcases List.mem_or_eq_of_mem_set hb with hb | rfl
    · exact h4 b hb hp
    · cases hp

theorem putBack_ok (c : Config) (o : List (List Byte)) (js : List Nat) (fr : Frame) (h : FrameOk c fr)
    (hj : ∀ j ∈ js, j < 256) (ho : ∀ j ∈ js, (o.getD j []).length = c.blockBytes) :
    FrameOk c (js.foldl (fun f j => { setSlot f j (rebuiltBlock (o.getD j [])) with metaRetrieved := j == 0 || f.metaRetrieved }) fr) := by
  induction js generalizing fr with
  | nil => exact h
  | cons j js ih =>
    simp only [List.foldl_cons]
    refine ih _ ?_ (fun i hi => hj i (List.mem_cons_of_mem _ hi)) (fun i hi => ho i (List.mem_cons_of_mem _ hi))
    obtain ⟨h1, h2, h3, h4⟩ := h
    have hl := ((frame_wf_iff _ _).mp h1).1
    refine ⟨?_, ?_, h3, ?_⟩
    · have := setSlot_wf (blk := rebuiltBlock (o.getD j [])) j h1 (ho j List.mem_cons_self)
      simpa [Frame.wf] using this
    · have hs : ∀ (f : Frame) m b, isPresent { f with metaRetrieved := m } b = isPresent f b := fun _ _ _ => rfl
      rw [hs]
      unfold isPresent
      by_cases hb : j = 0
      · subst hb
        rw [slotOf_setSlot_self _ (by rw [hl]; omega)]; rfl
      · rw [slotOf_setSlot_other _ (fun h => hb h.symm)]
        have hj0 : (j == 0) = false := by simpa using hb
        show (j == 0 || fr.metaRetrieved) = _
        rw [hj0, h2]; rfl
    · intro b hb hp
      rcases List.mem_or_eq_of_mem_set hb with hb | rfl
      · exact h4 b hb hp
      · cases hp

theorem processResult_ok (c : Config) (fr : Frame) (m : Nat) (h : FrameOk c fr) : FrameOk c (processResult c fr m).1 := by
  unfold processResult recoverResult
  split
  · exact h
  split
  · exact h
  split
  · exact h
  split
  · have hk : c.k ≤ 256 := c.legal.bounds.2.1
    obtain ⟨a, b⟩ := decodedOriginals_length c fr m h.1
    refine putBack_ok c _ _ fr h (fun j hj => ?_) fun j hj => ?_
    · have := List.mem_range.mp (List.mem_filter.mp hj).1; omega
    · have := List.mem_range.mp (List.mem_filter.mp hj).1
      rw [List.getD_eq_getElem?_getD, List.getElem?_eq_getElem (by omega), Option.getD_some]
      exact b _ (List.getElem_mem _)
  · exact h

theorem sbFor_legal (c : Config) (m : Option MetaDataFEC) (fr : Frame) :
    sbFor c m fr = 0#8 ∨ sbFor c m fr = 1#8 ∨ sbFor c m fr = 2#8 ∨ sbFor c m fr = 4#8 := by
  have key : ∀ n : Nat, (if isSampleWidth n then BitVec.ofNat 8 n else 0#8) = 0#8 ∨ (if isSampleWidth n then BitVec.ofNat 8 n else 0#8) = 1#8 ∨
      (if isSampleWidth n then BitVec.ofNat 8 n else 0#8) = 2#8 ∨ (if isSampleWidth n then BitVec.ofNat 8 n else 0#8) = 4#8 := by
    intro n
    split
    · rename_i h
      simp only [isSampleWidth, Bool.or_eq_true, beq_iff_eq, or_assoc] at h
      rcases h with h | h | h <;> rw [h] <;> simp
    · simp
  exact key _

theorem samplesPerBlock_pos (c : Config) (sb : Byte) : 0 < samplesPerBlock c sb := by
  have : 32 ≤ c.blockBytes := c.legal.bounds.2.2.1
  unfold samplesPerBlock
  split
  · rename_i h
    simp only [isSampleWidth, Bool.or_eq_true, beq_iff_eq, or_assoc] at h
    rcases h with h | h | h <;> rw [h] <;> omega
  · omega

/-! ### The state -/

theorem isPow2_pos {n : Nat} (h : isPow2 n = true) : 0 < n := by
  simp [isPow2] at h; omega

/-- The part that does not look at the ports or the telemetry. -/
theorem inv_congr {s t : State} (h : s.Inv) (h1 : t.cfg = s.cfg) (h2 : t.ring = s.ring) (h3 : t.tq = s.tq) (h4 : t.jb = s.jb)
    (h5 : t.cursor = s.cursor) (h6 : t.run = s.run) (h7 : t.evtStatus &&& ~~~eventMask = s.evtStatus &&& ~~~eventMask) (h8 : t.evtEnable &&& ~~~eventMask = s.evtEnable &&& ~~~eventMask)
    (h9 : t.cfgRingSize = s.cfgRingSize) (h10 : t.cfgJbDepth = s.cfgJbDepth) (h11 : t.telSeen.length = s.telSeen.length) : t.Inv := by
  obtain ⟨a, b, c, d, e, f, g⟩ := h
  constructor
  · unfold RingOk ringAt ringSlot at *; rw [h1, h2, h9]; exact a
  · unfold ConfigOk at *; rw [h1, h9, h10]; exact b
  · unfold QueuesOk at *; rw [h1, h3, h4, h10]; exact c
  · unfold CursorOk at *; rw [h1, h4, h5]; exact d
  · unfold EventBitsOk at *; rw [h7, h8]; exact e
  · unfold StoppedOk at *; rw [h2, h3, h4, h6]; exact f
  · rw [h11]; exact g

theorem eventBit_mask (e : Event) (w : Word) : (w ||| eventBit e) &&& ~~~eventMask = w &&& ~~~eventMask := by
  have : eventBit e &&& ~~~eventMask = 0#32 := by
    have : eventCode e ∈ List.range' 1 10 := by cases e <;> simp [eventCode]
    unfold eventBit
    generalize eventCode e = n at this
    revert n; decide
  rw [BitVec.and_comm, BitVec.and_or_distrib_left, BitVec.and_comm _ (eventBit e), this]
  simp [BitVec.and_comm]

theorem raise_inv {s : State} (e : Event) (h : s.Inv) : (raise e s).Inv :=
  inv_congr h rfl rfl rfl rfl rfl rfl (eventBit_mask _ _) rfl rfl rfl rfl

/-- A push keeps the invariant while the block runs. -/
theorem tqPush_inv {s : State} (fr : Frame) (h : s.Inv) (hf : FrameOk s.cfg fr) (hr : s.run = true) : (tqPush fr s).Inv := by
  have hlen := tqMakeRoom_length s h.queues.1
  have hmem : ∀ x ∈ (tqPush fr s).tq, FrameOk s.cfg x := by
    intro x hx
    rcases mem_tqPush hx with hx | rfl
    · exact h.queues.2.2.1 x hx
    · exact hf
  have hev : (tqPush fr s).evtStatus &&& ~~~eventMask = s.evtStatus &&& ~~~eventMask := by
    have : (tqPush fr s).evtStatus = (tqMakeRoom s).evtStatus ||| eventBit (.tqPush fr.frameIndex) := rfl
    rw [this, eventBit_mask]
    unfold tqMakeRoom
    split
    · split
      · rfl
      · exact eventBit_mask _ _
    · rfl
  have htq : (tqPush fr s).tq.length ≤ s.cfg.tqCapacity := by rw [tqPush_tq]; simp; omega
  obtain ⟨a, b, c, d, e, f, g⟩ := h
  generalize ht : tqPush fr s = t at *
  have hfr : t = { s with tq := t.tq, tqDropCount := t.tqDropCount, events := t.events, evtStatus := t.evtStatus } := by
    rw [← ht]; exact tqPush_frame fr s
  rw [hfr]
  exact ⟨a, b, ⟨htq, c.2.1, hmem, c.2.2.2⟩, d, ⟨by rw [← e.1]; exact hev, e.2⟩, fun h => absurd hr (by rw [show s.run = false from h]; simp), g⟩

theorem setRing_inv {s : State} (k : Nat) (fr : Frame) (h : s.Inv) (hf : FrameOk s.cfg fr) (hr : s.run = true)
    (hk : ringSlot s fr.frameIndex = k) : (setRing k fr s).Inv := by
  obtain ⟨a, b, c, d, e, f, g⟩ := h
  have hkr : k < s.cfgRingSize.toNat := by rw [← hk]; exact Nat.mod_lt _ (isPow2_pos b.1)
  refine ⟨⟨by simpa using a.1, fun j hj x hx => ?_⟩, b, c, d, e, fun h => absurd hr (by rw [show s.run = false from h]; simp), g⟩
  by_cases hjk : j = k
  · subst hjk
    have hl : j < s.ring.length := by rw [a.1]; exact hj
    have : fr = x := by simpa [ringAt, setRing, List.getD_eq_getElem?_getD, hl] using hx
    subst this
    exact ⟨hkr, hk, hf⟩
  · have : ringAt s j = some x := by simpa [ringAt, setRing, List.getD_eq_getElem?_getD, List.getElem?_set_ne (Ne.symm hjk)] using hx
    exact a.2 j hj x this

theorem cursorOk_start {s : State} (h : s.cursor = cursorStart) : CursorOk s := by
  unfold CursorOk
  have hk : 2 ≤ s.cfg.k := s.cfg.legal.bounds.1
  split
  · exact h
  · rw [h]; exact ⟨Nat.le_refl _, hk, samplesPerBlock_pos _ _⟩

theorem jbPush_inv {s : State} (e : JbEntry) (h : s.Inv) (hr : s.run = true) (hf : FrameOk s.cfg e.frame)
    (hsb : e.sb = 0#8 ∨ e.sb = 1#8 ∨ e.sb = 2#8 ∨ e.sb = 4#8) : (jbPush e s).Inv := by
  have hlen := jbMakeRoom_length s h.queues.2.1 h.config.2.2.1
  have hmem : ∀ x ∈ (jbPush e s).jb, FrameOk s.cfg x.frame ∧ (x.sb = 0#8 ∨ x.sb = 1#8 ∨ x.sb = 2#8 ∨ x.sb = 4#8) := by
    intro x hx
    rcases mem_jbPush hx with hx | rfl
    · exact h.queues.2.2.2 x hx
    · exact ⟨hf, hsb⟩
  have hev : (jbPush e s).evtStatus &&& ~~~eventMask = s.evtStatus &&& ~~~eventMask := by
    have : (jbPush e s).evtStatus = (jbMakeRoom s).evtStatus := rfl
    rw [this]
    unfold jbMakeRoom
    split
    · split
      · rfl
      · exact eventBit_mask _ _
    · rfl
  have hjb : (jbPush e s).jb.length ≤ s.cfgJbDepth.toNat := by rw [jbPush_jb]; simp; omega
  have hcur : CursorOk (jbPush e s) := by
    by_cases hfull : s.jb.length = s.cfgJbDepth.toNat
    · cases hj : s.jb with
      | nil => exact cursorOk_start (by simp [jbPush, jbMakeRoom, hj])
      | cons old rest => exact cursorOk_start (by simp [jbPush, jbMakeRoom_full s hj hfull])
    · cases hj : s.jb with
      | nil => exact cursorOk_start (by simp [jbPush, jbMakeRoom_room s hfull, hj])
      | cons old rest =>
        have := h.cursor
        unfold CursorOk at this ⊢
        simp only [jbPush, jbMakeRoom_room s hfull, hj] at this ⊢
        simpa using this
  obtain ⟨a, b, c, d, e', f, g⟩ := h
  generalize ht : jbPush e s = t at *
  have hfr : t = { s with jb := t.jb, cursor := t.cursor, jbDropCount := t.jbDropCount, events := t.events, evtStatus := t.evtStatus } := by
    rw [← ht]; exact jbPush_frame e s
  have hcfg : t.cfg = s.cfg := by rw [hfr]
  refine ⟨?_, ?_, ?_, hcur, ?_, ?_, ?_⟩
  · rw [hfr]; exact a
  · rw [hfr]; exact b
  · rw [hfr]; exact ⟨c.1, hjb, c.2.2.1, hmem⟩
  · rw [hfr]; exact ⟨by rw [← e'.1]; exact hev, e'.2⟩
  · rw [hfr]; exact fun h => absurd hr (by rw [show s.run = false from h]; simp)
  · rw [hfr]; exact g

theorem empty_inv {s t : State} (h : s.Inv) (h1 : t.cfg = s.cfg) (h2 : t.ring = emptyRing s.cfg) (h3 : t.tq = []) (h4 : t.jb = [])
    (h5 : t.cursor = cursorStart) (h7 : t.evtStatus &&& ~~~eventMask = 0#32) (h8 : t.evtEnable &&& ~~~eventMask = 0#32)
    (h9 : ConfigOk t) (h11 : t.telSeen.length = s.telSeen.length) : t.Inv := by
  refine ⟨⟨by rw [h1, h2]; simp [emptyRing], fun k hk fr hfr => ?_⟩, h9, ⟨by rw [h3]; simp, by rw [h4]; simp, by rw [h3]; simp, by rw [h4]; simp⟩, cursorOk_start h5, ⟨h7, h8⟩, fun _ => ⟨by rw [h2]; simp [emptyRing], h3, h4⟩, by rw [h11]; exact h.history⟩
  rw [h1] at hk
  simp [ringAt, h2, emptyRing, List.getD_eq_getElem?_getD, hk] at hfr

end Sys2Proof.Machine
end

