-- ==== Sys2Proof/Laws/PerInstr.lean ====
section
/-! SUPPORT. Per operation: its record begins with its selector, and the selector is none of those that
30_encoding.md R78 reserves. -/

namespace Sys2Proof.Laws.Selector

/-- The record of the operation is its selector and its operands, whatever the parameters, and the selector
is a code of the table of 30_encoding.md R77. -/
def Statement (i : Instr) : Prop :=
  (∀ c : Config, encode c i = selectorOf i :: encodeOperands c i) ∧
  ((0x01 ≤ (selectorOf i).toNat ∧ (selectorOf i).toNat ≤ 0x0B) ∨
    (0x10 ≤ (selectorOf i).toNat ∧ (selectorOf i).toNat ≤ 0x15))

theorem ingest (dg : List Byte) : Statement (.ingest dg) := ⟨fun _ => rfl, by simp [selectorOf]⟩

theorem tqPush (fr : Frame) : Statement (.tqPush fr) := ⟨fun _ => rfl, by simp [selectorOf]⟩

theorem tqPop : Statement (.tqPop) := ⟨fun _ => rfl, by decide⟩

theorem tqLen : Statement (.tqLen) := ⟨fun _ => rfl, by decide⟩

theorem tqClear : Statement (.tqClear) := ⟨fun _ => rfl, by decide⟩

theorem recProcess : Statement (.recProcess) := ⟨fun _ => rfl, by decide⟩

theorem fecRecover (fr : Frame) (m : Nat) : Statement (.fecRecover fr m) := ⟨fun _ => rfl, by simp [selectorOf]⟩

theorem metaValidate (fr : Frame) : Statement (.metaValidate fr) := ⟨fun _ => rfl, by simp [selectorOf]⟩

theorem jbPush (e : JbEntry) : Statement (.jbPush e) := ⟨fun _ => rfl, by simp [selectorOf]⟩

theorem readSampleRx : Statement (.readSampleRx) := ⟨fun _ => rfl, by decide⟩

theorem readSampleTx : Statement (.readSampleTx) := ⟨fun _ => rfl, by decide⟩

theorem regRead (addr : Byte) : Statement (.regRead addr) := ⟨fun _ => rfl, by simp [selectorOf]⟩

theorem regWrite (addr : Byte) (data : Word) : Statement (.regWrite addr data) := ⟨fun _ => rfl, by simp [selectorOf]⟩

theorem start : Statement (.start) := ⟨fun _ => rfl, by decide⟩

theorem stop : Statement (.stop) := ⟨fun _ => rfl, by decide⟩

theorem clearCounters : Statement (.clearCounters) := ⟨fun _ => rfl, by decide⟩

theorem reset : Statement (.reset) := ⟨fun _ => rfl, by decide⟩

end Sys2Proof.Laws.Selector
end

