-- ==== Sys2Proof/Tests/Slice0.lean ====
section
/-! SUPPORT. Tests with expected values from spec 95_test_vectors.md and the examples of the rules, the
ill-formed terms that WellFormed refuses, and for every statement with hypotheses a witness that
meets them. The profile is TP (00_scope.md R9). -/

namespace Sys2Proof.Tests

open Sys2Proof Sys2Proof.Machine

-- one theorem at a time: the kernel evaluations side by side need too many threads
set_option Elab.async false

/-! ### Helpers -/

/-- The bytes of a hexadecimal number written as the spec writes byte strings, lowest offset first. -/
def hexBytes (n v : Nat) : List Byte := (leBytes n v).reverse

/-- The blocks of the reference stream S (95_test_vectors.md section 0). -/
def m48 : List Byte := hexBytes 32 0xc092ed190000000080bb0000021004020000000000f1536500000000192874b7
def m96 : List Byte := hexBytes 32 0xc092ed190000000000770100021004020000000001f153650000000055faadc8
def mBad : List Byte := hexBytes 32 0xc092ed190000000081bb0000021004020000000000f1536500000000192874b7
def b1 : List Byte := hexBytes 32 0x1000f0ff1100efff1200eeff1300edff1400ecff1500ebff1600eaff1700e9ff
def b2 : List Byte := hexBytes 32 0x2000e0ff2100dfff2200deff2300ddff2400dcff2500dbff2600daff2700d9ff
def b3 : List Byte := hexBytes 32 0x3000d0ff3100cfff3200ceff3300cdff3400ccff3500cbff3600caff3700c9ff
def b4 : List Byte := hexBytes 32 0xc0922de60100ffff82bbfeff0110f9fd0400fcff05f1a89a0600faff1e288d48
def b5 : List Byte := hexBytes 32 0xa63a205cd9009c01fc9cd80110929640c0005001844646be480085015120e256

/-- The datagram of frame `f` and block `b` with payload `p`. -/
def datagram (f b : Nat) (p : List Byte) : List Byte := leBytes 4 f ++ [BitVec.ofNat 8 b, 2, 16, 0] ++ p

/-- The frame record of frame `f` after the given blocks were filed. -/
def frameOf (f : Nat) (blocks : List (Nat × List Byte)) : Frame :=
  blocks.foldl (fun fr p => fileBlock Config.testProfile (BitVec.ofNat 8 p.1) ⟨true, p.2, 2, 16⟩ fr)
    (freshFrame Config.testProfile (BitVec.ofNat 32 f))

/-- The state after reset, running. -/
def running : State := { State.reset with run := true }

/-- A running state with these frames in the Transfer Queue. -/
def queued (frs : List Frame) : State := { running with tq := frs }

/-- A running state with these entries in the jitter buffer and this cursor. -/
def buffered (es : List JbEntry) (cur : Cursor) : State := { running with jb := es, cursor := cur }

/-- A running state with this frame in ring slot 0. -/
def ringed (fr : Frame) : State := { running with ring := running.ring.set 0 (some fr) }

/-- The frame of index `f` that holds nothing. -/
def bare (f : Nat) : Frame := frameOf f []

/-- What is read off the next state, if there is one. -/
def after {α : Type} (f : State → α) : Host.Outcome State Fault Refusal → Option α
  | .next t => some (f t)
  | .fault _ => none
  | .refused _ => none

/-- A profile with another internal sample width. -/
def wide : Config where
  toParams := { Params.testProfile with rxBits := .b24 }
  legal := ⟨by decide, cauchy_isMds 4 (by decide)⟩

/-- TP with a headroom. -/
def headroomed (bits : RxBits) : Config where
  toParams := { Params.testProfile with rxBits := bits, rxHeadroom := 3 }
  legal := ⟨by cases bits <;> decide, cauchy_isMds 4 (by decide)⟩

/-! ### Ill-formed terms -/

theorem test_params_refused :
    ¬ ({ Params.testProfile with k := 1 } : Params).Legal ∧
    ¬ ({ Params.testProfile with k := 257 } : Params).Legal ∧
    ¬ ({ Params.testProfile with blockBytes := 31 } : Params).Legal ∧
    ¬ ({ Params.testProfile with ringMax := 6 } : Params).Legal ∧
    ¬ ({ Params.testProfile with ringReset := 16 } : Params).Legal ∧
    ¬ ({ Params.testProfile with jbReset := 0 } : Params).Legal ∧
    ¬ ({ Params.testProfile with jbReset := 33 } : Params).Legal ∧
    ¬ ({ Params.testProfile with tqCapacity := 0 } : Params).Legal ∧
    ¬ ({ Params.testProfile with rxHeadroom := 9 } : Params).Legal ∧
    ¬ ({ Params.testProfile with gfPoly := 0x101#9 } : Params).Legal := by
  refine ⟨?_, ?_, ?_, ?_, ?_, ?_, ?_, ?_, ?_, ?_⟩ <;> exact fun h => absurd h.bounds (by decide)

/-- A table without rows, with which blocks 0, 1, 2 and 4 do not give original 3. -/
theorem test_params_not_mds_refused : ¬ ({ Params.testProfile with code := .rows [] } : Params).Legal := fun h =>
  absurd (h.mds [0, 1, 2, 4] rfl (by decide) (by decide) [0#8, 0#8, 0#8, 1#8] rfl (by decide) 1#8 (by decide))
    (by decide)

theorem test_wf_datagram_too_long :
    Instr.wf Config.testProfile (.ingest (List.replicate 65536 0#8)) = false := by
  show decide ((List.replicate 65536 0#8).length ≤ 65535) = false
  rw [List.length_replicate]
  rfl

theorem test_wf_slots_missing :
    Instr.wf Config.testProfile (.tqPush { bare 0 with blocks := [freshBlock 32] }) = false := by decide +kernel

theorem test_wf_payload_short :
    Instr.wf Config.testProfile (.metaValidate (setSlot (bare 0) 255 (freshBlock 31))) = false ∧
    Instr.wf Config.testProfile (.jbPush ⟨setSlot (bare 0) 0 (freshBlock 33), 2#8⟩) = false := by decide +kernel

theorem test_wf_recovery_count_too_high :
    Instr.wf Config.testProfile (.fecRecover (bare 0) 65536) = false ∧
    Instr.wf Config.testProfile (.fecRecover (setSlot (bare 0) 7 (freshBlock 0)) 2) = false := by decide +kernel

/-! ### Decoding: records written out from 30_encoding.md R77 -/

theorem test_decode_reassembler :
    decode Config.testProfile [0x01, 0x02, 0x01] = .error .truncated ∧
    decode Config.testProfile [0x01, 0x00, 0x00, 0x99] = .ok (.ingest [], [0x99]) := by decide

theorem test_decode_transfer_queue :
    decode Config.testProfile [0x03] = .ok (.tqPop, []) ∧ decode Config.testProfile [0x04] = .ok (.tqLen, []) ∧
    decode Config.testProfile [0x05] = .ok (.tqClear, []) := by decide

/-- A frame record with slot 2 listed: index 5, two originals, one recovery block, three in all. -/
theorem test_decode_frame_operands :
    let header : List Byte := [5, 0, 0, 0, 2, 0, 0, 0, 1, 0, 0, 0, 3, 0, 0, 0, 1]
    let slots : List Byte := [0, 0, 1, 1, 4, 24] ++ b2 ++ List.replicate 253 0
    let fr : Frame := { setSlot (bare 5) 2 ⟨true, b2, 4, 24⟩ with
      originalCount := 2, recoveryCount := 1, blockCount := 3, metaRetrieved := true }
    decode Config.testProfile ([0x02] ++ header ++ slots) = .ok (.tqPush fr, []) ∧
    decode Config.testProfile ([0x07] ++ header ++ slots ++ [0x34, 0x12]) = .ok (.fecRecover fr 0x1234, []) ∧
    decode Config.testProfile ([0x08] ++ header ++ slots) = .ok (.metaValidate fr, []) ∧
    decode Config.testProfile ([0x09] ++ header ++ slots ++ [0x02]) = .ok (.jbPush ⟨fr, 2⟩, []) := by
  decide +kernel

theorem test_decode_sample_and_host :
    decode Config.testProfile [0x0B] = .ok (.readSampleTx, []) ∧
    decode Config.testProfile [0x12, 0x13] = .ok (.start, [0x13]) ∧
    decode Config.testProfile [0x13] = .ok (.stop, []) ∧
    decode Config.testProfile [0x14] = .ok (.clearCounters, []) ∧
    decode Config.testProfile [0x11, 0x10, 0x78, 0x56, 0x34, 0x12] = .ok (.regWrite 0x10 0x12345678, []) := by decide

/-- V-OP-1. -/
theorem test_decode_reserved_selectors :
    ∀ sel ∈ [0x00#8, 0x0C#8, 0x0F#8, 0x16#8, 0xFF#8],
      decode Config.testProfile [sel] = .error (.reservedSelector sel) := by decide

theorem test_table_word :
    decodeTableWord 8 0x06 = some .recProcess ∧ decodeTableWord 16 0x2C10 = some (.regRead 0x2C#8) ∧
    decodeTableWord 8 0x0C = none ∧
    after (fun t => (t.run, t.ports.host, t.sched)) (step (State.reset.withFetchWord 8 0x12)) =
      some (true, [], []) ∧
    after (fun t => (t.tq.length, t.jb.length, t.ports.recovery)) (step (State.reset.withFetchWord 8 0x06)) =
      some (0, 1, []) := by decide +kernel

/-! ### Frame Reassembler -/

/-- V-ING-1. -/
theorem test_ingest_files :
    after (fun t => ((ringAt t 0).map fun fr =>
        ([fr.frameIndex, fr.originalCount, fr.recoveryCount, fr.blockCount], fr.metaRetrieved, slotOf fr 1), t.events))
      (exec (.ingest (datagram 0 1 b1)) running) =
      some (some ([0, 1, 0, 1], false, ⟨true, b1, 2, 16⟩), []) := by decide +kernel

/-- V-L1-1 and V-ING-8: frame 3 after frame 0xFFFFFFFF in slot 3. -/
theorem test_ingest_completes :
    after (fun t => ((ringAt t 3).map (·.frameIndex), t.tq.map (·.frameIndex), t.events))
      (exec (.ingest (datagram 3 1 b1))
        { running with ring := running.ring.set 3 (some (frameOf 0xFFFFFFFF [(1, b1)])) }) =
      some (some 3, [0xFFFFFFFF], [.tqPush 0xFFFFFFFF]) := by decide +kernel

/-! ### Transfer Queue -/

/-- V-TQ-1. -/
theorem test_tq_push_full :
    after (fun t => (t.tq.map (·.frameIndex), t.tqDropCount, t.events))
      (exec (.tqPush (bare 4)) (queued [bare 0, bare 1, bare 2, bare 3])) =
      some ([1, 2, 3, 4], 1, [.tqDrop 0, .tqPush 4]) := by decide +kernel

/-- V-TQ-2. -/
theorem test_tq_pop :
    after (fun t => (t.tq.map (·.frameIndex), t.outputs)) (exec .tqPop (queued [bare 1, bare 2])) =
      some ([2], [.popped (some (bare 1))]) := by decide +kernel

/-- V-TQ-2. -/
theorem test_tq_len : after State.outputs (exec .tqLen (queued [bare 2])) = some [.queueLength 1] := by decide +kernel

/-- V-TQ-4. -/
theorem test_tq_clear :
    after (fun t => (t.tq, t.tqDropCount, t.events)) (exec .tqClear (queued [bare 0, bare 1, bare 2])) =
      some ([], 0, []) := by decide +kernel

/-! ### FEC Recovery Engine -/

/-- V-GF-1 and V-GF-2. -/
theorem test_galois :
    gmul 0x14D#9 0x02 0x80 = 0x4D ∧ gmul 0x14D#9 0x53 0xCA = 0x94 ∧ gmul 0x14D#9 0xFF 0xFF = 0xF6 ∧
    ginv 0x14D#9 0x02 = 0xA6 ∧ ginv 0x14D#9 0x53 = 0x04 ∧
    generatorRow Config.testProfile 5 = [0x86, 0x52, 0x75, 0x63] := by decide +kernel

/-- The recovery blocks of stream S. -/
theorem test_encode :
    encodedBlock Config.testProfile [m48, b1, b2, b3] 4 = b4 ∧
    encodedBlock Config.testProfile [m48, b1, b2, b3] 5 = b5 := by decide +kernel

/-- V-REC-b. -/
theorem test_rec_process_rebuilds :
    after (fun t => (t.correctableErrors, t.uncorrectableErrors, t.events,
        t.jb.map fun e => (e.sb, slotOf e.frame 2)))
      (exec .recProcess (queued [frameOf 0 [(0, m48), (1, b1), (3, b3), (4, b4)]])) =
      some (1, 0, [.newSampleRate 0 48000], [(2, ⟨true, b2, 0, 0⟩)]) := by decide +kernel

/-- V-REC-d. -/
theorem test_rec_process_incomplete :
    after (fun t => ([t.correctableErrors, t.uncorrectableErrors], t.events, t.jb.map (·.sb), t.cachedMeta))
      (exec .recProcess (queued [frameOf 0 [(0, m48), (4, b4), (5, b5)]])) =
      some ([0, 1], [.incomplete 0 3, .uncorrectable 0 1], [2], none) := by decide +kernel

/-- V-REC-f: no M is known. -/
theorem test_fec_recover_fails :
    after (fun t => (t.events, t.outputs))
      (exec (.fecRecover (frameOf 0 [(1, b1), (2, b2), (3, b3), (4, b4)]) 0) running) =
      some ([.decodeFail 0 3], [.recovered (frameOf 0 [(1, b1), (2, b2), (3, b3), (4, b4)]) .failure]) := by
  decide +kernel

/-- V-GF-3: from blocks 1, 2, 4, 5. -/
theorem test_decode_set :
    decodeSet Config.testProfile [(1, b1), (2, b2), (4, b4), (5, b5)] = [m48, b1, b2, b3] := by decide +kernel

/-! ### Meta Validator -/

/-- V-CRC-1 to V-CRC-3, and '123456789'. -/
theorem test_crc :
    crc32 CrcParams.isoHdlc [0x31, 0x32, 0x33, 0x34, 0x35, 0x36, 0x37, 0x38, 0x39] = 0xCBF43926 ∧
    crc32 CrcParams.isoHdlc (m48.take 28) = 0xB7742819 ∧ crc32 CrcParams.isoHdlc (mBad.take 28) = 0xD213135F ∧
    crc32 CrcParams.isoHdlc (m96.take 28) = 0xC8ADFA55 := by decide +kernel

/-- V-MV-1. -/
theorem test_meta_validate_adopts :
    after (fun t => (t.events, telemetryNow t .centerFreqLo, telemetryNow t .sampleRate, telemetryNow t .metaFormat))
      (exec (.metaValidate (frameOf 0 [(0, m48)])) running) =
      some ([.newSampleRate 0 48000], 0x19ED92C0, 0xBB80, 0x02041002) := by decide +kernel

/-- V-MV-3. -/
theorem test_meta_validate_rejects :
    after (fun t => (t.events, t.cachedMeta))
      (exec (.metaValidate (frameOf 2 [(0, mBad)]))
        { running with cachedMeta := some (metaParse Config.testProfile m96) }) =
      some ([.metaCrc 2 0xD213135F 0xB7742819], some (metaParse Config.testProfile m96)) := by decide +kernel

/-! ### Jitter/Read Buffer -/

/-- V-JB-1. -/
theorem test_jb_push_full :
    after (fun t => (t.jb.map (·.frame.frameIndex), t.cursor, t.jbDropCount, t.events))
      (exec (.jbPush ⟨bare 9, 2⟩) (buffered [⟨bare 7, 2⟩, ⟨bare 8, 2⟩] ⟨2, 3⟩)) =
      some ([8, 9], ⟨1, 0⟩, 1, [.jbDrop 7]) := by decide +kernel

/-- V-JB-3. -/
theorem test_jb_push_empty :
    after (fun t => (t.jb.map (·.sb), t.cursor, t.events)) (exec (.jbPush ⟨bare 9, 4⟩) (buffered [] ⟨3, 7⟩)) =
      some ([4], ⟨1, 0⟩, []) := by decide +kernel

/-- V-RS-1, the first sample. -/
theorem test_read_sample_rx_8 :
    after (fun t => (t.outputs, t.cursor, t.readSamplesCount))
      (exec .readSampleRx (buffered [⟨frameOf 0 [(1, hexBytes 32 (0x807f01ff * 2 ^ 224))], 1⟩] ⟨1, 0⟩)) =
      some ([.sample (-32768) 32512], ⟨1, 1⟩, 1) := by decide +kernel

/-- V-RS-2, the second sample, which is not saturated; and V-RS-3, the last sample of a block. -/
theorem test_read_sample_rx_24_and_16 :
    after (fun t => (t.outputs, t.cursor))
      (exec .readSampleRx
        (buffered [⟨frameOf 0 [(1, hexBytes 32 (0x56341200aacbedffffffff00 * 2 ^ 160))], 4⟩] ⟨1, 1⟩)) =
      some ([.sample 65535 0], ⟨1, 2⟩) ∧
    after (fun t => (t.outputs, t.cursor)) (exec .readSampleRx (buffered [⟨frameOf 0 [(1, b1)], 2⟩] ⟨1, 7⟩)) =
      some ([.sample 23 (-23)], ⟨2, 0⟩) := by decide +kernel

/-- V-RS-2 on the Tx path; V-RS-5, the sample that pops the frame. -/
theorem test_read_sample_tx :
    after State.outputs
      (exec .readSampleTx
        (buffered [⟨frameOf 0 [(1, hexBytes 32 (0x56341200aacbedffffffff00 * 2 ^ 160))], 4⟩] ⟨1, 0⟩)) =
      some [.sample 4660 (-4661)] ∧
    after (fun t => (t.outputs, t.jb, t.cursor)) (exec .readSampleTx (buffered [⟨bare 0, 0⟩] ⟨3, 7⟩)) =
      some ([.sample 0 0], [], ⟨1, 0⟩) := by decide +kernel

/-- The rounding row of the CONV table. -/
theorem test_convert :
    convert Config.testProfile (-0x123456) 24 false = -4661 ∧ convert wide (-128) 8 false = -8388608 ∧
    convert wide 32767 16 false = 8388352 ∧ convert wide (-0x123456) 24 true = -4661 := by decide

/-! ### Host interface -/

/-- V-REG-1. -/
theorem test_reg_read_after_reset :
    [0x00#8, 0x04#8, 0x08#8, 0x0C#8, 0x10#8, 0x14#8, 0x18#8, 0x1C#8, 0x20#8, 0x24#8, 0x50#8].map
      (fun a => after State.outputs (exec (.regRead a) State.reset)) =
    [0, 8, 0, 0, 4, 2, 4, 0x20, 2, 0, 0].map fun w => some [.word w] := by decide +kernel

/-- V-REG-6. -/
theorem test_reg_read_reserved :
    after State.outputs (exec (.regRead 0x02#8) running) = some [.word 0] ∧
    after State.outputs (exec (.regRead 0x54#8) running) = some [.word 0] := by decide +kernel

/-- V-REG-2 and V-REG-3. -/
theorem test_reg_write_configuration :
    after State.cfgRingSize (exec (.regWrite 0x10#8 8) State.reset) = some 8 ∧
    after State.cfgRingSize (exec (.regWrite 0x10#8 3) State.reset) = some 4 ∧
    after State.cfgJbDepth (exec (.regWrite 0x14#8 33) State.reset) = some 2 ∧
    after State.cfgJbDepth (exec (.regWrite 0x14#8 5) running) = some 2 := by decide +kernel

/-- V-REG-4 and V-REG-5. -/
theorem test_reg_write_events_and_ctrl :
    after (fun t => (t.evtStatus, irq t))
      (exec (.regWrite 0x08#8 0x200) { running with evtStatus := 0x201, evtEnable := 0x200 }) = some (1, false) ∧
    after State.evtEnable (exec (.regWrite 0x0C#8 0xFFFFFFFF) running) = some 0x3FF ∧
    after (fun t => (t.run, t.malformedCount, registerValue t .ctrl))
      (exec (.regWrite 0x00#8 3) { running with malformedCount := 5 }) = some (true, 0, 1) := by decide +kernel

theorem test_start_stop :
    after State.run (exec .start State.reset) = some true ∧
    after (fun t => (t.run, t.tq, t.tqDropCount, t.events)) (exec .stop (queued [bare 1])) =
      some (false, [], 0, []) := by decide +kernel

theorem test_clear_counters :
    after (fun t => (t.readSamplesCount, t.jbDropCount, t.run))
      (exec .clearCounters { running with readSamplesCount := 9, jbDropCount := 2 }) = some (0, 0, true) := by
  decide +kernel

theorem test_reset :
    after (fun t => (t.run, t.evtEnable, t.cfgRingSize, t.events))
      (exec .reset { running with evtEnable := 0x3FF, cfgRingSize := 8, events := [.jbUnderrun] }) =
      some (false, 0, 4, [.jbUnderrun]) := by decide +kernel

/-! ### Witnesses: for each statement with hypotheses, states and operands that meet them together -/

theorem test_witness_StepPerformsThePresentedOperation :
    let s : State := { State.reset with sched := [.host, .network], ports := ⟨[], [], [], [0x12, 0x15]⟩ }
    s.sched = .host :: [.network] ∧ portOf s .host = [0x12, 0x15] ∧
    decode s.cfg [0x12, 0x15] = .ok (.start, [0x15]) ∧ owns .host .start = true ∧
    exec .start (setPort .host [0x15] { s with sched := [.network] }) =
      .next (startReceiving (setPort .host [0x15] { s with sched := [.network] })) :=
  ⟨rfl, rfl, by decide, by decide, rfl⟩

/-- With a frame queued, REC_PROCESS is performed too. -/
theorem test_witness_StepPerformsRecProcess :
    let s : State := { queued [bare 1] with sched := [.recovery], ports := ⟨[], [0x06], [], []⟩ }
    decode s.cfg (portOf s .recovery) = .ok (.recProcess, []) ∧ owns .recovery .recProcess = true ∧ s.tq ≠ [] := by
  decide +kernel

theorem test_witness_TurnsPassWithoutAnOperation :
    State.reset.sched = [] ∧
    (let s : State := { State.reset with sched := [.consumer] }; s.sched = .consumer :: [] ∧ portOf s .consumer = []) ∧
    (let s : State := { State.reset with sched := [.recovery, .host], ports := ⟨[], [0x06], [], []⟩ }
     s.sched = .recovery :: [.host] ∧ decode s.cfg s.ports.recovery = .ok (.recProcess, []) ∧ s.tq = []) := by decide

theorem test_witness_ReservedSelectorsAreRefused :
    ([0x00#8, 0x0C#8, 0x0F#8, 0x16#8, 0xFF#8].all fun sel =>
      sel.toNat = 0 ∨ (0x0C ≤ sel.toNat ∧ sel.toNat ≤ 0x0F) ∨ 0x16 ≤ sel.toNat) = true ∧
    (let s : State := { State.reset with sched := [.host], ports := ⟨[], [], [], [0x16, 0x12]⟩ }
     s.sched = .host :: [] ∧ portOf s .host = 0x16#8 :: [0x12]) := by decide

theorem test_witness_ForeignOperationsAreRefused :
    let s : State := { State.reset with sched := [.network], ports := ⟨[0x12], [], [], []⟩ }
    s.sched = .network :: [] ∧ portOf s .network = [0x12] ∧ decode s.cfg [0x12] = .ok (.start, []) ∧
    ownerOf .start = some .host ∧ Agent.network ≠ .host := by decide

theorem test_witness_DecodeOfEncodeIsIdentity :
    Instr.wf Config.testProfile (.ingest []) = true ∧
    Instr.wf Config.testProfile (.fecRecover (bare 0xFFFFFFFF) 65535) = true ∧
    Instr.wf Config.testProfile (.jbPush ⟨frameOf 0 [(255, b1)], 0xFF⟩) = true ∧
    Instr.wf Config.testProfile (.regWrite 0xFF#8 0xFFFFFFFF#32) = true := by decide +kernel

theorem test_witness_longest_datagram :
    Instr.wf Config.testProfile (.ingest (List.replicate 65535 0#8)) = true := by
  show decide ((List.replicate 65535 0#8).length ≤ 65535) = true
  rw [List.length_replicate]
  rfl

theorem test_witness_DecodedOperationsAreWellFormed :
    decode Config.testProfile [0x01, 0x01, 0x00, 0x77, 0x06] = .ok (.ingest [0x77], [0x06]) := by decide

theorem test_witness_IngestWhileStoppedHasNoEffect : State.reset.run = false := rfl

/-- V-ING-5. -/
theorem test_witness_IngestRejectsWrongLength :
    running.run = true ∧ ([] : List Byte).length ≠ 8 + running.cfg.blockBytes ∧
    (List.replicate 41 0#8).length ≠ 8 + running.cfg.blockBytes ∧
    (List.replicate 39 0#8).length ≠ 8 + running.cfg.blockBytes := by decide

theorem test_witness_IngestFilesTheBlock_empty_slot :
    running.StoreOk ∧ ConfigOk running ∧ running.run = true ∧
    (datagram 5 1 b1).length = 8 + running.cfg.blockBytes ∧
    ringAt running ((dgFrameIndex running.cfg (datagram 5 1 b1)).toNat % running.cfgRingSize.toNat) = none := by
  decide +kernel

theorem test_witness_IngestFilesTheBlock_own_frame :
    let s := ringed (frameOf 4 [(1, b1)])
    s.StoreOk ∧ ConfigOk s ∧ s.run = true ∧ (datagram 4 255 b1).length = 8 + s.cfg.blockBytes ∧
    ringAt s ((dgFrameIndex s.cfg (datagram 4 255 b1)).toNat % s.cfgRingSize.toNat) = some (frameOf 4 [(1, b1)]) ∧
    (frameOf 4 [(1, b1)]).frameIndex = dgFrameIndex s.cfg (datagram 4 255 b1) := by decide +kernel

theorem test_witness_IngestCompletesTheOtherFrame :
    let s := ringed (frameOf 4 [(1, b1)])
    let full : State := { s with tq := [bare 0, bare 1, bare 2, bare 3] }
    (s.StoreOk ∧ ConfigOk s ∧ s.run = true ∧ (datagram 0 0 m48).length = 8 + s.cfg.blockBytes ∧
      ringAt s ((dgFrameIndex s.cfg (datagram 0 0 m48)).toNat % s.cfgRingSize.toNat) = some (frameOf 4 [(1, b1)]) ∧
      (frameOf 4 [(1, b1)]).frameIndex ≠ dgFrameIndex s.cfg (datagram 0 0 m48) ∧ s.tq.length < s.cfg.tqCapacity) ∧
    full.StoreOk ∧ full.tq = bare 0 :: [bare 1, bare 2, bare 3] ∧ full.tq.length = full.cfg.tqCapacity := by
  decide +kernel

theorem test_witness_DatagramFieldsAreLittleEndian :
    Config.testProfile.wireEndian = .little ∧
    dgFrameIndex Config.testProfile [0x77, 0x56, 0x34, 0x12, 0xFF] = 0x12345677#32 := by decide

theorem test_witness_TqPushAppendsTheFrame :
    (queued [bare 0, bare 1, bare 2]).tq.length ≠ running.cfg.tqCapacity ∧
    (queued [bare 0, bare 1, bare 2, bare 3]).tq.length = running.cfg.tqCapacity := by decide +kernel

theorem test_witness_TqPopTakesTheHead : running.tq = [] ∧ (queued [bare 1]).tq = bare 1 :: [] := ⟨rfl, rfl⟩

theorem test_witness_TqLenCounts :
    running.tq.length ≤ running.cfg.tqCapacity ∧
    (queued [bare 0, bare 1, bare 2, bare 3]).tq.length ≤ running.cfg.tqCapacity := by decide +kernel

theorem test_witness_FieldElementsHaveInverses : (1#8 : Byte) ≠ 0#8 ∧ (255#8 : Byte) ≠ 0#8 := by decide

theorem test_witness_FirstRecoveryBlockIsTheXor :
    let c := Config.testProfile
    c.code = .cauchy ∧ c.gfPoly = 0x14D#9 ∧ c.k ≤ 255 ∧ [m48, b1, b2, b3].length = c.k ∧
    ∀ x ∈ [m48, b1, b2, b3], x.length = c.blockBytes := by decide +kernel

theorem test_witness_DecodeReturnsTheOriginals :
    let c := Config.testProfile
    c.gfPoly = 0x14D#9 ∧ [m48, b1, b2, b3].length = c.k ∧ (∀ x ∈ [m48, b1, b2, b3], x.length = c.blockBytes) ∧
    (solve c.gfPoly c.k
      ([0, 1, 3, 5].map fun i => ⟨generatorRow c i, encodedBlock c [m48, b1, b2, b3] i⟩)).isSome = true := by
  decide +kernel

/-- Blocks 1, 3, 4 and 5 of stream S. -/
theorem test_witness_DecodeInvertsTheCode :
    let c := Config.testProfile
    let set : List (Nat × List Byte) := [(1, b1), (3, b3), (4, b4), (5, b5)]
    c.gfPoly = 0x14D#9 ∧ set.length = c.k ∧ (set.map Prod.fst).Nodup ∧
    (∀ ib ∈ set, ib.1 < 256 ∧ ib.2.length = c.blockBytes) ∧
    ([m48, b1, b2, b3].length = c.k ∧ (∀ x ∈ [m48, b1, b2, b3], x.length = c.blockBytes) ∧
      ∀ ib ∈ set, encodedBlock c [m48, b1, b2, b3] ib.1 = ib.2) := by decide +kernel

theorem test_witness_FecRecoverRebuildsOrFails :
    let c := running.cfg
    let whole := frameOf 0 [(0, m48), (1, b1), (2, b2), (3, b3)]
    let part := frameOf 0 [(1, b1), (2, b2), (3, b3), (4, b4)]
    let usable := fun fr => ((List.range (c.k + 2)).filter fun b => isPresent fr b).length
    (whole.wf c.blockBytes = true ∧ ∀ j < c.k, isPresent whole j = true) ∧
    (part.wf c.blockBytes = true ∧ (∃ j < c.k, isPresent part j = false) ∧
      c.fecAvailable = true ∧ (2 : Nat) ≠ 0 ∧ c.k ≤ usable part) ∧
    ((∃ j < c.k, isPresent (bare 0) j = false) ∧ ¬ c.k ≤ usable (bare 0)) := by decide +kernel

theorem test_witness_RecoveryCountSelection :
    let own := frameOf 0 [(0, m48)]
    (own.metaRetrieved = true ∧ crcOk running.cfg (payloadOf own 0) = true) ∧
    (bare 0).metaRetrieved = false ∧ crcOk running.cfg (payloadOf (frameOf 2 [(0, mBad)]) 0) = false ∧
    running.cachedMeta = none := by decide +kernel

theorem test_witness_cached_descriptor :
    ({ running with cachedMeta := some (metaParse running.cfg m48) } : State).cachedMeta =
      some (metaParse running.cfg m48) := rfl

/-- One frame for each case of the rebuild: V-REC-d, V-REC-e with two blocks 1, V-REC-b, and one whose block 0
is rebuilt. -/
theorem test_witness_RecProcessForwardsEveryFrame :
    let k := running.cfg.k
    let m := selectM running
    let complete := fun fr : Frame => k ≤ fr.blockCount.toNat
    let usable := fun fr => ((List.range (k + m fr)).filter fun b => isPresent fr b).length
    let tried := fun fr : Frame => complete fr ∧ fr.originalCount.toNat ≠ k ∧ ∃ j < k, isPresent fr j = false
    let frD := frameOf 0 [(0, m48), (4, b4), (5, b5)]
    let frE := frameOf 0 [(0, m48), (1, b1), (1, b1), (4, b4)]
    let frB := frameOf 0 [(0, m48), (1, b1), (3, b3), (4, b4)]
    ((queued [frD, frB]).tq = frD :: [frB]) ∧ ¬ complete frD ∧ (tried frE ∧ ¬ k ≤ usable frE) ∧
    (tried frB ∧ running.cfg.fecAvailable = true ∧ m frB ≠ 0 ∧ k ≤ usable frB ∧
      frB.wf running.cfg.blockBytes = true) := by decide +kernel

/-- One frame for each case of the descriptor, the last into a full buffer with its cursor inside the head. -/
theorem test_witness_RecProcessForwardsEveryFrame_descriptor :
    let m := metaParse running.cfg m48
    let run := fun (p : List Byte) (cached : Option MetaDataFEC) =>
      after (fun t => (t.cachedMeta, t.events))
        (exec .recProcess { queued [frameOf 7 [(0, p), (1, b1), (2, b2), (3, b3)]] with cachedMeta := cached })
    run m48 none = some (some m, [.newSampleRate 0 48000]) ∧
    run m48 (some m) = some (some m, []) ∧
    run m48 (some (metaParse running.cfg m96)) = some (some m, [.newSampleRate 96000 48000]) ∧
    run mBad (some m) = some (some m, [.metaCrc 7 0xD213135F 0xB7742819]) ∧
    after (fun t => (t.jb.map (·.frame.frameIndex), t.cursor, t.jbDropCount, t.events))
      (exec .recProcess { buffered [⟨bare 1, 2⟩, ⟨bare 2, 2⟩] ⟨2, 3⟩ with
        tq := [frameOf 7 [(0, mBad), (1, b1), (1, b1), (4, b4)]] }) =
      some ([2, 7], ⟨1, 0⟩, 1,
        [.decodeFail 7 2, .metaCrc 7 0xD213135F 0xB7742819, .uncorrectable 7 1, .jbDrop 1]) := by decide +kernel

theorem test_witness_IncompleteFramesAreForwardedUnchanged :
    let fr := frameOf 0 [(0, m48), (4, b4), (5, b5)]
    (queued [fr]).tq = fr :: [] ∧ fr.blockCount.toNat < running.cfg.k := by decide +kernel

/-- One frame for each branch of R111: V-REC-d, V-REC-b, V-REC-a, V-REC-e and V-REC-h. -/
theorem test_witness_RecProcessAccountsErrors :
    let k := running.cfg.k
    let m := selectM running
    let oc := fun fr : Frame => fr.originalCount.toNat
    let lost := fun fr => ((List.range k).filter fun j => !isPresent fr j).length
    let usable := fun fr => ((List.range (k + m fr)).filter fun b => isPresent fr b).length
    let tried := fun fr : Frame => k ≤ fr.blockCount.toNat ∧ oc fr ≠ k ∧ lost fr ≠ 0
    let frD := frameOf 0 [(0, m48), (4, b4), (5, b5)]
    let frB := frameOf 0 [(0, m48), (1, b1), (3, b3), (4, b4)]
    let frA := frameOf 0 [(0, m48), (1, b1), (2, b2), (3, b3)]
    let frE := frameOf 0 [(0, m48), (1, b1), (4, b4)]
    let frH := frameOf 0 [(0, m48), (1, b1), (1, b1), (4, b4)]
    (oc frD + m frD < k) ∧
    (k ≤ oc frB + m frB ∧ tried frB ∧ running.cfg.fecAvailable = true ∧ m frB ≠ 0 ∧ k ≤ usable frB) ∧
    (k ≤ oc frA + m frA ∧ k ≤ frA.blockCount.toNat ∧ ¬ tried frA) ∧
    (k ≤ oc frE + m frE ∧ frE.blockCount.toNat < k) ∧
    (k ≤ oc frH + m frH ∧ tried frH ∧ ¬ k ≤ usable frH) := by decide +kernel

/-- V-REC-g. -/
theorem test_witness_CountedCompleteFramesAreNotDecoded :
    let fr := frameOf 0 [(0, m48), (1, b1), (1, b1), (2, b2)]
    (queued [fr]).tq = fr :: [] ∧ running.cfg.k ≤ fr.blockCount.toNat ∧ fr.originalCount.toNat = running.cfg.k := by
  decide +kernel

/-- V-REC-b. -/
theorem test_witness_RecProcessRebuildsMissingOriginals :
    let fr := frameOf 0 [(0, m48), (1, b1), (3, b3), (4, b4)]
    let s := queued [fr]
    s.tq = fr :: [] ∧ fr.wf s.cfg.blockBytes = true ∧ s.cfg.k ≤ fr.blockCount.toNat ∧
    fr.originalCount.toNat ≠ s.cfg.k ∧ s.cfg.fecAvailable = true ∧ selectM s fr ≠ 0 ∧
    s.cfg.k ≤ ((List.range (s.cfg.k + selectM s fr)).filter fun b => isPresent fr b).length := by decide +kernel

/-- REC_PROCESS with E4, E5 and E3 at once, and INGEST with E7. -/
theorem test_witness_EventOrderWithinAnOperation :
    after State.events (exec .recProcess (queued [frameOf 0 [(0, mBad), (1, b1), (1, b1), (4, b4)]])) =
      some [.decodeFail 0 2, .metaCrc 0 0xD213135F 0xB7742819, .uncorrectable 0 1] ∧
    Instr.recProcess.presented = true ∧
    after State.events (exec (.ingest (datagram 0 1 b1)) (ringed (bare 4))) = some [.tqPush 4] := by decide +kernel

theorem test_witness_DescriptorFieldsAreParsed : Config.testProfile.wireEndian = .little := rfl

/-- TP with the other byte order. -/
def bigEndian : Config where
  toParams := { Params.testProfile with wireEndian := .big }
  legal := ⟨by decide, cauchy_isMds 4 (by decide)⟩

/-- Both byte orders; a descriptor whose CRC matches, and one whose does not. -/
theorem test_witness_CrcCoversTheDescriptor :
    Config.testProfile.wireEndian = .little ∧ bigEndian.wireEndian = .big ∧
    metaCrcEmbedded Config.testProfile m48 = 0xB7742819 ∧ metaCrcEmbedded bigEndian m48 = 0x192874B7 ∧
    crcOk Config.testProfile m48 = true ∧ crcOk Config.testProfile mBad = false := by decide +kernel

theorem test_witness_ValidDescriptorIsAdopted :
    let fr := frameOf 0 [(0, m48)]
    let m := metaParse running.cfg (payloadOf fr 0)
    fr.metaRetrieved = true ∧ crcOk running.cfg (payloadOf fr 0) = true ∧
    (metaParse running.cfg m48).sampleRate = m.sampleRate ∧ (metaParse running.cfg m96).sampleRate ≠ m.sampleRate ∧
    running.cachedMeta = none := by decide +kernel

theorem test_witness_InvalidDescriptorIsNotAdopted :
    (frameOf 2 [(0, mBad)]).metaRetrieved = true ∧
    crcOk running.cfg (payloadOf (frameOf 2 [(0, mBad)]) 0) = false ∧ (bare 0).metaRetrieved = false := by
  decide +kernel

/-- The first and the last bit covered. -/
theorem test_witness_SingleBitFlipIsDetected :
    Config.testProfile.crc.poly.getLsbD 0 = true ∧ 32 ≤ m48.length ∧ crcOk Config.testProfile m48 = true ∧
    (0 < 28 ∧ 0 < 8) ∧ (27 < 28 ∧ 7 < 8) ∧
    (let fr := frameOf 0 [(0, m48.set 27 (byteAt m48 27 ^^^ (1#8 <<< 7)))]
     running.cfg = Config.testProfile ∧ fr.metaRetrieved = true ∧
       payloadOf fr 0 = m48.set 27 (byteAt m48 27 ^^^ (1#8 <<< 7))) := by decide +kernel

theorem test_witness_FrameWidthSelection :
    sbFor Config.testProfile none (frameOf 0 [(0, m48)]) = 2#8 ∧
    sbFor Config.testProfile (some (metaParse Config.testProfile m48)) (bare 0) = 2#8 ∧
    sbFor Config.testProfile none (bare 0) = 0#8 := by decide +kernel

theorem test_witness_JbPushAppendsTheEntry :
    (buffered [⟨bare 1, 2⟩] ⟨1, 3⟩).jb.length ≠ running.cfgJbDepth.toNat ∧
    (buffered [⟨bare 1, 2⟩, ⟨bare 2, 2⟩] ⟨1, 3⟩).jb.length = running.cfgJbDepth.toNat := by decide +kernel

theorem test_witness_EmptyBufferReadsSilence : running.jb = [] := rfl

/-- The three clauses at the ends of a block and of the frame, for sb = 2: spb is 8. -/
theorem test_witness_ReadSampleAdvancesTheCursor :
    [1#8, 2#8, 4#8].map (samplesPerBlock running.cfg) = [16, 8, 4] ∧
    let spb := samplesPerBlock running.cfg 2#8
    (6 + 1 ≠ spb ∧ 1 ≠ running.cfg.k) ∧ (7 + 1 = spb ∧ 2 + 1 ≠ running.cfg.k) ∧
    (7 + 1 = spb ∧ 3 + 1 = running.cfg.k) ∧
    (buffered [⟨bare 1, 2⟩] ⟨3, 7⟩).jb = ⟨bare 1, 2⟩ :: [] := by decide +kernel

theorem test_witness_UnsupportedWidthReadsZero :
    let at' := fun blk idx =>
      let s := buffered [⟨bare 1, 0⟩] ⟨blk, idx⟩
      (s.jb == [⟨bare 1, 0⟩], s.cursor.idx + 1 == s.cfg.blockBytes / 4, s.cursor.blk == s.cfg.k,
        s.cursor.blk + 1 == s.cfg.k)
    at' 1 6 = (true, false, false, false) ∧ at' 1 7 = (true, true, false, false) ∧
    at' 3 7 = (true, true, false, true) := by decide +kernel

theorem test_witness_TxSamplesAreConverted :
    ([1#8, 2#8, 4#8].all fun sb => (buffered [⟨bare 1, sb⟩] ⟨1, 0⟩).jb = ⟨bare 1, sb⟩ :: []) = true ∧
    running.cfg.wireEndian = .little := by decide +kernel

/-- Each width at W = 16 and W = 24, without and with a headroom (the CONV table of R127). -/
theorem test_witness_RxSamplesAreConverted :
    ([1#8, 2#8, 4#8].all fun sb => (buffered [⟨bare 1, sb⟩] ⟨1, 0⟩).jb = ⟨bare 1, sb⟩ :: []) = true ∧
    [running.cfg, wide, headroomed .b16, headroomed .b24].map
        (fun c => (c.wireEndian, c.rxHeadroom, c.rxBits.bits)) =
      [(.little, 0, 16), (.little, 0, 24), (.little, 3, 16), (.little, 3, 24)] := by decide +kernel

/-- 16 bits to 16 take no headroom; 16 to 24 and 24 to 16 take it. -/
theorem test_convert_headroom :
    convert (headroomed .b16) 4660 16 false = 4660 ∧ convert (headroomed .b24) 4660 16 false = 149120 ∧
    convert (headroomed .b16) 0x123456 24 false = 582 ∧ convert (headroomed .b24) 0x123456 24 true = 4660 := by decide

theorem test_witness_RoundTripThrough24Bits :
    (-32768 : Int) ≤ -32768 ∧ (32767 : Int) ≤ 32767 ∧ Config.testProfile.rxBits = .b16 ∧ wide.rxBits = .b24 ∧
    Config.testProfile.rxHeadroom = wide.rxHeadroom ∧ wide.rxHeadroom = 0 := by decide

/-- Before the last sample of the frame and at it: 24 samples for sb = 2. -/
theorem test_witness_FrameSuppliesItsSamplesInOrder :
    let s := buffered [⟨frameOf 0 [(1, b1)], 2⟩] ⟨1, 0⟩
    s.jb = ⟨frameOf 0 [(1, b1)], 2⟩ :: [] ∧ s.cursor = ⟨1, 0⟩ ∧ 0 < samplesPerBlock s.cfg 2 ∧
    23 < (s.cfg.k - 1) * samplesPerBlock s.cfg 2 ∧ 24 = (s.cfg.k - 1) * samplesPerBlock s.cfg 2 ∧
    [0#8, 1#8, 2#8, 4#8].map (samplesPerBlock s.cfg) = [8, 16, 8, 4] := by decide +kernel

theorem test_witness_RegReadOfControlRegisters :
    (0x00#8 : Byte) = 0x00#8 ∧ (1#32 : Word) = (if running.run then 1#32 else 0#32) := by decide

theorem test_witness_TelemetryReadsAreAdmitted :
    State.reset.telSeen.length = 13 ∧ State.reset.telDraws = [] ∧
    ({ running with telDraws := [1], telSeen := running.telSeen.set 2 [7] } : State).telSeen.length = 13 := by decide

/-- The thirteen registers, each with a value of its own; the descriptor of stream S (V-MV-1). -/
theorem test_telemetry_registers :
    let s : State := { buffered [⟨bare 1, 2⟩, ⟨bare 2, 2⟩] ⟨1, 0⟩ with
      cfgJbDepth := 9, readSamplesCount := 11, correctableErrors := 12, uncorrectableErrors := 13
      cachedMeta := some (metaParse running.cfg m48), malformedCount := 14, tq := [bare 3]
      tqDropCount := 15, jbDropCount := 16 }
    [0x20#8, 0x24#8, 0x28#8, 0x2C#8, 0x30#8, 0x34#8, 0x38#8, 0x3C#8, 0x40#8, 0x44#8, 0x48#8, 0x4C#8, 0x50#8].map
      (fun a => after State.outputs (exec (.regRead a) s)) =
    [9, 2, 11, 12, 13, 0x19ED92C0, 0, 0xBB80, 14, 1, 15, 16, 0x02041002].map fun w => some [.word w] := by
  decide +kernel

theorem test_witness_TelemetryHistoryKeepsPace :
    exec .start State.reset = .next (startReceiving State.reset) ∧ State.reset.telSeen.length = 13 ∧
    registerAt 0x20#8 ≠ .telemetry .jbDrops := ⟨rfl, by decide, by decide⟩

theorem test_witness_ReservedOffsetsReadZeroAndIgnoreWrites :
    [0x01#8, 0x53#8, 0x54#8, 0xFC#8, 0xFF#8].all fun a => a.toNat % 4 ≠ 0 ∨ 0x54 ≤ a.toNat := by decide

theorem test_witness_ReadOnlyRegistersIgnoreWrites :
    [0x04#8, 0x18#8, 0x1C#8, 0x20#8, 0x50#8].all fun a =>
      a = 0x04#8 ∨ a = 0x18#8 ∨ a = 0x1C#8 ∨ (0x20 ≤ a.toNat ∧ a.toNat ≤ 0x50) := by decide

theorem test_witness_CtrlWriteStartsStopsAndClears :
    (0x1#32 : Word).getLsbD 0 = true ∧ State.reset.run = false ∧ (0x2#32 : Word).getLsbD 0 = false ∧
    running.run = true ∧ (0x2#32 : Word).getLsbD 1 = true ∧ (0x1#32 : Word).getLsbD 1 = false := by decide

theorem test_witness_ConfigurationWritesAreWarl :
    State.reset.run = false ∧ (1#32).toNat = 2 ^ 0 ∧ (8#32).toNat = 2 ^ 3 ∧ (8#32).toNat ≤ State.reset.cfg.ringMax ∧
    ¬ (16#32).toNat ≤ State.reset.cfg.ringMax ∧ 1 ≤ (32#32).toNat ∧ (32#32).toNat ≤ State.reset.cfg.jbMax ∧
    ¬ (33#32).toNat ≤ State.reset.cfg.jbMax ∧ ¬ running.run = false := by decide

theorem test_witness_StartStopAndClearCounters : State.reset.run = false ∧ running.run = true := ⟨rfl, rfl⟩

theorem test_witness_LogsOnlyGrow : exec .reset running = .next (resetBlock running) := rfl

theorem test_witness_StateIsWrittenOnlyByItsOwners :
    exec .start State.reset = .next running ∧ running.run ≠ State.reset.run := ⟨rfl, by decide⟩

/-- A bit cleared by the host, and a bit set by an event, the event in the log. -/
theorem test_witness_StatusBitsFollowEvents :
    after (fun t => t.evtStatus.getLsbD 9) (exec (.regWrite 0x08#8 0x200) { running with evtStatus := 0x200 }) =
      some false ∧
    running.evtStatus.getLsbD 9 = false ∧
    after (fun t => (t.events, t.evtStatus.getLsbD 9)) (exec .readSampleRx running) = some ([.jbUnderrun], true) := by
  decide +kernel

theorem test_witness_StoreFormIsKeptByEveryStep :
    (ringed (frameOf 4 [(1, b1)])).StoreOk ∧
    step (ringed (frameOf 4 [(1, b1)])) = .next (ringed (frameOf 4 [(1, b1)])) := ⟨by decide +kernel, rfl⟩

/-- After reset the HOST presents START: the premise on presented operations holds and the step is taken. -/
theorem test_witness_InvariantIsKeptByEveryStep :
    let s : State := { State.reset with sched := [.host], ports := ⟨[], [], [], [0x12]⟩ }
    fetch s = .perform .start State.reset ∧ Instr.start.presented = true ∧
    step s = .next (observe (startReceiving State.reset)) := ⟨by decide, rfl, rfl⟩

end Sys2Proof.Tests
end

/-! ## Steps, and what they keep of the state (10_state.md)

Common to the statements below: what a step can do, what a register offset names, what a decoded operation is. -/

namespace Sys2Proof.Machine

/-! ### The decoder gives well-formed operations -/

/-- Settles O7: reading a frame or a datagram fixes the sizes that well-formedness asks for. -/
theorem decodedOperationsAreWellFormed : Obligations.DecodedOperationsAreWellFormed := by
  intro c bytes rest i h
  unfold decode at h
  split at h
  · cases h
  split at h
  case h_1 => -- INGEST
    obtain ⟨⟨len, bs⟩, hlen, h⟩ := except_bind_ok h
    obtain ⟨⟨dg, bs⟩, hdg, h⟩ := except_bind_ok h
    cases h
    have hl : dg.length = len := takeBytes_length hdg
    have hb : len < 256 ^ 2 := takeNat_lt hlen
    simp only [Instr.wf, decide_eq_true_eq]
    omega
  case h_2 => -- TQ_PUSH
    obtain ⟨⟨fr, bs⟩, hfr, h⟩ := except_bind_ok h
    cases h
    exact takeFrame_wf hfr
  case h_7 => -- FEC_RECOVER
    obtain ⟨⟨fr, bs⟩, hfr, h⟩ := except_bind_ok h
    obtain ⟨⟨m, bs⟩, hm, h⟩ := except_bind_ok h
    cases h
    have hb : m < 256 ^ 2 := takeNat_lt hm
    simpa [Instr.wf, takeFrame_wf hfr] using hb
  case h_8 => -- META_VALIDATE
    obtain ⟨⟨fr, bs⟩, hfr, h⟩ := except_bind_ok h
    cases h
    exact takeFrame_wf hfr
  case h_9 => -- JB_PUSH
    obtain ⟨⟨fr, bs⟩, hfr, h⟩ := except_bind_ok h
    obtain ⟨⟨sb, bs⟩, -, h⟩ := except_bind_ok h
    cases h
    exact takeFrame_wf hfr
  case h_12 => -- REG_READ
    obtain ⟨⟨addr, bs⟩, -, h⟩ := except_bind_ok h
    cases h
    rfl
  case h_13 => -- REG_WRITE
    obtain ⟨⟨addr, bs⟩, -, h⟩ := except_bind_ok h
    obtain ⟨⟨data, bs⟩, -, h⟩ := except_bind_ok h
    cases h
    rfl
  all_goals cases h <;> rfl -- a selector without operands, or a reserved one

/-! ### What a step can do -/

/-- An idle turn changes at most the order of turns. -/
theorem fetch_idle_cases {s u : State} (h : fetch s = .idle u) : u = s ∨ u = endTurn s := by
  unfold fetch at h
  split at h
  · cases h; exact .inl rfl
  split at h
  · cases h; exact .inr rfl
  split at h
  · cases h
  split at h
  · split at h
    · cases h; exact .inr rfl
    · cases h
  · cases h

/-- A presented operation is well formed, and its turn and record are taken before it is performed. -/
theorem fetch_perform_cases {s u : State} {i : Instr} (h : fetch s = .perform i u) :
    i.wf s.cfg = true ∧ ∃ a rest, u = setPort a rest (endTurn s) := by
  unfold fetch at h
  split at h
  · cases h
  split at h
  · cases h
  split at h
  · cases h
  rename_i hd
  split at h
  · split at h
    · cases h
    · cases h
      exact ⟨decodedOperationsAreWellFormed _ _ _ _ hd, _, _, rfl⟩
  · cases h

/-- A step that answers a next state lets a turn pass, or performs a presented operation and notes the
telemetry. -/
theorem step_next_cases {s t : State} (h : step s = .next t) :
    (fetch s = .idle t ∧ (t = s ∨ t = endTurn s)) ∨
    ∃ i u v, fetch s = .perform i u ∧ exec i u = .next v ∧ t = observe v := by
  unfold step at h
  split at h
  · rename_i hf
    cases h
    exact .inl ⟨hf, fetch_idle_cases hf⟩
  · cases h
  · rename_i i u hf
    cases hx : exec i u with
    | next v => rw [hx] at h; cases h; exact .inr ⟨i, u, v, hf, hx, rfl⟩
    | fault r => rw [hx] at h; cases h
    | refused r => rw [hx] at h; cases h

end Sys2Proof.Machine


/-! ### The register map and the host operations (10_state.md R34 to R42) -/

namespace Sys2Proof.Machine

theorem exec_regRead (addr : Byte) (s : State) :
    exec (.regRead addr) s =
      .next (emit (.word (registerValue s (registerAt addr))) (afterRead s (registerAt addr))) := rfl

theorem exec_regWrite (addr : Byte) (data : Word) (s : State) :
    exec (.regWrite addr data) s = .next (registerWrite data s (registerAt addr)) := rfl

/-- No register stands at a misaligned offset or at one past the map. -/
theorem registerAt_reserved {addr : Byte} (h : addr.toNat % 4 ≠ 0 ∨ 0x54 ≤ addr.toNat) :
    registerAt addr = .nothing := by
  revert addr
  decide +kernel

/-- The telemetry registers stand from 0x20 to 0x50, with reserved offsets between them. -/
theorem registerAt_telemetry {addr : Byte} (h : 0x20 ≤ addr.toNat ∧ addr.toNat ≤ 0x50) :
    registerAt addr = .nothing ∨ ∃ t ∈ allTelemetry, registerAt addr = .telemetry t := by
  revert addr
  decide +kernel

theorem registerAt_eq_ctrl : ∀ {addr : Byte}, registerAt addr = .ctrl → addr = 0x00#8 := by decide +kernel

theorem registerAt_eq_evtStatus : ∀ {addr : Byte}, registerAt addr = .evtStatus → addr = 0x08#8 := by
  decide +kernel

theorem registerAt_eq_evtEnable : ∀ {addr : Byte}, registerAt addr = .evtEnable → addr = 0x0C#8 := by
  decide +kernel

theorem registerAt_eq_cfgRingSize : ∀ {addr : Byte}, registerAt addr = .cfgRingSize → addr = 0x10#8 := by
  decide +kernel

theorem registerAt_eq_cfgJbDepth : ∀ {addr : Byte}, registerAt addr = .cfgJbDepth → addr = 0x14#8 := by
  decide +kernel

/-- Settles O46: no register stands at such an offset. -/
theorem reservedOffsetsReadZeroAndIgnoreWrites : Obligations.ReservedOffsetsReadZeroAndIgnoreWrites := by
  intro s addr data h
  rw [exec_regRead, exec_regWrite, registerAt_reserved h]
  exact ⟨rfl, rfl⟩

/-- Settles O47: the offsets hold read-only registers or none, and R6 with log 3 bounds both parameters. -/
theorem readOnlyRegistersIgnoreWrites : Obligations.ReadOnlyRegistersIgnoreWrites := by
  intro s addr data h
  have hk : s.cfg.k ≤ 256 := s.cfg.legal.bounds.2.1
  have hb : s.cfg.blockBytes < 2 ^ 32 := s.cfg.legal.bounds.2.2.2.1
  refine ⟨?_, ⟨_, rfl, ?_⟩, ⟨_, rfl, ?_⟩⟩
  · rw [exec_regWrite]
    rcases h with rfl | rfl | rfl | h
    · rfl
    · rfl
    · rfl
    · rcases registerAt_telemetry h with ht | ⟨t, -, ht⟩ <;> rw [ht] <;> rfl
  · exact Nat.mod_eq_of_lt (by omega)
  · exact Nat.mod_eq_of_lt hb

/-! #### STATUS -/

theorem bitWord_getLsbD (k : Nat) (b : Bool) (n : Nat) :
    (bitWord k b).getLsbD n = (b && decide (n = k) && decide (k < 32)) := by
  cases b
  · simp [bitWord]
  · simp only [bitWord, if_true, BitVec.getLsbD_shiftLeft, BitVec.getLsbD_one, Bool.true_and]
    grind

theorem statusWord_getLsbD (s : State) (n : Nat) :
    (statusWord s).getLsbD n =
      (s.run && decide (n = 0) || s.cachedMeta.isSome && decide (n = 1) || irq s && decide (n = 2) ||
        s.jb.isEmpty && decide (n = 3)) := by
  simp only [statusWord, BitVec.getLsbD_or, bitWord_getLsbD]
  simp

theorem eventMask_getLsbD (n : Nat) : eventMask.getLsbD n = decide (n < 10) := by
  have h : eventMask = BitVec.ofNat 32 (2 ^ 10 - 1) := rfl
  rw [h, BitVec.getLsbD_ofNat, Nat.testBit_two_pow_sub_one]
  grind

/-- The interrupt output is the disjunction of the enabled event bits (60_exceptions.md R137). -/
theorem irq_iff (s : State) :
    irq s = true ↔ ∃ n < 10, s.evtStatus.getLsbD n = true ∧ s.evtEnable.getLsbD n = true := by
  have hbit : ∀ n, (s.evtStatus &&& s.evtEnable &&& eventMask).getLsbD n =
      (s.evtStatus.getLsbD n && s.evtEnable.getLsbD n && decide (n < 10)) := fun n => by
    rw [BitVec.getLsbD_and, BitVec.getLsbD_and, eventMask_getLsbD]
  have hne : irq s = true ↔ s.evtStatus &&& s.evtEnable &&& eventMask ≠ 0#32 := by simp [irq]
  rw [hne]
  constructor
  · intro h
    by_contra hn
    refine h (BitVec.eq_of_getLsbD_eq fun n _ => ?_)
    rw [hbit, BitVec.getLsbD_zero]
    grind
  · rintro ⟨n, hn, hs, he⟩ h0
    have := hbit n
    rw [h0, hs, he, BitVec.getLsbD_zero] at this
    simp [hn] at this

/-- Settles O43, bit by bit. -/
theorem statusShowsTheBlock : Obligations.StatusShowsTheBlock := by
  intro s
  refine ⟨fun _ => rfl, statusWord s, rfl, ?_, ?_, ?_, ?_, fun n hn => ?_⟩ <;> rw [statusWord_getLsbD]
  · simp
  · simp [Option.isSome_iff_ne_none]
  · simpa using irq_iff s
  · simp [List.isEmpty_iff]
  · have hne : n ≠ 0 ∧ n ≠ 1 ∧ n ≠ 2 ∧ n ≠ 3 := by omega
    simp [hne]

/-! #### CTRL, the event registers and the configuration registers -/

/-- The RUN action of a write of CTRL, which does nothing where the present value is written (R35). -/
def runAction (data : Word) (s : State) : State :=
  if data.getLsbD 0 = true then startReceiving s else stopReceiving s

theorem startReceiving_of_run {s : State} (h : s.run = true) : startReceiving s = s := by
  cases s; cases h; rfl

theorem stopReceiving_of_stopped {s : State} (h : s.run = false) : stopReceiving s = s := by
  simp [stopReceiving, h]

theorem stopReceiving_run (s : State) : (stopReceiving s).run = false := by
  unfold stopReceiving
  split
  · rfl
  · simpa using ‹¬ s.run = true›

theorem runAction_run (data : Word) (s : State) : (runAction data s).run = data.getLsbD 0 := by
  unfold runAction
  split
  · exact Eq.symm ‹_›
  · exact (stopReceiving_run s).trans (eq_false_of_ne_true ‹_›).symm

theorem runAction_of_eq {data : Word} {s : State} (h : data.getLsbD 0 = s.run) : runAction data s = s := by
  unfold runAction
  split
  · exact startReceiving_of_run (by rw [← h]; assumption)
  · exact stopReceiving_of_stopped (by rw [← h]; exact eq_false_of_ne_true ‹_›)

theorem writeCtrl_eq (data : Word) (s : State) :
    writeCtrl data s =
      if data.getLsbD 1 = true then clearCounters (runAction data s) else runAction data s := by
  have hrun : runAction data s =
      if data.getLsbD 0 = true then (if s.run = true then s else startReceiving s) else stopReceiving s := by
    unfold runAction
    split
    · split
      · exact startReceiving_of_run ‹_›
      · rfl
    · rfl
  rw [hrun]
  rfl

/-- Settles O48: the state between the two actions is the one after the RUN action. -/
theorem ctrlWriteStartsStopsAndClears : Obligations.CtrlWriteStartsStopsAndClears := by
  intro s data
  have hrun : (writeCtrl data s).run = data.getLsbD 0 := by
    rw [writeCtrl_eq]
    split <;> exact runAction_run data s
  refine ⟨runAction data s, writeCtrl data s, rfl, fun h _ => ?_, fun h _ => ?_, runAction_of_eq,
    fun h => ?_, fun h => ?_, hrun, ?_⟩
  · rw [runAction, if_pos h]; rfl
  · rw [runAction, if_neg (ne_true_of_eq_false h)]; rfl
  · rw [writeCtrl_eq, if_pos h]; rfl
  · rw [writeCtrl_eq, if_neg (ne_true_of_eq_false h)]
  · rw [← hrun]; rfl

/-- An acknowledgement clears the event bits that are written 1, and no other (R37). -/
theorem acknowledge_getLsbD (data : Word) (s : State) (n : Nat) :
    (acknowledge data s).evtStatus.getLsbD n =
      (s.evtStatus.getLsbD n && !(decide (n < 10) && data.getLsbD n)) := by
  rw [acknowledge_evtStatus, BitVec.getLsbD_and, BitVec.getLsbD_not, BitVec.getLsbD_and, eventMask_getLsbD]
  by_cases hn : n < 32
  · simp only [hn, decide_true, Bool.true_and, Bool.and_comm]
  · simp only [BitVec.getLsbD_of_ge _ n (Nat.le_of_not_lt hn), Bool.false_and]

/-- Settles O49, bit by bit. -/
theorem eventRegisterWrites : Obligations.EventRegisterWrites := by
  intro s data
  refine ⟨⟨(acknowledge data s).evtStatus, rfl, acknowledge_getLsbD data s⟩, data &&& eventMask, rfl, fun n => ?_⟩
  rw [BitVec.getLsbD_and, eventMask_getLsbD, Bool.and_comm]

theorem isPow2_iff (n : Nat) : isPow2 n = true ↔ ∃ r, n = 2 ^ r := by
  simp only [isPow2, Bool.and_eq_true, bne_iff_ne, beq_iff_eq]
  constructor
  · rintro ⟨-, h⟩
    exact ⟨_, h⟩
  · rintro ⟨r, rfl⟩
    exact ⟨by positivity, by rw [Nat.log2_two_pow]⟩

theorem writeRingSize_eq (data : Word) (s : State) :
    writeRingSize data s =
      if s.run = false ∧ isPow2 data.toNat = true ∧ data.toNat ≤ s.cfg.ringMax then
        { s with cfgRingSize := data } else s := by
  simp [writeRingSize, and_assoc]

theorem writeJbDepth_eq (data : Word) (s : State) :
    writeJbDepth data s =
      if s.run = false ∧ 1 ≤ data.toNat ∧ data.toNat ≤ s.cfg.jbMax then
        { s with cfgJbDepth := data } else s := by
  simp [writeJbDepth, and_assoc]

theorem exec_regWrite_cfgRingSize (data : Word) (s : State) :
    exec (.regWrite 0x10#8 data) s = .next (writeRingSize data s) := rfl

theorem exec_regWrite_cfgJbDepth (data : Word) (s : State) :
    exec (.regWrite 0x14#8 data) s = .next (writeJbDepth data s) := rfl

/-- Settles O50: each write is a conditional update, and both reset values are below 2^32 (log 3). -/
theorem configurationWritesAreWarl : Obligations.ConfigurationWritesAreWarl := by
  intro s data
  have hring : s.cfg.ringReset < 2 ^ 32 := s.cfg.legal.bounds.2.2.2.2.2.2.2.1
  have hjb : s.cfg.jbReset < 2 ^ 32 := s.cfg.legal.bounds.2.2.2.2.2.2.2.2.2.2.1
  rw [exec_regWrite_cfgRingSize, exec_regWrite_cfgJbDepth, writeRingSize_eq, writeJbDepth_eq, ← isPow2_iff]
  refine ⟨fun h => by rw [if_pos h], fun h => by rw [if_neg h], fun h => by rw [if_pos h],
    fun h => by rw [if_neg h], resetBlock s, rfl, ?_, ?_⟩
  · exact Nat.mod_eq_of_lt hring
  · exact Nat.mod_eq_of_lt hjb

/-- Settles O52: the reset table does not look at the fields it sets. -/
theorem resetRestoresTheResetTable : Obligations.ResetRestoresTheResetTable := fun s =>
  ⟨resetBlock s, rfl, rfl, rfl⟩

end Sys2Proof.Machine


/-! ### The form of the frame store (20_memory.md R43) -/

namespace Sys2Proof.Machine

/-- READ_SAMPLE removes at most the head of the jitter buffer. -/
theorem readSample_jb (isTx : Bool) (s : State) :
    (readSample isTx s).jb = s.jb ∨ (readSample isTx s).jb = s.jb.tail := by
  cases hj : s.jb with
  | nil => exact .inl (by simp [readSample, hj])
  | cons e rest =>
    rw [readSample_step isTx s e rest hj]
    dsimp only
    split
    · exact .inl hj
    · exact .inr rfl

/-- Whatever takes frames out of the queues, and touches neither the ring nor the parameters, keeps the form. -/
theorem storeOk_of_sublists {s t : State} (hs : s.StoreOk) (hc : t.cfg = s.cfg) (hr : t.ring = s.ring)
    (ht : ∀ fr ∈ t.tq, fr ∈ s.tq) (hj : ∀ e ∈ t.jb, e ∈ s.jb) : t.StoreOk := by
  refine storeOk_of_subset hs hc (by rw [hr]) fun fr h => .inl ?_
  rw [mem_heldFrames] at h ⊢
  rcases h with h | h | ⟨e, he, rfl⟩
  · exact .inl (hr ▸ h)
  · exact .inr (.inl (ht fr h))
  · exact .inr (.inr ⟨e, hj e he, rfl⟩)

/-- The empty store has the form. -/
theorem storeOk_of_empty {t : State} (hr : t.ring = emptyRing t.cfg) (ht : t.tq = []) (hj : t.jb = []) :
    t.StoreOk := by
  refine ⟨by simp [hr, emptyRing], fun fr h => ?_⟩
  rw [mem_heldFrames] at h
  simp [hr, ht, hj, emptyRing] at h

theorem mem_ring_of_ringAt {s : State} {k : Nat} {fr : Frame} (h : ringAt s k = some fr) : some fr ∈ s.ring := by
  rw [ringAt, List.getD_eq_getElem?_getD] at h
  cases hk : s.ring[k]? with
  | none => simp [hk] at h
  | some o => simp only [hk, Option.getD_some] at h; exact h ▸ List.mem_of_getElem? hk

theorem wf_of_ringAt {s : State} {k : Nat} {fr : Frame} (hs : s.StoreOk) (h : ringAt s k = some fr) :
    fr.wf s.cfg.blockBytes = true :=
  hs.2 fr (mem_heldFrames.mpr (.inl (mem_ring_of_ringAt h)))

theorem frameFor_wf {s : State} (fi : Word) (hs : s.StoreOk) : (frameFor fi s).wf s.cfg.blockBytes = true := by
  unfold frameFor
  split
  · split
    · exact wf_of_ringAt hs ‹_›
    · exact freshFrame_wf s.cfg fi
  · exact freshFrame_wf s.cfg fi

theorem completeFrame_storeOk {s : State} (fi : Word) (hs : s.StoreOk) : (completeFrame fi s).StoreOk := by
  unfold completeFrame
  split
  · split
    · exact hs
    · exact tqPush_storeOk hs (wf_of_ringAt hs ‹_›)
  · exact hs

theorem completeFrame_cfg (fi : Word) (s : State) : (completeFrame fi s).cfg = s.cfg := by
  rw [completeFrame_frame]

theorem fileDatagram_storeOk {s : State} (dg : List Byte) (hs : s.StoreOk) : (fileDatagram dg s).StoreOk := by
  refine setRing_storeOk (completeFrame_storeOk _ hs) ?_
  rw [completeFrame_cfg]
  exact fileBlock_wf _ (frameFor_wf _ hs) (dgBlock_length _ _)

theorem processFrame_storeOk {s : State} {fr : Frame} (hs : s.StoreOk) (hf : fr.wf s.cfg.blockBytes = true) :
    (processFrame fr s).StoreOk := by
  have ha : (accounted fr s).StoreOk := by rw [accounted_frame]; exact hs
  have hc : (accounted fr s).cfg = s.cfg := by rw [accounted_frame]
  rw [processFrame_eq]
  exact jbPush_storeOk ha (hc ▸ processResult_wf s.cfg fr _ hf)

theorem readSample_storeOk {s : State} (isTx : Bool) (hs : s.StoreOk) : (readSample isTx s).StoreOk := by
  refine storeOk_of_sublists hs (by rw [readSample_frame]) (by rw [readSample_frame])
    (by rw [readSample_frame]; exact fun _ => id) fun e he => ?_
  rcases readSample_jb isTx s with h | h <;> rw [h] at he
  · exact he
  · exact List.mem_of_mem_tail he

theorem stopReceiving_storeOk {s : State} (hs : s.StoreOk) : (stopReceiving s).StoreOk := by
  unfold stopReceiving
  split
  · exact storeOk_of_empty rfl rfl rfl
  · exact hs

theorem writeCtrl_storeOk {s : State} (data : Word) (hs : s.StoreOk) : (writeCtrl data s).StoreOk := by
  have hrun : (runAction data s).StoreOk := by
    unfold runAction
    split
    · exact hs
    · exact stopReceiving_storeOk hs
  rw [writeCtrl_eq]
  split <;> exact hrun

theorem registerWrite_storeOk {s : State} (data : Word) (r : Register) (hs : s.StoreOk) :
    (registerWrite data s r).StoreOk := by
  cases r with
  | ctrl => exact writeCtrl_storeOk data hs
  | cfgRingSize => simp only [registerWrite, writeRingSize]; split <;> exact hs
  | cfgJbDepth => simp only [registerWrite, writeJbDepth]; split <;> exact hs
  | _ => exact hs

/-- Every operation with operands of the right form keeps the form of the store. -/
theorem exec_storeOk {s t : State} {i : Instr} (hs : s.StoreOk) (hi : i.wf s.cfg = true)
    (h : exec i s = .next t) : t.StoreOk := by
  cases i with
  | ingest dg =>
    simp only [exec, execIngest] at h
    split at h
    · cases h; exact hs
    split at h
    · cases h; exact hs
    · cases h; exact fileDatagram_storeOk dg hs
  | tqPush fr => cases h; exact tqPush_storeOk hs hi
  | tqPop =>
    simp only [exec, execTqPop] at h
    split at h
    · cases h; exact hs
    · rename_i fr rest ht
      cases h
      exact storeOk_of_sublists hs rfl rfl (fun x hx => by rw [ht]; exact List.mem_cons_of_mem _ hx) fun _ => id
  | tqLen => cases h; exact hs
  | tqClear => cases h; exact storeOk_of_sublists hs rfl rfl (by simp [tqClear]) fun _ => id
  | recProcess =>
    simp only [exec, execRecProcess] at h
    split at h
    · cases h; exact hs
    · rename_i fr rest ht
      cases h
      refine processFrame_storeOk ?_ (hs.2 fr (mem_heldFrames.mpr (.inr (.inl ?_))))
      · exact storeOk_of_sublists hs rfl rfl (fun x hx => by rw [ht]; exact List.mem_cons_of_mem _ hx) fun _ => id
      · rw [ht]; exact List.mem_cons_self
  | fecRecover fr m =>
    cases h
    have hr : (recoverState fr m s).StoreOk := by rw [recoverState_frame]; exact hs
    exact hr
  | metaValidate fr =>
    simp only [exec, execMetaValidate] at h
    split at h
    · cases h
      have hm : (metaValidate fr s).StoreOk := by rw [metaValidate_frame]; exact hs
      exact hm
    · cases h; exact hs
  | jbPush e => cases h; exact jbPush_storeOk hs hi
  | readSampleRx => cases h; exact readSample_storeOk false hs
  | readSampleTx => cases h; exact readSample_storeOk true hs
  | regRead addr =>
    cases h
    have hr : (afterRead s (registerAt addr)).StoreOk := by rw [afterRead_frame]; exact hs
    exact hr
  | regWrite addr data => cases h; exact registerWrite_storeOk data _ hs
  | start => cases h; exact hs
  | stop => cases h; exact stopReceiving_storeOk hs
  | clearCounters => cases h; exact hs
  | reset => cases h; exact storeOk_of_empty rfl rfl rfl

theorem setPort_storeOk {s : State} (a : Agent) (bs : List Byte) (hs : s.StoreOk) : (setPort a bs s).StoreOk := by
  cases a <;> exact hs

/-- Settles O58: the decoder gives only operands of the right form, which every operation keeps. -/
theorem storeFormIsKeptByEveryStep : Obligations.StoreFormIsKeptByEveryStep := by
  intro s t hs h
  rcases step_next_cases h with ⟨-, rfl | rfl⟩ | ⟨i, u, v, hf, hx, rfl⟩
  · exact hs
  · exact hs
  · obtain ⟨hi, a, rest, rfl⟩ := fetch_perform_cases hf
    have hu : (setPort a rest (endTurn s)).StoreOk := setPort_storeOk a rest hs
    have hv : v.StoreOk := exec_storeOk hu (by rw [setPort_cfg]; exact hi) hx
    exact hv

end Sys2Proof.Machine


/-! ### The invariant of the block (10_state.md R24 to R30, R37, R38) -/

namespace Sys2Proof.Machine

/-- A block that is not stopped may hold frames. -/
theorem StoppedOk.of_run {s : State} (h : s.run = true) : StoppedOk s := fun h' => by
  rw [h] at h'; cases h'

/-- A block with a frame in the Transfer Queue runs. -/
theorem State.Inv.run_of_tq {s : State} (h : s.Inv) (ht : s.tq ≠ []) : s.run = true := by
  by_contra hr
  exact ht (h.stopped (eq_false_of_ne_true hr)).2.1

/-! #### Steps outside the operations -/

theorem endTurn_inv {s : State} (h : s.Inv) : (endTurn s).Inv :=
  inv_congr h rfl rfl rfl rfl rfl rfl rfl rfl rfl rfl rfl

theorem setPort_inv {s : State} (a : Agent) (bs : List Byte) (h : s.Inv) : (setPort a bs s).Inv := by
  cases a <;> exact inv_congr h rfl rfl rfl rfl rfl rfl rfl rfl rfl rfl rfl

theorem emit_inv {s : State} (o : Output) (h : s.Inv) : (emit o s).Inv :=
  inv_congr h rfl rfl rfl rfl rfl rfl rfl rfl rfl rfl rfl

theorem observe_inv {s : State} (h : s.Inv) : (observe s).Inv :=
  inv_congr h rfl rfl rfl rfl rfl rfl rfl rfl rfl rfl (by simp [h.history])

/-! #### Event bits -/

theorem eventBits_mask (es : List Event) (w : Word) :
    (w ||| eventBits es) &&& ~~~eventMask = w &&& ~~~eventMask := by
  induction es generalizing w with
  | nil => simp [eventBits]
  | cons e es ih => rw [eventBits, ← BitVec.or_assoc, ih, eventBit_mask]

theorem Raised.mask {n : Nat} {s t : State} (h : Raised n s t) :
    t.evtStatus &&& ~~~eventMask = s.evtStatus &&& ~~~eventMask := by
  obtain ⟨es, -, -, hst⟩ := h
  rw [hst, eventBits_mask]

theorem acknowledge_inv {s : State} (data : Word) (h : s.Inv) : (acknowledge data s).Inv := by
  refine inv_congr h rfl rfl rfl rfl rfl rfl ?_ rfl rfl rfl rfl
  have hmask : s.evtStatus &&& ~~~eventMask = 0#32 := h.events.1
  rw [acknowledge_evtStatus, BitVec.and_assoc, BitVec.and_comm (~~~_), ← BitVec.and_assoc, hmask, BitVec.zero_and]

theorem evtEnable_inv {s : State} (data : Word) (h : s.Inv) : { s with evtEnable := data &&& eventMask }.Inv := by
  refine inv_congr h rfl rfl rfl rfl rfl rfl rfl ?_ rfl rfl rfl
  have hmask : s.evtEnable &&& ~~~eventMask = 0#32 := h.events.2
  rw [hmask, BitVec.and_assoc, BitVec.and_not_self]
  exact BitVec.and_zero

/-! #### INGEST -/

theorem rejectDatagram_inv {s : State} (dg : List Byte) (h : s.Inv) : (rejectDatagram dg s).Inv :=
  inv_congr h rfl rfl rfl rfl rfl rfl (eventBit_mask _ _) rfl rfl rfl rfl

theorem ringSlot_lt {s : State} (fi : Word) (h : ConfigOk s) : ringSlot s fi < s.cfg.ringMax :=
  Nat.lt_of_lt_of_le (Nat.mod_lt _ (isPow2_pos h.1)) h.2.1

theorem frameOk_of_ringSlot {s : State} {fi : Word} {fr : Frame} (h : s.Inv)
    (hfr : ringAt s (ringSlot s fi) = some fr) : FrameOk s.cfg fr :=
  (h.ring.2 _ (ringSlot_lt fi h.config) fr hfr).2.2

theorem frameFor_frameIndex (fi : Word) (s : State) : (frameFor fi s).frameIndex = fi := by
  unfold frameFor
  split
  · split
    · assumption
    · rfl
  · rfl

theorem frameFor_ok {s : State} (fi : Word) (h : s.Inv) : FrameOk s.cfg (frameFor fi s) := by
  unfold frameFor
  split
  · split
    · exact frameOk_of_ringSlot h ‹_›
    · exact freshFrame_ok s.cfg fi
  · exact freshFrame_ok s.cfg fi

theorem completeFrame_inv {s : State} (fi : Word) (h : s.Inv) (hr : s.run = true) : (completeFrame fi s).Inv := by
  unfold completeFrame
  split
  · split
    · exact h
    · exact tqPush_inv _ h (frameOk_of_ringSlot h ‹_›) hr
  · exact h

theorem fileDatagram_inv {s : State} (dg : List Byte) (h : s.Inv) (hr : s.run = true) : (fileDatagram dg s).Inv := by
  have hf : FrameOk s.cfg
      (fileBlock s.cfg (dgBlockIndex dg) (dgBlock s.cfg dg) (frameFor (dgFrameIndex s.cfg dg) s)) :=
    fileBlock_ok s.cfg _ dg (frameFor_ok _ h)
  refine setRing_inv _ _ (completeFrame_inv _ h hr) ?_ ?_ ?_
  · rw [completeFrame_cfg]; exact hf
  · rw [completeFrame_frame]; exact hr
  · rw [completeFrame_frame]
    exact congrArg (ringSlot s) (frameFor_frameIndex (dgFrameIndex s.cfg dg) s)

/-! #### REC_PROCESS -/

theorem tqTail_inv {s : State} {fr : Frame} {rest : List Frame} (h : s.Inv) (ht : s.tq = fr :: rest) :
    { s with tq := rest }.Inv := by
  obtain ⟨hlen, hjlen, htq, hjb⟩ := h.queues
  rw [ht] at hlen htq
  exact ⟨h.ring, h.config,
    ⟨Nat.le_of_succ_le hlen, hjlen, fun x hx => htq x (List.mem_cons_of_mem _ hx), hjb⟩, h.cursor, h.events,
    StoppedOk.of_run (h.run_of_tq (by simp [ht])), h.history⟩

theorem accounted_raised (fr : Frame) (s : State) : Raised 3 s (accounted fr s) :=
  ((processState_raised fr (selectM s fr) s).trans (validateStage_raised _ _ _)).trans (account_raised _ _ _ _)

theorem accounted_inv {s : State} (fr : Frame) (h : s.Inv) : (accounted fr s).Inv := by
  have hm := (accounted_raised fr s).mask
  rw [accounted_frame]
  exact inv_congr h rfl rfl rfl rfl rfl rfl hm rfl rfl rfl rfl

theorem processFrame_inv {s : State} {fr : Frame} (h : s.Inv) (hr : s.run = true) (hf : FrameOk s.cfg fr) :
    (processFrame fr s).Inv := by
  have hc : (accounted fr s).cfg = s.cfg := by rw [accounted_frame]
  rw [processFrame_eq]
  refine jbPush_inv _ (accounted_inv fr h) (by rw [accounted_frame]; exact hr) ?_ (sbFor_legal _ _ _)
  rw [hc]
  exact processResult_ok s.cfg fr _ hf

theorem execRecProcess_inv {s t : State} (h : s.Inv) (hx : execRecProcess s = .next t) : t.Inv := by
  unfold execRecProcess at hx
  split at hx
  · cases hx; exact h
  · rename_i fr rest ht
    cases hx
    have hfr : FrameOk s.cfg fr := h.queues.2.2.1 fr (by rw [ht]; exact List.mem_cons_self)
    exact processFrame_inv (tqTail_inv h ht) (h.run_of_tq (by simp [ht])) hfr

/-! #### READ_SAMPLE -/

/-- While the frame is not exhausted the cursor moves to another of its samples (R124). -/
theorem nextCursor_some_ok {c : Config} {e : JbEntry} {cur next : Cursor} (h : nextCursor c e cur = some next)
    (hb : 1 ≤ cur.blk) (hk : cur.blk < c.k) (hi : cur.idx < samplesPerBlock c e.sb) :
    1 ≤ next.blk ∧ next.blk < c.k ∧ next.idx < samplesPerBlock c e.sb := by
  have hpos := samplesPerBlock_pos c e.sb
  unfold nextCursor at h
  dsimp only at h
  split at h
  · split at h -- the last sample of a block
    · cases h
    · cases h; dsimp only at *; omega
  · split at h
    · cases h
    · cases h; dsimp only; omega

theorem readSample_inv {s : State} (isTx : Bool) (h : s.Inv) : (readSample isTx s).Inv := by
  cases hj : s.jb with
  | nil =>
    have he : readSample isTx s = emit (.sample 0#32 0#32) (raise .jbUnderrun s) := by simp [readSample, hj]
    rw [he]
    exact emit_inv _ (raise_inv _ h)
  | cons e rest =>
    have hcur := h.cursor
    simp only [CursorOk, hj] at hcur
    obtain ⟨hb, hk, hi⟩ := hcur
    rw [readSample_step isTx s e rest hj]
    cases hn : nextCursor s.cfg e s.cursor with
    | some next =>
      refine ⟨h.ring, h.config, h.queues, ?_, h.events, h.stopped, h.history⟩
      simp only [CursorOk, hj]
      exact nextCursor_some_ok hn hb hk hi
    | none =>
      obtain ⟨htlen, hjlen, htq, hjb⟩ := h.queues
      rw [hj] at hjlen hjb
      refine ⟨h.ring, h.config,
        ⟨htlen, Nat.le_of_succ_le hjlen, htq, fun x hx => hjb x (List.mem_cons_of_mem _ hx)⟩,
        cursorOk_start rfl, h.events, fun hr => ?_, h.history⟩
      obtain ⟨-, -, hempty⟩ := h.stopped hr
      rw [hj] at hempty; cases hempty

/-! #### The host operations -/

theorem afterRead_inv {s : State} (r : Register) (h : s.Inv) : (afterRead s r).Inv := by
  cases r with
  | telemetry t => exact inv_congr h rfl rfl rfl rfl rfl rfl rfl rfl rfl rfl (by simp [afterRead])
  | _ => exact h

theorem startReceiving_inv {s : State} (h : s.Inv) : (startReceiving s).Inv :=
  ⟨h.ring, h.config, h.queues, h.cursor, h.events, StoppedOk.of_run rfl, h.history⟩

theorem clearCounters_inv {s : State} (h : s.Inv) : (clearCounters s).Inv :=
  inv_congr h rfl rfl rfl rfl rfl rfl rfl rfl rfl rfl rfl

theorem stopReceiving_inv {s : State} (h : s.Inv) : (stopReceiving s).Inv := by
  unfold stopReceiving
  split
  · exact empty_inv h rfl rfl rfl rfl rfl h.events.1 h.events.2 h.config rfl
  · exact h

theorem writeCtrl_inv {s : State} (data : Word) (h : s.Inv) : (writeCtrl data s).Inv := by
  have hrun : (runAction data s).Inv := by
    unfold runAction
    split
    · exact startReceiving_inv h
    · exact stopReceiving_inv h
  rw [writeCtrl_eq]
  split
  · exact clearCounters_inv hrun
  · exact hrun

/-- The ring size changes while the ring is empty. -/
theorem writeRingSize_inv {s : State} (data : Word) (h : s.Inv) : (writeRingSize data s).Inv := by
  rw [writeRingSize_eq]
  split
  · rename_i hw
    obtain ⟨hr, hpow, hmax⟩ := hw
    obtain ⟨hnone, -, -⟩ := h.stopped hr
    refine ⟨⟨h.ring.1, fun k hk fr hfr => ?_⟩, ⟨hpow, hmax, h.config.2.2⟩, h.queues, h.cursor, h.events,
      h.stopped, h.history⟩
    have hmem : some fr ∈ s.ring := mem_ring_of_ringAt hfr
    cases hnone _ hmem
  · exact h

/-- The depth of the jitter buffer changes while the buffer is empty. -/
theorem writeJbDepth_inv {s : State} (data : Word) (h : s.Inv) : (writeJbDepth data s).Inv := by
  rw [writeJbDepth_eq]
  split
  · rename_i hw
    obtain ⟨hr, hlo, hhi⟩ := hw
    obtain ⟨-, -, hjb⟩ := h.stopped hr
    obtain ⟨hpow, hmax, -, -⟩ := h.config
    obtain ⟨htlen, -, htq, hjq⟩ := h.queues
    exact ⟨h.ring, ⟨hpow, hmax, hlo, hhi⟩, ⟨htlen, by simp [hjb], htq, hjq⟩, h.cursor, h.events,
      h.stopped, h.history⟩
  · exact h

theorem registerWrite_inv {s : State} (data : Word) (r : Register) (h : s.Inv) : (registerWrite data s r).Inv := by
  cases r with
  | ctrl => exact writeCtrl_inv data h
  | evtStatus => exact acknowledge_inv data h
  | evtEnable => exact evtEnable_inv data h
  | cfgRingSize => exact writeRingSize_inv data h
  | cfgJbDepth => exact writeJbDepth_inv data h
  | _ => exact h

/-- The reset values of CFG_RING_SIZE and CFG_JB_DEPTH are legal for every choice of the parameters. -/
theorem configOk_of_reset {t : State} (hring : t.cfgRingSize = BitVec.ofNat 32 t.cfg.ringReset)
    (hjb : t.cfgJbDepth = BitVec.ofNat 32 t.cfg.jbReset) : ConfigOk t := by
  obtain ⟨-, -, -, -, -, hpow, hmax, hr32, hj1, hjmax, hj32, -⟩ := t.cfg.legal.bounds
  rw [ConfigOk, hring, hjb, BitVec.toNat_ofNat, BitVec.toNat_ofNat, Nat.mod_eq_of_lt hr32, Nat.mod_eq_of_lt hj32]
  exact ⟨hpow, hmax, hj1, hjmax⟩

theorem resetBlock_inv {s : State} (h : s.Inv) : (resetBlock s).Inv :=
  empty_inv h rfl rfl rfl rfl rfl (BitVec.zero_and) (BitVec.zero_and) (configOk_of_reset rfl rfl) rfl

/-! #### The statements -/

/-- Every operation an agent presents keeps the invariant. -/
theorem exec_presented_inv {s t : State} {i : Instr} (h : s.Inv) (hi : i.presented = true)
    (hx : exec i s = .next t) : t.Inv := by
  cases i with
  | ingest dg =>
    simp only [exec, execIngest] at hx
    split at hx
    · cases hx; exact h
    rename_i hr
    split at hx
    · cases hx; exact rejectDatagram_inv dg h
    · cases hx; exact fileDatagram_inv dg h (by simpa using hr)
  | tqLen => cases hx; exact emit_inv _ h
  | recProcess => exact execRecProcess_inv h hx
  | readSampleRx => cases hx; exact readSample_inv false h
  | readSampleTx => cases hx; exact readSample_inv true h
  | regRead addr => cases hx; exact emit_inv _ (afterRead_inv _ h)
  | regWrite addr data => cases hx; exact registerWrite_inv data _ h
  | start => cases hx; exact startReceiving_inv h
  | stop => cases hx; exact stopReceiving_inv h
  | clearCounters => cases hx; exact clearCounters_inv h
  | reset => cases hx; exact resetBlock_inv h
  | tqPush | tqPop | tqClear | fecRecover | metaValidate | jbPush => cases hi

/-- Settles O60: taking the turn and noting the telemetry are outside the invariant, and every presented
operation keeps it. -/
theorem invariantIsKeptByEveryStep : Obligations.InvariantIsKeptByEveryStep := by
  intro s t hs hpres h
  rcases step_next_cases h with ⟨-, rfl | rfl⟩ | ⟨i, u, v, hf, hx, rfl⟩
  · exact hs
  · exact endTurn_inv hs
  · obtain ⟨-, a, rest, rfl⟩ := fetch_perform_cases hf
    exact observe_inv (exec_presented_inv (setPort_inv a rest (endTurn_inv hs)) (hpres i _ hf) hx)

theorem init_inv (c : Config) : (State.init c).Inv := by
  have hnone : ∀ o ∈ (State.init c).ring, o = none := fun o ho => List.eq_of_mem_replicate ho
  refine ⟨⟨List.length_replicate, fun k _ fr hfr => ?_⟩, configOk_of_reset rfl rfl,
    ⟨Nat.zero_le _, Nat.zero_le _, ?_, ?_⟩, cursorOk_start rfl, ⟨BitVec.zero_and, BitVec.zero_and⟩,
    fun _ => ⟨hnone, rfl, rfl⟩, rfl⟩
  · cases hnone _ (mem_ring_of_ringAt hfr)
  · exact fun fr hfr => absurd hfr List.not_mem_nil
  · exact fun e he => absurd he List.not_mem_nil

/-- Settles O59: the block of power-on is empty and its configuration registers are legal. -/
theorem invariantHoldsAfterReset : Obligations.InvariantHoldsAfterReset :=
  ⟨init_inv, init_inv _⟩

end Sys2Proof.Machine


/-! ### The logs and the status bits (10_state.md R32, R37; 60_exceptions.md R136) -/

namespace Sys2Proof.Machine

/-- Every operation appends its events and sets their bits, but for the two that clear bits: RESET and a write
of EVT_STATUS. -/
theorem exec_raised {s t : State} {i : Instr} (h : exec i s = .next t) :
    (i = .reset ∧ t = resetBlock s) ∨ (∃ data, i = .regWrite 0x08#8 data ∧ t = acknowledge data s) ∨
      Raised 4 s t := by
  cases i with
  | reset => cases h; exact .inl ⟨rfl, rfl⟩
  | regWrite addr data =>
    rw [exec_regWrite] at h
    cases h
    right
    cases hr : registerAt addr with
    | evtStatus => exact .inl ⟨data, by rw [registerAt_eq_evtStatus hr], rfl⟩
    | ctrl => exact .inr (.refl 4 (by rw [registerWrite, writeCtrl_frame]) (by rw [registerWrite, writeCtrl_frame]))
    | cfgRingSize => right; rw [registerWrite, writeRingSize_eq]; split <;> exact .refl 4 rfl rfl
    | cfgJbDepth => right; rw [registerWrite, writeJbDepth_eq]; split <;> exact .refl 4 rfl rfl
    | _ => exact .inr (.refl 4 rfl rfl)
  | ingest dg =>
    right; right
    simp only [exec, execIngest] at h
    split at h
    · cases h; exact .refl 4 rfl rfl
    split at h
    · cases h; exact .one (n := 3) _ rfl rfl
    · cases h; exact (fileDatagram_raised dg s).mono (by decide)
  | tqPush fr => cases h; exact .inr (.inr ((tqPush_raised fr s).mono (by decide)))
  | tqPop =>
    right; right
    simp only [exec, execTqPop] at h
    split at h <;> cases h <;> exact .refl 4 rfl rfl
  | recProcess =>
    right; right
    simp only [exec, execRecProcess] at h
    split at h
    · cases h; exact .refl 4 rfl rfl
    · rename_i fr rest _
      cases h
      exact processFrame_raised fr { s with tq := rest }
  | fecRecover fr m => cases h; exact .inr (.inr ((recoverState_raised fr m s).mono (by decide)))
  | metaValidate fr =>
    right; right
    simp only [exec, execMetaValidate] at h
    split at h
    · cases h; exact (metaValidate_raised fr s).mono (by decide)
    · cases h; exact .refl 4 rfl rfl
  | jbPush e => cases h; exact .inr (.inr ((jbPush_raised e s).mono (by decide)))
  | readSampleRx => cases h; exact .inr (.inr ((readSample_raised false s).mono (by decide)))
  | readSampleTx => cases h; exact .inr (.inr ((readSample_raised true s).mono (by decide)))
  | regRead addr =>
    cases h
    exact .inr (.inr (.refl 4 (by rw [emit_events, afterRead_frame]) (by rw [emit_evtStatus, afterRead_frame])))
  | stop => cases h; exact .inr (.inr (.refl 4 (by rw [stopReceiving_frame]) (by rw [stopReceiving_frame])))
  | tqLen | tqClear | start | clearCounters => cases h; exact .inr (.inr (.refl 4 rfl rfl))

/-- `t` has the values returned of `s`, with at most one more. -/
def Returned (s t : State) : Prop := ∃ os, t.outputs = s.outputs ++ os ∧ os.length ≤ 1

theorem Returned.none {s t : State} (h : t.outputs = s.outputs) : Returned s t := ⟨[], by simp [h], by simp⟩

theorem Returned.one {s t : State} (o : Output) (h : t.outputs = s.outputs) : Returned s (emit o t) :=
  ⟨[o], by rw [emit_outputs, h], by simp⟩

theorem readSample_returned (isTx : Bool) (s : State) : Returned s (readSample isTx s) := by
  unfold readSample
  split
  · exact .one _ rfl
  · exact .one _ (by rw [advance_frame])

theorem exec_returned {s t : State} {i : Instr} (h : exec i s = .next t) : Returned s t := by
  cases i with
  | ingest dg =>
    simp only [exec, execIngest] at h
    split at h
    · cases h; exact .none rfl
    split at h
    · cases h; exact .none rfl
    · cases h; exact .none (by rw [fileDatagram_frame])
  | tqPop =>
    simp only [exec, execTqPop] at h
    split at h <;> cases h <;> exact .one _ rfl
  | recProcess =>
    simp only [exec, execRecProcess] at h
    split at h <;> cases h
    · exact .none rfl
    · exact .none (by rw [processFrame_frame])
  | metaValidate fr =>
    simp only [exec, execMetaValidate] at h
    split at h <;> cases h
    · exact .one _ (by rw [metaValidate_frame])
    · exact .none rfl
  | tqPush fr => cases h; exact .none (by rw [tqPush_frame])
  | tqLen => cases h; exact .one _ rfl
  | fecRecover fr m => cases h; exact .one _ (by rw [recoverState_frame])
  | jbPush e => cases h; exact .none (by rw [jbPush_frame])
  | readSampleRx => cases h; exact readSample_returned false s
  | readSampleTx => cases h; exact readSample_returned true s
  | regRead addr => cases h; exact .one _ (by rw [afterRead_frame])
  | regWrite addr data => cases h; exact .none (by rw [registerWrite_frame])
  | stop => cases h; exact .none (by rw [stopReceiving_frame])
  | tqClear | start | clearCounters | reset => cases h; exact .none rfl

/-- Settles O55: the two operations that clear status bits leave the event log alone. -/
theorem logsOnlyGrow : Obligations.LogsOnlyGrow := by
  intro s t i h
  refine ⟨?_, exec_returned h⟩
  rcases exec_raised h with ⟨-, rfl⟩ | ⟨data, -, rfl⟩ | ⟨es, hes, hlen, -⟩
  · exact ⟨[], (List.append_nil _).symm, Nat.zero_le 4⟩
  · exact ⟨[], (List.append_nil _).symm, Nat.zero_le 4⟩
  · exact ⟨es, hes, hlen⟩

theorem eventCode_pos (e : Event) : 1 ≤ eventCode e := by
  cases e <;> simp [eventCode]

theorem bit_of_mem_eventBits {e : Event} {es : List Event} (h : e ∈ es) :
    (eventBits es).getLsbD (eventCode e - 1) = true :=
  (eventBits_getLsbD es _).mpr ⟨e, h, (Nat.sub_add_cancel (eventCode_pos e)).symm⟩

/-- Settles O57: status bits join with their events, and only two operations clear any. -/
theorem statusBitsFollowEvents : Obligations.StatusBitsFollowEvents := by
  intro s t i h
  rcases exec_raised h with ⟨rfl, rfl⟩ | ⟨data, rfl, rfl⟩ | ⟨es, hes, -, hst⟩
  · refine ⟨fun n => ⟨fun _ _ => .inl rfl, fun _ h1 => ?_⟩, fun es hes e he => ?_⟩
    · simp [resetBlock] at h1
    · cases List.self_eq_append_right.mp hes; cases he
  · refine ⟨fun n => ⟨fun h1 h0 => .inr ⟨data, rfl, ?_⟩, fun h0 h1 => ?_⟩, fun es hes e he => ?_⟩
    · rw [acknowledge_getLsbD, h1] at h0
      simpa [and_comm] using h0
    · rw [acknowledge_getLsbD, h0] at h1; cases h1
    · cases List.self_eq_append_right.mp hes; cases he
  · refine ⟨fun n => ⟨fun h1 h0 => ?_, fun h0 h1 => ?_⟩, fun fs hfs e he => ⟨eventCode_pos e, ?_⟩⟩
    · rw [hst, BitVec.getLsbD_or, h1] at h0; cases h0
    · rw [hst, BitVec.getLsbD_or, h0, Bool.false_or] at h1
      obtain ⟨e, he, hc⟩ := (eventBits_getLsbD es n).mp h1
      exact ⟨e, es, hes, he, hc⟩
    · have hfe : fs = es := List.append_cancel_left (hfs.symm.trans hes)
      rw [hst, BitVec.getLsbD_or, bit_of_mem_eventBits (hfe ▸ he), Bool.or_true]

end Sys2Proof.Machine


/-! ### Who writes what (10_state.md R26 to R31, R37, R38) -/

namespace Sys2Proof.Machine

/-- Settles O56: the frame of each operation names what it changes, and the statement lists it as an owner. -/
theorem stateIsWrittenOnlyByItsOwners : Obligations.StateIsWrittenOnlyByItsOwners := by
  intro s t i h
  cases i with
  | ingest dg =>
    simp only [exec, execIngest] at h
    split at h
    · cases h; simp
    split at h <;> cases h
    · rw [rejectDatagram_frame]; simp
    · rw [fileDatagram_frame]; simp
  | tqPush fr => cases h; rw [tqPush_frame]; simp
  | tqPop =>
    simp only [exec, execTqPop] at h
    split at h <;> cases h <;> simp
  | tqLen => cases h; simp
  | tqClear => cases h; simp
  | recProcess =>
    simp only [exec, execRecProcess] at h
    split at h <;> cases h
    · simp
    · rw [processFrame_frame]; simp
  | fecRecover fr m => cases h; rw [recoverState_frame]; simp
  | metaValidate fr =>
    simp only [exec, execMetaValidate] at h
    split at h <;> cases h
    · rw [metaValidate_frame]; simp
    · simp
  | jbPush e => cases h; rw [jbPush_frame]; simp
  | readSampleRx => cases h; rw [readSample_frame]; simp
  | readSampleTx => cases h; rw [readSample_frame]; simp
  | regRead addr => cases h; rw [afterRead_frame]; simp
  | regWrite addr data =>
    rw [exec_regWrite] at h
    cases h
    cases hr : registerAt addr with
    | ctrl => rw [registerAt_eq_ctrl hr, registerWrite, writeCtrl_frame]; simp
    | evtStatus => simp [registerWrite]
    | evtEnable => rw [registerAt_eq_evtEnable hr]; simp [registerWrite]
    | cfgRingSize =>
      rw [registerAt_eq_cfgRingSize hr, registerWrite, writeRingSize_eq]
      split
      · rename_i hw; simp [hw.1]
      · simp
    | cfgJbDepth =>
      rw [registerAt_eq_cfgJbDepth hr, registerWrite, writeJbDepth_eq]
      split
      · rename_i hw; simp [hw.1]
      · simp
    | _ => simp [registerWrite]
  | start => cases h; simp
  | stop => cases h; rw [stopReceiving_frame]; simp
  | clearCounters => cases h; simp
  | reset => cases h; simp

end Sys2Proof.Machine


/-! ### Performing the presented operation (20_memory.md R51, R56) -/

namespace Sys2Proof.Machine

/-- The agent whose turn it is performs the operation it has presented, unless it may not or holds. -/
theorem fetch_perform {s : State} {a : Agent} {rest : List Agent} {tail : List Byte} {i : Instr}
    (hsched : s.sched = a :: rest) (hdec : decode s.cfg (portOf s a) = .ok (i, tail)) (hown : owns a i = true)
    (hgo : holds i s = false) : fetch s = .perform i (setPort a tail (endTurn s)) := by
  simp only [fetch, hsched]
  split
  · rename_i hport
    rw [hport] at hdec
    cases hdec
  · rename_i hport
    simp [← hport, hdec, hown, hgo]

theorem holds_eq_false {i : Instr} {s : State} (h : i = .recProcess → s.tq ≠ []) : holds i s = false := by
  by_cases hi : i = .recProcess
  · simp [holds, h hi]
  · simp [holds, hi]

theorem step_of_perform {s u t : State} {i : Instr} (hf : fetch s = .perform i u) (hx : exec i u = .next t) :
    step s = .next (observe t) := by
  simp only [step, hf, hx, retire]

/-- Settles O1: `fetch` answers the operation, and `step` performs it in the state `fetch` gives. -/
theorem stepPerformsThePresentedOperation : Obligations.StepPerformsThePresentedOperation := by
  rintro s a rest _ tail i hsched rfl hdec hown hrec t hx
  have hturn : endTurn s = { s with sched := rest } := by rw [endTurn, hsched]; rfl
  exact step_of_perform (fetch_perform hsched hdec hown (holds_eq_false hrec)) (hturn ▸ hx)

end Sys2Proof.Machine


/-! ### Telemetry reads and the telemetry history (10_state.md R40, 20_memory.md R53) -/

namespace Sys2Proof.Machine

theorem allTelemetry_getElem? (r : Telemetry) : allTelemetry[telemetryIndex r]? = some r := by
  cases r <;> rfl

theorem telemetryIndex_injective : Function.Injective telemetryIndex := fun r r' h =>
  Option.some.inj ((allTelemetry_getElem? r).symm.trans (h ▸ allTelemetry_getElem? r'))

theorem telemetryIndex_lt (r : Telemetry) : telemetryIndex r < allTelemetry.length :=
  (List.getElem?_eq_some_iff.mp (allTelemetry_getElem? r)).1

theorem ofCached_eq (s : State) (f : MetaDataFEC → Word) : ofCached s f = (s.cachedMeta.map f).getD 0#32 := by
  unfold ofCached
  cases s.cachedMeta <;> rfl

/-! #### Reads -/

theorem telemetryRead_of_noDraw {s : State} (h : s.telDraws = []) (r : Telemetry) :
    telemetryRead s r = telemetryNow s r := by
  simp [telemetryRead, h, admittedValues]

/-- A draw selects the present value or one of the history. -/
theorem telemetryRead_admitted (s : State) (r : Telemetry) :
    telemetryRead s r = telemetryNow s r ∨ telemetryRead s r ∈ s.telSeen.getD (telemetryIndex r) [] := by
  unfold telemetryRead
  generalize s.telDraws.headD 0 = n
  by_cases hn : n < (admittedValues s r).length
  · rw [List.getD_eq_getElem _ _ hn]
    exact List.mem_cons.mp (List.getElem_mem hn)
  · exact .inl (List.getD_eq_default _ _ (Nat.le_of_not_lt hn))

theorem exec_regRead_telemetry {addr : Byte} {r : Telemetry} (h : registerAt addr = .telemetry r) (s : State) :
    exec (.regRead addr) s = .next (emit (.word (telemetryRead s r)) (noteRead r s)) := by
  rw [exec_regRead, h]
  rfl

/-- Settles O44: the offset names its register, and the history takes the present value of that one. -/
theorem telemetryReadsAreAdmitted : Obligations.TelemetryReadsAreAdmitted := by
  intro s addr now _ h n
  obtain ⟨r, haddr, hn, hnow⟩ :
      ∃ r, registerAt addr = .telemetry r ∧ telemetryIndex r = n ∧ telemetryNow s r = now := by
    simp only [← ofCached_eq] at h
    rcases h with ⟨rfl, rfl⟩ | ⟨rfl, rfl⟩ | ⟨rfl, rfl⟩ | ⟨rfl, rfl⟩ | ⟨rfl, rfl⟩ | ⟨rfl, rfl⟩ | ⟨rfl, rfl⟩ |
      ⟨rfl, rfl⟩ | ⟨rfl, rfl⟩ | ⟨rfl, rfl⟩ | ⟨rfl, rfl⟩ | ⟨rfl, rfl⟩ | ⟨rfl, rfl⟩
    exacts [⟨.queueSize, rfl, rfl, rfl⟩, ⟨.queueLength, rfl, rfl, rfl⟩, ⟨.readSamples, rfl, rfl, rfl⟩,
      ⟨.correctable, rfl, rfl, rfl⟩, ⟨.uncorrectable, rfl, rfl, rfl⟩, ⟨.centerFreqLo, rfl, rfl, rfl⟩,
      ⟨.centerFreqHi, rfl, rfl, rfl⟩, ⟨.sampleRate, rfl, rfl, rfl⟩, ⟨.malformed, rfl, rfl, rfl⟩,
      ⟨.tqLength, rfl, rfl, rfl⟩, ⟨.tqDrops, rfl, rfl, rfl⟩, ⟨.jbDrops, rfl, rfl, rfl⟩,
      ⟨.metaFormat, rfl, rfl, rfl⟩]
  rw [← hn, ← hnow]
  refine ⟨fun r' hr' => ?_, telemetryRead s r, exec_regRead_telemetry haddr s, telemetryRead_admitted s r,
    fun hd => telemetryRead_of_noDraw hd r⟩
  cases telemetryIndex_injective hr'
  exact ⟨haddr, rfl⟩

/-! #### The history -/

theorem mem_noteValue {v w : Word} {seen : List Word} : v ∈ noteValue w seen ↔ v = w ∨ v ∈ seen := by
  unfold noteValue
  split
  · rename_i h
    have hw : w ∈ seen := List.mem_of_head? h
    exact ⟨.inr, fun hv => hv.elim (fun he => he ▸ hw) id⟩
  · exact List.mem_cons

theorem observe_telSeen_length {s : State} (h : s.telSeen.length = 13) : (observe s).telSeen.length = 13 := by
  simp [h, allTelemetry]

/-- The bookkeeping notes in each history the present value of its register. -/
theorem observe_telSeen_getD {s : State} (h : s.telSeen.length = 13) (r : Telemetry) :
    (observe s).telSeen.getD (telemetryIndex r) [] =
      noteValue (telemetryNow s r) (s.telSeen.getD (telemetryIndex r) []) := by
  have hr : telemetryIndex r < s.telSeen.length := h ▸ telemetryIndex_lt r
  simp [List.getD_eq_getElem?_getD, List.getElem?_zipWith, allTelemetry_getElem?, hr]

theorem telemetryNow_observe (s : State) (r : Telemetry) : telemetryNow (observe s) r = telemetryNow s r := by
  cases r <;> rfl

/-- The histories are written by a telemetry read alone, which restarts one of them (R53). -/
theorem exec_telSeen {s t : State} {i : Instr} (h : exec i s = .next t) :
    t.telSeen = s.telSeen ∨
    ∃ addr r, i = .regRead addr ∧ registerAt addr = .telemetry r ∧
      t.telSeen = s.telSeen.set (telemetryIndex r) [telemetryNow s r] := by
  cases i with
  | regRead addr =>
    rw [exec_regRead] at h
    cases h
    cases hr : registerAt addr with
    | telemetry r => exact .inr ⟨addr, r, rfl, hr, rfl⟩
    | _ => exact .inl rfl
  | ingest dg =>
    simp only [exec, execIngest] at h
    split at h
    · cases h; exact .inl rfl
    split at h
    · cases h; exact .inl rfl
    · cases h; exact .inl (by rw [fileDatagram_frame])
  | tqPop =>
    simp only [exec, execTqPop] at h
    split at h <;> cases h <;> exact .inl rfl
  | recProcess =>
    simp only [exec, execRecProcess] at h
    split at h <;> cases h
    · exact .inl rfl
    · exact .inl (by rw [processFrame_frame])
  | metaValidate fr =>
    simp only [exec, execMetaValidate] at h
    split at h <;> cases h
    · exact .inl (by rw [emit_telSeen, metaValidate_frame])
    · exact .inl rfl
  | tqPush fr => cases h; exact .inl (by rw [tqPush_frame])
  | fecRecover fr m => cases h; exact .inl (by rw [emit_telSeen, recoverState_frame])
  | jbPush e => cases h; exact .inl (by rw [jbPush_frame])
  | readSampleRx => cases h; exact .inl (by rw [readSample_frame])
  | readSampleTx => cases h; exact .inl (by rw [readSample_frame])
  | regWrite addr data => cases h; exact .inl (by rw [registerWrite_frame])
  | stop => cases h; exact .inl (by rw [stopReceiving_frame])
  | tqLen | tqClear | start | clearCounters | reset => cases h; exact .inl rfl

theorem exec_telSeen_length {s t : State} {i : Instr} (h : exec i s = .next t) :
    t.telSeen.length = s.telSeen.length := by
  rcases exec_telSeen h with ht | ⟨_, _, -, -, ht⟩ <;> simp [ht]

/-- An operation that is no read of a register leaves its history as it is. -/
theorem exec_telSeen_getD {s t : State} {i : Instr} {r : Telemetry} (h : exec i s = .next t)
    (hi : ∀ addr, i = .regRead addr → registerAt addr ≠ .telemetry r) :
    t.telSeen.getD (telemetryIndex r) [] = s.telSeen.getD (telemetryIndex r) [] := by
  rcases exec_telSeen h with ht | ⟨addr, r', rfl, haddr, ht⟩
  · rw [ht]
  · have hne : telemetryIndex r' ≠ telemetryIndex r := fun he =>
      hi addr rfl (telemetryIndex_injective he ▸ haddr)
    rw [ht, List.getD_eq_getElem?_getD, List.getElem?_set_ne hne, List.getD_eq_getElem?_getD]

/-- Settles O45: no operation but a read shortens a history, and the bookkeeping only adds to each. -/
theorem telemetryHistoryKeepsPace : Obligations.TelemetryHistoryKeepsPace := by
  intro s t i h hlen
  have ht : t.telSeen.length = 13 := (exec_telSeen_length h).trans hlen
  refine ⟨observe_telSeen_length ht, fun r => ?_⟩
  rw [observe_telSeen_getD ht, telemetryNow_observe]
  refine ⟨mem_noteValue.mpr (.inl rfl), fun hi w hw => mem_noteValue.mpr (.inr ?_)⟩
  rw [exec_telSeen_getD h hi]
  exact hw

end Sys2Proof.Machine


/-! ### Records of operations (30_encoding.md section 4) -/

namespace Sys2Proof.Machine

/-! #### Encoded records -/

theorem takeNat_word (w : Word) (rest : List Byte) :
    takeNat 4 (leBytes 4 w.toNat ++ rest) = .ok (w.toNat, rest) :=
  takeNat_append 4 w.toNat rest w.isLt

theorem except_ok_bind {α β ε : Type} (a : α) (f : α → Except ε β) : ((.ok a : Except ε α) >>= f) = f a := rfl

/-- Settles O6: the selector picks the arm of the decoder, whose readers then read back the operands one after
another. -/
theorem decodeOfEncodeIsIdentity : Obligations.DecodeOfEncodeIsIdentity := by
  intro c i rest h
  rw [encode, List.cons_append]
  cases i with
  | ingest dg =>
    have hlen : dg.length < 256 ^ 2 := by simp only [Instr.wf, decide_eq_true_eq] at h; omega
    simp [selectorOf, encodeOperands, decode, except_ok_bind, takeNat_append 2 dg.length _ hlen, takeBytes_append]
  | tqPush fr => simp [selectorOf, encodeOperands, decode, except_ok_bind, takeFrame_append _ fr _ h]
  | fecRecover fr m =>
    obtain ⟨hfr, hm⟩ : fr.wf c.blockBytes = true ∧ m < 256 ^ 2 := by simpa [Instr.wf] using h
    simp [selectorOf, encodeOperands, decode, except_ok_bind, takeFrame_append _ fr _ hfr, takeNat_append 2 m _ hm]
  | metaValidate fr => simp [selectorOf, encodeOperands, decode, except_ok_bind, takeFrame_append _ fr _ h]
  | jbPush e =>
    simp [selectorOf, encodeOperands, decode, except_ok_bind, takeFrame_append _ e.frame _ h, takeByte]
  | regWrite addr data => simp [selectorOf, encodeOperands, decode, except_ok_bind, takeByte, takeNat_word]
  | regRead | tqPop | tqLen | tqClear | recProcess | readSampleRx | readSampleTx | start | stop
  | clearCounters | reset => rfl -- at most one operand byte

/-- Settles O5: the records are closed terms, so the decoder is run on each. -/
theorem writtenOutRecordsDecode : Obligations.WrittenOutRecordsDecode := by
  unfold Obligations.WrittenOutRecordsDecode
  decide

/-! #### Reserved selectors -/

theorem decode_reserved (c : Config) {sel : Byte} (bs : List Byte)
    (h : sel.toNat = 0 ∨ (0x0C ≤ sel.toNat ∧ sel.toNat ≤ 0x0F) ∨ 0x16 ≤ sel.toNat) :
    decode c (sel :: bs) = .error (.reservedSelector sel) := by
  rw [decode]
  split
  case h_18 => rfl
  all_goals omega -- the selectors of the table

theorem step_of_undecodable {s : State} {a : Agent} {rest : List Agent} {b : Byte} {bs : List Byte} {e : DecodeError}
    (hsched : s.sched = a :: rest) (hport : portOf s a = b :: bs) (hdec : decode s.cfg (b :: bs) = .error e) :
    step s = .refused (.undecodable e) := by
  have hf : fetch s = .reject (.undecodable e) := by simp only [fetch, hsched, hport, hdec]
  rw [step, hf]

/-- Settles O3: such a selector falls past every arm of the decoder, and `fetch` rejects what does not decode. -/
theorem reservedSelectorsAreRefused : Obligations.ReservedSelectorsAreRefused := fun _ bs h =>
  ⟨fun c => decode_reserved c bs h,
    fun s _ _ hsched hport => step_of_undecodable hsched hport (decode_reserved s.cfg bs h)⟩

end Sys2Proof.Machine


/-! ### The fields of a datagram (30_encoding.md section 1) -/

namespace Sys2Proof.Machine

theorem slotOf_freshFrame (c : Config) (fi : Word) {b : Nat} (h : b < 256) :
    slotOf (freshFrame c fi) b = freshBlock c.blockBytes := by
  rw [slotOf, freshFrame, List.getD_eq_getElem _ _ (by rwa [List.length_replicate]), List.getElem_replicate]

/-- Settles O12: the field of four bytes at offset 0, and the slots of `freshFrame`. -/
theorem datagramFieldsAreLittleEndian : Obligations.DatagramFieldsAreLittleEndian := fun c dg hc =>
  ⟨readField_little_four c hc dg 0, rfl, fun fi _ hb => slotOf_freshFrame c fi hb⟩

end Sys2Proof.Machine


/-! ### The samples READ_SAMPLE returns (30_encoding.md section 3, 44_jitter_buffer.md R123, R127) -/

namespace Sys2Proof.Machine

/-! #### Conversion as shifts -/

/-- A shift to the left that stays within 32 bits loses nothing. -/
theorem toInt_signExtend_shiftLeft {w n : Nat} (b : BitVec w) (h : w + n ≤ 32) :
    (b.signExtend 32 <<< n).toInt = b.toInt * 2 ^ n := by
  have hw : 2 ^ w * 2 ^ n ≤ (2 : Int) ^ 32 := by
    rw [← pow_add]
    exact pow_le_pow_right₀ (by norm_num) h
  have hlo := BitVec.le_two_mul_toInt (x := b)
  have hhi := BitVec.two_mul_toInt_lt (x := b)
  have hpos : (0 : Int) < 2 ^ n := by positivity
  rw [← ofInt_mul_two_pow, BitVec.toInt_ofInt]
  apply Int.bmod_eq_of_le_mul_two
  · push_cast; nlinarith
  · push_cast; nlinarith

/-- R127 for a component no wider than the output: its sign extension shifted left to the output width, then
right by the headroom. -/
theorem convert_widened (c : Config) {w : Nat} (b : BitVec w) (isTx : Bool) (h : w ≤ outputBits c isTx)
    (h32 : outputBits c isTx ≤ 32) :
    BitVec.ofInt 32 (convert c b.toInt w isTx) =
      (b.signExtend 32 <<< (outputBits c isTx - w)).sshiftRight (headroom c isTx w) := by
  rw [convert, if_pos h, ← toInt_signExtend_shiftLeft b (by omega), ofInt_ediv_two_pow]

/-- R127 for a component at least as wide as the output, in its 32-bit container: shifted right to the output
width, then by the headroom. -/
theorem convert_narrowed (c : Config) (v : Word) (sig : Nat) (isTx : Bool) (h : outputBits c isTx ≤ sig) :
    BitVec.ofInt 32 (convert c v.toInt sig isTx) =
      (v.sshiftRight (sig - outputBits c isTx)).sshiftRight (headroom c isTx sig) := by
  have hv : (if sig ≤ outputBits c isTx then v.toInt * 2 ^ (outputBits c isTx - sig)
      else v.toInt / 2 ^ (sig - outputBits c isTx)) = (v.sshiftRight (sig - outputBits c isTx)).toInt := by
    rw [BitVec.toInt_sshiftRight, Int.shiftRight_eq_div_pow]
    split
    · rw [show outputBits c isTx = sig by omega]; simp
    · push_cast; rfl
  rw [convert, hv, ofInt_ediv_two_pow]

theorem outputBits_bounds (c : Config) (isTx : Bool) : 16 ≤ outputBits c isTx ∧ outputBits c isTx ≤ 24 := by
  unfold outputBits
  split
  · decide
  · cases c.rxBits <;> decide

/-! #### One component -/

theorem outputComponent_one (c : Config) (isTx : Bool) (p : List Byte) (o : Nat) :
    outputComponent c isTx p o 1 =
      ((byteAt p o).signExtend 32 <<< (outputBits c isTx - 8)).sshiftRight (headroom c isTx 8) := by
  obtain ⟨hlo, hhi⟩ := outputBits_bounds c isTx
  exact convert_widened c (byteAt p o) isTx (by omega) (by omega)

theorem outputComponent_two (c : Config) (hc : c.wireEndian = .little) (isTx : Bool) (p : List Byte) (o : Nat) :
    outputComponent c isTx p o 2 =
      ((byteAt p (o + 1) ++ byteAt p o).signExtend 32 <<< (outputBits c isTx - 16)).sshiftRight
        (headroom c isTx 16) := by
  obtain ⟨hlo, hhi⟩ := outputBits_bounds c isTx
  rw [← readField_little_two c hc]
  exact convert_widened c (readField c.wireEndian 2 p o) isTx (by omega) (by omega)

theorem outputComponent_four (c : Config) (hc : c.wireEndian = .little) (isTx : Bool) (p : List Byte) (o : Nat) :
    outputComponent c isTx p o 4 =
      ((byteAt p (o + 3) ++ byteAt p (o + 2) ++ byteAt p (o + 1) ++ byteAt p o).sshiftRight
        (24 - outputBits c isTx)).sshiftRight (headroom c isTx 24) := by
  rw [← readField_little_four c hc]
  exact convert_narrowed c (readField c.wireEndian 4 p o) 24 isTx (outputBits_bounds c isTx).2

/-! #### The pair at the cursor -/

theorem samplePair_supported (c : Config) (isTx : Bool) {e : JbEntry} {n : Nat} (cur : Cursor)
    (hn : n = 1 ∨ n = 2 ∨ n = 4) (h : e.sb = BitVec.ofNat 8 n) :
    samplePair c isTx e cur =
      (outputComponent c isTx (payloadOf e.frame cur.blk) (2 * n * cur.idx) n,
        outputComponent c isTx (payloadOf e.frame cur.blk) (2 * n * cur.idx + n) n) := by
  have hsb : e.sb.toNat = n := by rcases hn with rfl | rfl | rfl <;> rw [h] <;> rfl
  have hw : isSampleWidth n = true := by rcases hn with rfl | rfl | rfl <;> rfl
  simp only [samplePair, hsb, hw, if_true, Nat.mul_comm cur.idx]

theorem readSample_outputs (isTx : Bool) {s : State} {e : JbEntry} {rest : List JbEntry} (h : s.jb = e :: rest) :
    (readSample isTx s).outputs = s.outputs ++
      [.sample (samplePair s.cfg isTx e s.cursor).1 (samplePair s.cfg isTx e s.cursor).2] := by
  rw [readSample_step isTx s e rest h]

/-- The pair each width gives, for either path: R123 and R127 together. -/
theorem samplePair_little (c : Config) (hc : c.wireEndian = .little) (isTx : Bool) (e : JbEntry) (cur : Cursor) :
    let b := byteAt (payloadOf e.frame cur.blk)
    let o := cur.idx
    let w := outputBits c isTx
    (e.sb = 1#8 → samplePair c isTx e cur =
      (((b (2 * o)).signExtend 32 <<< (w - 8)).sshiftRight (headroom c isTx 8),
        ((b (2 * o + 1)).signExtend 32 <<< (w - 8)).sshiftRight (headroom c isTx 8))) ∧
    (e.sb = 2#8 → samplePair c isTx e cur =
      (((b (4 * o + 1) ++ b (4 * o)).signExtend 32 <<< (w - 16)).sshiftRight (headroom c isTx 16),
        ((b (4 * o + 3) ++ b (4 * o + 2)).signExtend 32 <<< (w - 16)).sshiftRight (headroom c isTx 16))) ∧
    (e.sb = 4#8 → samplePair c isTx e cur =
      (((b (8 * o + 3) ++ b (8 * o + 2) ++ b (8 * o + 1) ++ b (8 * o)).sshiftRight (24 - w)).sshiftRight
          (headroom c isTx 24),
        ((b (8 * o + 7) ++ b (8 * o + 6) ++ b (8 * o + 5) ++ b (8 * o + 4)).sshiftRight (24 - w)).sshiftRight
          (headroom c isTx 24))) := by
  refine ⟨fun h => ?_, fun h => ?_, fun h => ?_⟩
  · rw [samplePair_supported c isTx cur (n := 1) (by decide) h, outputComponent_one, outputComponent_one]
  · rw [samplePair_supported c isTx cur (n := 2) (by decide) h, outputComponent_two c hc, outputComponent_two c hc]
  · rw [samplePair_supported c isTx cur (n := 4) (by decide) h, outputComponent_four c hc, outputComponent_four c hc]

theorem headroom_tx (c : Config) (sig : Nat) : headroom c true sig = 0 := rfl

theorem headroom_rx (c : Config) (sig : Nat) :
    headroom c false sig = if sig = 24 ∨ c.rxBits.bits = 24 then c.rxHeadroom else 0 := by
  simp [headroom, outputBits]

/-- Settles O38: on the Tx path the output has 16 bits and there is no headroom shift. -/
theorem txSamplesAreConverted : Obligations.TxSamplesAreConverted := by
  intro s e rest hj hc
  obtain ⟨h1, h2, h4⟩ := samplePair_little s.cfg hc true e s.cursor
  refine ⟨readSample true s, _, _, rfl, readSample_outputs true hj, fun h => ?_, fun h => ?_, fun h => ?_⟩
  · simp [h1 h, outputBits, headroom_tx]
  · simp [h2 h, outputBits, headroom_tx]
  · simp [h4 h, outputBits, headroom_tx]

/-- Settles O39: on the Rx path the output has P_RX_BITS, and the headroom shift applies where one of the two
widths is 24. -/
theorem rxSamplesAreConverted : Obligations.RxSamplesAreConverted := by
  intro s e rest hj hc
  obtain ⟨h1, h2, h4⟩ := samplePair_little s.cfg hc false e s.cursor
  refine ⟨readSample false s, _, _, rfl, readSample_outputs false hj, fun h => ?_, fun h => ?_, fun h => ?_⟩
  · simp [h1 h, outputBits, headroom_rx]
  · simp [h2 h, outputBits, headroom_rx]
  · simp [h4 h, outputBits, headroom_rx]

end Sys2Proof.Machine


/-! ### INGEST (40_reassembler.md R80 to R91) -/

namespace Sys2Proof.Machine

/-! #### Which datagrams are taken -/

theorem exec_ingest_stopped {s : State} (dg : List Byte) (hr : s.run = false) : exec (.ingest dg) s = .next s := by
  simp [exec, execIngest, hr]

theorem exec_ingest_wrongLength {s : State} {dg : List Byte} (hr : s.run = true)
    (hl : dg.length ≠ 8 + s.cfg.blockBytes) : exec (.ingest dg) s = .next (rejectDatagram dg s) := by
  simp [exec, execIngest, hr, Config.dgBytes, headerBytes, hl]

theorem exec_ingest_rightLength {s : State} {dg : List Byte} (hr : s.run = true)
    (hl : dg.length = 8 + s.cfg.blockBytes) : exec (.ingest dg) s = .next (fileDatagram dg s) := by
  simp [exec, execIngest, hr, Config.dgBytes, headerBytes, hl]

/-- Settles O8: R81 is the first test of INGEST. -/
theorem ingestWhileStoppedHasNoEffect : Obligations.IngestWhileStoppedHasNoEffect :=
  fun _ dg hr => exec_ingest_stopped dg hr

/-- Settles O9: the rejection of R82 counts the datagram and raises E1, whose status bit is bit 0. -/
theorem ingestRejectsWrongLength : Obligations.IngestRejectsWrongLength :=
  fun _ _ hr hl => exec_ingest_wrongLength hr hl

/-! #### The record a datagram is filed in (R84 to R89) -/

theorem dgBlock_eq {c : Config} {dg : List Byte} (hl : dg.length = 8 + c.blockBytes) :
    dgBlock c dg = ⟨true, dg.drop 8, byteAt dg 5, byteAt dg 6⟩ := by
  rw [dgBlock, headerBytes, fieldBytes_drop dg 8 c.blockBytes hl]

/-- R86 and R87: a record with 256 slots has one for every blockIndex. -/
theorem fileBlock_filesDatagram {c : Config} {dg : List Byte} {fr : Frame} (hf : fr.wf c.blockBytes = true)
    (hl : dg.length = 8 + c.blockBytes) :
    FilesDatagram c dg fr (fileBlock c (dgBlockIndex dg) (dgBlock c dg) fr) := by
  have hslot : (dgBlockIndex dg).toNat < fr.blocks.length := by
    rw [((frame_wf_iff _ _).mp hf).1]
    exact (dgBlockIndex dg).isLt
  exact {
    frameIndex := rfl
    slots := List.length_set
    stored := (slotOf_setSlot_self _ hslot).trans (dgBlock_eq hl)
    others := fun _ hb => slotOf_setSlot_other _ hb
    metaRetrieved := by by_cases hb : dgBlockIndex dg = 0#8 <;> simp [fileBlock, setSlot, hb]
    original := fun hb => ⟨if_pos hb, if_pos hb⟩
    recovery := fun hb => ⟨if_neg (Nat.not_lt.mpr hb), if_neg (Nat.not_lt.mpr hb)⟩
    counted := rfl }

/-- An empty slot gives a fresh record and a slot with the datagram's own frame gives that one; no frame is
completed. -/
theorem frame_of_keptSlot {s : State} {fi : Word} {old : Frame}
    (h : (ringAt s (ringSlot s fi) = none ∧ old = freshFrame s.cfg fi) ∨
      (ringAt s (ringSlot s fi) = some old ∧ old.frameIndex = fi)) :
    frameFor fi s = old ∧ completeFrame fi s = s := by
  rcases h with ⟨hk, rfl⟩ | ⟨hk, hi⟩
  · simp [frameFor, completeFrame, hk]
  · simp [frameFor, completeFrame, hk, hi]

/-- A slot with another frame gives a fresh record, and that frame is completed. -/
theorem frame_of_otherFrame {s : State} {fi : Word} {old : Frame} (hk : ringAt s (ringSlot s fi) = some old)
    (hi : old.frameIndex ≠ fi) : frameFor fi s = freshFrame s.cfg fi ∧ completeFrame fi s = tqPush old s := by
  simp [frameFor, completeFrame, hk, hi]

/-- Settles O10: the record is the one the slot keeps, and `fileBlock` files the datagram in it. -/
theorem ingestFilesTheBlock : Obligations.IngestFilesTheBlock := by
  intro s dg old hs _ hr hl h
  obtain ⟨hfor, hcomplete⟩ := frame_of_keptSlot h
  have hwf : old.wf s.cfg.blockBytes = true := hfor ▸ frameFor_wf _ hs
  refine ⟨_, fileBlock_filesDatagram hwf hl, ?_⟩
  rw [exec_ingest_rightLength hr hl, fileDatagram, hfor, hcomplete]
  rfl

/-- Settles O11: the other frame goes through `tqPush`, with room or on a full queue, before the fresh record
takes its slot. -/
theorem ingestCompletesTheOtherFrame : Obligations.IngestCompletesTheOtherFrame := by
  intro s dg old _ _ hr hl hk hi
  obtain ⟨hfor, hcomplete⟩ := frame_of_otherFrame hk hi
  refine ⟨_, fileBlock_filesDatagram (freshFrame_wf _ _) hl, fun hroom => ?_, fun head rest ht hfull => ?_⟩
  · rw [exec_ingest_rightLength hr hl, fileDatagram, hfor, hcomplete, tqPush_room old s (Nat.ne_of_lt hroom)]
    rfl
  · rw [exec_ingest_rightLength hr hl, fileDatagram, hfor, hcomplete, tqPush_full old s ht hfull]
    simp [setRing, ringSlot, eventBit, eventCode, BitVec.or_assoc]

end Sys2Proof.Machine


/-! ### The Transfer Queue, presented singly (41_transfer_queue.md R92 to R97) -/

namespace Sys2Proof.Machine

theorem exec_tqPush (fr : Frame) (s : State) : exec (.tqPush fr) s = .next (tqPush fr s) := rfl

/-- Settles O13: TQ_PUSH is `tqPush`, with room (E7, bit 6) or on a full queue (E8, bit 7, before it). -/
theorem tqPushAppendsTheFrame : Obligations.TqPushAppendsTheFrame := by
  refine fun s fr => ⟨fun hroom => ?_, fun head rest ht hfull => ?_⟩
  · rw [exec_tqPush, tqPush_room fr s hroom]
    rfl
  · rw [exec_tqPush, tqPush_full fr s ht hfull]
    simp [eventBit, eventCode, BitVec.or_assoc]

theorem exec_tqLen (s : State) :
    exec .tqLen s = .next (emit (.queueLength (BitVec.ofNat 32 s.tq.length)) s) := rfl

/-- A queue within its capacity has a length of 32 bits. -/
theorem tqLength_lt {s : State} (h : s.tq.length ≤ s.cfg.tqCapacity) : s.tq.length < 2 ^ 32 := by
  obtain ⟨-, -, -, -, -, -, -, -, -, -, -, -, hcap, -⟩ := s.cfg.legal.bounds
  omega

/-- Settles O15: P_TQ_CAPACITY is below 2^32, so TQ_LEN truncates no length within it. -/
theorem tqLenCountsAndTqClearEmpties : Obligations.TqLenCountsAndTqClearEmpties := fun s =>
  ⟨⟨_, exec_tqLen s, fun h => Nat.mod_eq_of_lt (tqLength_lt h)⟩, rfl⟩

theorem exec_tqPop_empty {s : State} (h : s.tq = []) : exec .tqPop s = .next (emit (.popped none) s) := by
  simp only [exec, execTqPop, h]

theorem exec_tqPop_head {s : State} {fr : Frame} {rest : List Frame} (h : s.tq = fr :: rest) :
    exec .tqPop s = .next (emit (.popped (some fr)) { s with tq := rest }) := by
  simp only [exec, execTqPop, h]

theorem exec_recProcess_empty {s : State} (h : s.tq = []) : exec .recProcess s = .next s := by
  simp only [exec, execRecProcess, h]

/-- Settles O14: TQ_POP and REC_PROCESS by whether the queue is empty. -/
theorem tqPopTakesTheHead : Obligations.TqPopTakesTheHead := fun _ =>
  ⟨fun h => ⟨exec_tqPop_empty h, exec_recProcess_empty h⟩, fun _ _ h => exec_tqPop_head h⟩

end Sys2Proof.Machine


/-! ### Turns without an operation (41_transfer_queue.md R95, 42_fec_recovery.md R107) -/

namespace Sys2Proof.Machine

theorem step_of_idle {s t : State} (h : fetch s = .idle t) : step s = .next t := by
  simp only [step, h]

theorem fetch_noTurn {s : State} (hsched : s.sched = []) : fetch s = .idle s := by
  simp only [fetch, hsched]

theorem fetch_nothingPresented {s : State} {a : Agent} {rest : List Agent} (hsched : s.sched = a :: rest)
    (hport : portOf s a = []) : fetch s = .idle (endTurn s) := by
  simp only [fetch, hsched, hport]

/-- An agent that holds lets its turn pass, and its record stays at its port. -/
theorem fetch_hold {s : State} {a : Agent} {rest : List Agent} {tail : List Byte} {i : Instr}
    (hsched : s.sched = a :: rest) (hdec : decode s.cfg (portOf s a) = .ok (i, tail)) (hown : owns a i = true)
    (hhold : holds i s = true) : fetch s = .idle (endTurn s) := by
  simp only [fetch, hsched]
  split
  · rfl
  · rename_i hport
    simp [← hport, hdec, hown, hhold]

theorem endTurn_of_sched {s : State} {a : Agent} {rest : List Agent} (h : s.sched = a :: rest) :
    endTurn s = { s with sched := rest } := by
  rw [endTurn, h, List.tail_cons]

theorem holds_recProcess {s : State} (h : s.tq = []) : holds .recProcess s = true := by
  simp [holds, h]

/-- Settles O2: `fetch` answers idle in each of the three cases. -/
theorem turnsPassWithoutAnOperation : Obligations.TurnsPassWithoutAnOperation := by
  refine fun s => ⟨fun hsched => ?_, fun a rest hsched hport => ?_, fun rest tail hsched hdec htq => ?_⟩
  · exact step_of_idle (fetch_noTurn hsched)
  · rw [← endTurn_of_sched hsched]
    exact step_of_idle (fetch_nothingPresented hsched hport)
  · rw [← endTurn_of_sched hsched]
    exact step_of_idle (fetch_hold hsched hdec rfl (holds_recProcess htq))

end Sys2Proof.Machine


/-! ### The field and the code (42_fec_recovery.md R98 to R102) -/

namespace Sys2Proof.Machine

/-- Settles O16: the default field inverts every element but 0. -/
theorem fieldElementsHaveInverses : Obligations.FieldElementsHaveInverses := fun _ => gmul_ginv

/-- In the first recovery row numerator and denominator of the Cauchy rule are the same byte (R101). -/
theorem coefficient_firstRecovery {c : Config} {j : Nat} (hcode : c.code = .cauchy) (hpoly : c.gfPoly = 0x14D#9)
    (hk : c.k ≤ 255) (hj : j < c.k) : coefficient c c.k j = 1#8 := by
  have hne : BitVec.ofNat 8 c.k ^^^ BitVec.ofNat 8 j ≠ 0#8 := by
    rw [Ne, BitVec.xor_eq_zero_iff]
    intro h
    have := ofNat_byte_inj (by omega) (by omega) h
    omega
  rw [coefficient, hcode, hpoly, codeEntry, gdiv, BitVec.xor_comm (BitVec.ofNat 8 j)]
  exact gmul_ginv hne

theorem generatorRow_recovery {c : Config} {i : Nat} (h : c.k ≤ i) :
    generatorRow c i = (List.range c.k).map (coefficient c i) := by
  simp [generatorRow, codeRow, coefficient, Nat.not_lt.mpr h]

theorem generatorRow_length (c : Config) (i : Nat) : (generatorRow c i).length = c.k := by
  simp [generatorRow, codeRow]

/-- A combination whose coefficients are all 1 is the sum of the blocks. -/
theorem gcombine_ones (o : List (List Byte)) (acc : List Byte) :
    gcombine 0x14D#9 (List.replicate o.length 1#8) o acc = o.foldl gadd acc := by
  induction o generalizing acc with
  | nil => rfl
  | cons x o ih => rw [List.length_cons, List.replicate_succ, gcombine, gscale_one, ih, List.foldl_cons]

/-- Settles O17: the first recovery row is all ones. -/
theorem firstRecoveryBlockIsTheXor : Obligations.FirstRecoveryBlockIsTheXor := by
  intro c o hcode hpoly hk ho _
  have hcoef : ∀ j < c.k, coefficient c c.k j = 1#8 := fun j => coefficient_firstRecovery hcode hpoly hk
  have hrow : generatorRow c c.k = List.replicate o.length 1#8 := by
    rw [generatorRow_recovery le_rfl, List.eq_replicate_iff]
    simpa [ho] using hcoef
  refine ⟨hcoef, ?_⟩
  rw [encodedBlock, hpoly, hrow, gcombine_ones]
  rfl

/-! #### Decode (R102) -/

/-- The equations `Decode` solves. -/
def equationsOf (c : Config) (set : List (Nat × List Byte)) : List Equation :=
  set.map fun ib => equationOf c ib.1 ib.2

theorem decodeSet_of_solve {c : Config} {set : List (Nat × List Byte)} {o : List (List Byte)}
    (h : solve c.gfPoly c.k (equationsOf c set) = some o) : decodeSet c set = o := by
  unfold equationsOf at h
  rw [decodeSet, h]

/-- The equation of a block holds of the originals it encodes. -/
theorem holds_equationOf {c : Config} {o : List (List Byte)} (hpoly : c.gfPoly = 0x14D#9) (ho : o.length = c.k)
    (ib : Nat × List Byte) : Holds c.blockBytes o (equationOf c ib.1 ib.2) ↔ encodedBlock c o ib.1 = ib.2 := by
  rw [Holds, equationOf, generatorRow_length, encodedBlock, hpoly, eq_comm (a := ib.2)]
  simp [ho]

/-- With all pivots, `Decode` returns the originals that every block of the set encodes. -/
theorem decodeSet_of_encodes {c : Config} {set : List (Nat × List Byte)} {o : List (List Byte)}
    (hpoly : c.gfPoly = 0x14D#9) (ho : o.length = c.k) (hb : ∀ x ∈ o, x.length = c.blockBytes)
    (hpivots : (solve c.gfPoly c.k (equationsOf c set)).isSome = true)
    (henc : ∀ ib ∈ set, encodedBlock c o ib.1 = ib.2) : decodeSet c set = o := by
  obtain ⟨o', hs⟩ := Option.isSome_iff_exists.mp hpivots
  rw [decodeSet_of_solve hs]
  rw [hpoly] at hs
  refine solve_eq c.blockBytes c.k _ o o' ho hb (fun q hq => ?_) hs
  obtain ⟨ib, hib, rfl⟩ := List.mem_map.mp hq
  exact (holds_equationOf hpoly ho ib).mpr (henc ib hib)

/-- The rows of P_K distinct indices have all their pivots, because the code is MDS (R99). -/
theorem solve_isSome_of_distinct {c : Config} {set : List (Nat × List Byte)} (hpoly : c.gfPoly = 0x14D#9)
    (hl : set.length = c.k) (hd : (set.map Prod.fst).Nodup) (hi : ∀ ib ∈ set, ib.1 < 256) :
    (solve c.gfPoly c.k (equationsOf c set)).isSome = true := by
  have hmds := c.legal.mds (set.map Prod.fst) (by simpa using hl) hd (by simpa using fun i b => hi (i, b))
  rw [hpoly]
  refine solve_total c.k _ (List.forall_mem_map.mpr fun ib _ => generatorRow_length c ib.1) fun x hx h0 => ?_
  refine hmds x hx (List.forall_mem_map.mpr fun ib hib => ?_)
  have := h0 _ (List.mem_map_of_mem hib)
  rwa [← hpoly] at this

/-- Settles O18: the equations of encoded blocks hold of the originals, and the solution is the only one. -/
theorem decodeReturnsTheOriginals : Obligations.DecodeReturnsTheOriginals := by
  intro c o idx hpoly ho hb hpivots
  refine decodeSet_of_encodes hpoly ho hb ?_ (List.forall_mem_map.mpr fun _ _ => rfl)
  rw [equationsOf, List.map_map]
  exact hpivots

/-- Settles O19: distinct indices have all their pivots, so the elimination finds the one solution. -/
theorem decodeInvertsTheCode : Obligations.DecodeInvertsTheCode := by
  intro c set hpoly hl hd hset
  have hpivots := solve_isSome_of_distinct hpoly hl hd fun ib hib => (hset ib hib).1
  obtain ⟨hol, hob⟩ := decodeSet_length c set fun ib hib => (hset ib hib).2
  refine ⟨hol, hob, fun ib hib => (holds_equationOf hpoly hol ib).mp ?_, fun o' ho' hb' henc =>
    (decodeSet_of_encodes hpoly ho' hb' hpivots henc).symm⟩
  obtain ⟨o, hs⟩ := Option.isSome_iff_exists.mp hpivots
  rw [decodeSet_of_solve hs]
  rw [hpoly] at hs
  refine solve_sound c.blockBytes c.k _ o (by simpa [equationsOf] using hl) ?_ hs _ (List.mem_map_of_mem hib)
  exact List.forall_mem_map.mpr fun ib hib => ⟨generatorRow_length c ib.1, (hset ib hib).2⟩

end Sys2Proof.Machine


/-! ### FEC_RECOVER and REC_PROCESS (42_fec_recovery.md R103 to R111) -/

namespace Sys2Proof.Machine

/-! #### Selection and FEC_RECOVER -/

theorem selectM_own {s : State} {fr : Frame} (hr : fr.metaRetrieved = true) (hc : crcOk s.cfg (payloadOf fr 0) = true) :
    selectM s fr = min (byteAt (payloadOf fr 0) 15).toNat (256 - s.cfg.k) := by
  simp [selectM, hr, hc]

theorem selectM_cached {s : State} {fr : Frame} {d : MetaDataFEC}
    (h : fr.metaRetrieved = false ∨ crcOk s.cfg (payloadOf fr 0) = false) (hd : s.cachedMeta = some d) :
    selectM s fr = min d.nbFECBlocks.toNat (256 - s.cfg.k) := by
  rw [← Bool.and_eq_false_iff] at h
  simp [selectM, h, hd]

theorem selectM_none {s : State} {fr : Frame}
    (h : fr.metaRetrieved = false ∨ crcOk s.cfg (payloadOf fr 0) = false) (hd : s.cachedMeta = none) :
    selectM s fr = 0 := by
  rw [← Bool.and_eq_false_iff] at h
  simp [selectM, h, hd]

theorem k_le_256 (c : Config) : c.k ≤ 256 := c.legal.bounds.2.1

theorem selectM_le (s : State) (fr : Frame) : selectM s fr ≤ 256 - s.cfg.k := Nat.min_le_right _ _

/-- Settles O21: the three sources of R108, each under the same clamp. -/
theorem recoveryCountSelection : Obligations.RecoveryCountSelection := by
  refine fun s fr => ⟨?_, selectM_own, fun h => ⟨fun _ => selectM_cached h, selectM_none h⟩⟩
  have hk := k_le_256 s.cfg
  have hm := selectM_le s fr
  omega

theorem missing_isEmpty_eq_false (c : Config) (fr : Frame) :
    (missing c fr).isEmpty = false ↔ ∃ j < c.k, isPresent fr j = false := by
  rw [← Bool.not_eq_true, missing_isEmpty]
  simp

theorem decodable_iff (c : Config) (fr : Frame) (m : Nat) :
    decodable c fr m = true ↔ c.fecAvailable = true ∧ m ≠ 0 ∧
      c.k ≤ ((List.range (c.k + m)).filter fun b => isPresent fr b).length := by
  simp [decodable, usableCount_eq, and_assoc]

theorem recoverResult_whole {c : Config} {fr : Frame} {m : Nat} (h : (missing c fr).isEmpty = true) :
    recoverResult c fr m = (fr, .notNeeded) := by
  rw [recoverResult, if_pos h]

theorem recoverResult_decoded {c : Config} {fr : Frame} {m : Nat} (h : (missing c fr).isEmpty = false)
    (hd : decodable c fr m = true) :
    recoverResult c fr m = (writeBack c (decodedOriginals c fr m) fr, .success) := by
  simp [recoverResult, h, hd]

theorem recoverResult_failed {c : Config} {fr : Frame} {m : Nat} (h : (missing c fr).isEmpty = false)
    (hd : ¬ decodable c fr m = true) : recoverResult c fr m = (fr, .failure) := by
  simp [recoverResult, h, hd]

theorem exec_fecRecover (fr : Frame) (m : Nat) (s : State) :
    exec (.fecRecover fr m) s = .next (emit (.recovered (recoverResult s.cfg fr m).1 (recoverResult s.cfg fr m).2)
      (recoverState fr m s)) := rfl

/-- Settles O20: the three results of recovery; the write-back writes blocks of the size Decode gives them. -/
theorem fecRecoverRebuildsOrFails : Obligations.FecRecoverRebuildsOrFails := by
  intro s fr m hwf
  refine ⟨fun hall => ?_, fun hmiss hno => ?_, fun hmiss hcan => ?_⟩
  · rw [exec_fecRecover, recoverState, recoverResult_whole ((missing_isEmpty _ _).mpr hall)]
    rfl
  · rw [exec_fecRecover, recoverState, recoverResult_failed ((missing_isEmpty_eq_false _ _).mpr hmiss)
      (mt (decodable_iff _ _ _).mp hno), ← usableCount_eq]
    rfl
  · have hres := recoverResult_decoded ((missing_isEmpty_eq_false _ _).mpr hmiss) ((decodable_iff _ _ _).mpr hcan)
    have hnew := recoverResult_wf s.cfg fr m hwf
    rw [hres] at hnew
    refine ⟨_, writeBack_rebuilds s.cfg (decodedOriginals s.cfg fr m) fr hwf, fun j hj => ?_, ?_⟩
    · exact payloadOf_length hnew (hj.trans_le (k_le_256 s.cfg))
    · rw [exec_fecRecover, recoverState, hres]
      rfl

/-! #### The cases of REC_PROCESS -/

/-- A decode is tried for a complete frame that is not counted complete and lacks an original (R107, R110). -/
def Tried (c : Config) (fr : Frame) : Prop :=
  c.k ≤ fr.blockCount.toNat ∧ fr.originalCount.toNat ≠ c.k ∧ (missing c fr).isEmpty = false

theorem rebuilds_iff (c : Config) (fr : Frame) (m : Nat) :
    Rebuilds c fr m ↔ Tried c fr ∧ decodable c fr m = true := by
  simp only [Rebuilds, Tried, and_assoc]

theorem processResult_tried_failed {c : Config} {fr : Frame} {m : Nat} (ht : Tried c fr) (hr : ¬ Rebuilds c fr m) :
    processResult c fr m = (fr, .failure) := by
  have hd : decodable c fr m = false := by simpa [rebuilds_iff, ht] using hr
  exact processResult_failed ht.1 ht.2.1 ht.2.2 hd

theorem processResult_notTried {c : Config} {fr : Frame} {m : Nat} (hbc : c.k ≤ fr.blockCount.toNat)
    (ht : ¬ Tried c fr) : processResult c fr m = (fr, .notNeeded) := by
  refine processResult_notNeeded hbc ?_
  simpa [Tried, hbc, Classical.or_iff_not_imp_left] using ht

/-- What recovery makes of a frame, in its four exclusive cases (R107). -/
theorem processResult_cases (c : Config) (fr : Frame) (m : Nat) :
    (fr.blockCount.toNat < c.k ∧ processResult c fr m = (fr, .incomplete)) ∨
    (c.k ≤ fr.blockCount.toNat ∧ processResult c fr m = (fr, .notNeeded)) ∨
    (c.k ≤ fr.blockCount.toNat ∧ processResult c fr m = (fr, .failure)) ∨
    Rebuilds c fr m := by
  rcases Nat.lt_or_ge fr.blockCount.toNat c.k with hbc | hbc
  · exact .inl ⟨hbc, processResult_incomplete hbc⟩
  by_cases hr : Rebuilds c fr m
  · exact .inr (.inr (.inr hr))
  by_cases ht : Tried c fr
  · exact .inr (.inr (.inl ⟨hbc, processResult_tried_failed ht hr⟩))
  · exact .inr (.inl ⟨hbc, processResult_notTried hbc ht⟩)

theorem processResult_incomplete_iff (c : Config) (fr : Frame) (m : Nat) :
    (processResult c fr m).2 = .incomplete ↔ fr.blockCount.toNat < c.k := by
  rcases processResult_cases c fr m with ⟨hbc, hres⟩ | ⟨hbc, hres⟩ | ⟨hbc, hres⟩ | hr
  · simp [hres, hbc]
  · simp [hres, hbc]
  · simp [hres, hbc]
  · simp [processResult_rebuilt hr, hr.1]

theorem processResult_of_not_rebuilds {c : Config} {fr : Frame} {m : Nat} (h : ¬ Rebuilds c fr m) :
    (processResult c fr m).1 = fr := by
  rcases processResult_cases c fr m with ⟨-, hres⟩ | ⟨-, hres⟩ | ⟨-, hres⟩ | hr
  · rw [hres]
  · rw [hres]
  · rw [hres]
  · exact absurd hr h

theorem processResult_rebuilds {c : Config} {fr : Frame} {m : Nat} (hwf : fr.wf c.blockBytes = true)
    (h : Rebuilds c fr m) : RebuildsFrame c (decodedOriginals c fr m) fr (processResult c fr m).1 := by
  rw [processResult_rebuilt h]
  exact writeBack_rebuilds c _ fr hwf

/-! #### The events of each stage -/

theorem recoveryEvents_incomplete {c : Config} {fr : Frame} {m : Nat} (h : fr.blockCount.toNat < c.k) :
    recoveryEvents c fr m = [.incomplete fr.frameIndex fr.blockCount] := by
  rw [recoveryEvents, processResult_incomplete h]

theorem recoveryEvents_failed {c : Config} {fr : Frame} {m : Nat} (ht : Tried c fr) (hr : ¬ Rebuilds c fr m) :
    recoveryEvents c fr m = [.decodeFail fr.frameIndex (usableCount c fr m)] := by
  rw [recoveryEvents, processResult_tried_failed ht hr]

theorem recoveryEvents_none {c : Config} {fr : Frame} {m : Nat} (hbc : c.k ≤ fr.blockCount.toNat)
    (h : Tried c fr → Rebuilds c fr m) : recoveryEvents c fr m = [] := by
  by_cases ht : Tried c fr
  · rw [recoveryEvents, processResult_rebuilt (h ht)]
  · rw [recoveryEvents, processResult_notTried hbc ht]

theorem validationEvents_skipped {fr : Frame} {st : RecoverStatus} {s : State}
    (h : ¬ (st ≠ .incomplete ∧ fr.metaRetrieved = true)) : validationEvents fr st s = [] := if_neg h

theorem validationEvents_rejected {fr : Frame} {st : RecoverStatus} {s : State}
    (h : st ≠ .incomplete ∧ fr.metaRetrieved = true) (hc : crcOk s.cfg (payloadOf fr 0) = false) :
    validationEvents fr st s = [.metaCrc fr.frameIndex (metaCrcComputed s.cfg (payloadOf fr 0))
      (metaCrcEmbedded s.cfg (payloadOf fr 0))] := by
  simp [validationEvents, h, hc]

/-- E6 of an adopted descriptor: the first one, or one with another sample rate (43_meta_validator.md R119). -/
theorem validationEvents_adopted {fr : Frame} {st : RecoverStatus} {s : State}
    (h : st ≠ .incomplete ∧ fr.metaRetrieved = true) (hc : crcOk s.cfg (payloadOf fr 0) = true) :
    validationEvents fr st s =
      match s.cachedMeta with
      | none => [.newSampleRate 0#32 (metaParse s.cfg (payloadOf fr 0)).sampleRate]
      | some d => if d.sampleRate = (metaParse s.cfg (payloadOf fr 0)).sampleRate then []
        else [.newSampleRate d.sampleRate (metaParse s.cfg (payloadOf fr 0)).sampleRate] := by
  cases hm : s.cachedMeta with
  | none => simp [validationEvents, h, hc, rateChanges, cachedRate, ofCached, hm]
  | some d => simp [validationEvents, h, hc, rateChanges, cachedRate, ofCached, hm]

/-- E9 of a push, where the full buffer loses its head (44_jitter_buffer.md R122). -/
def droppedEvents (s : State) : List Event :=
  if s.jb.length = s.cfgJbDepth.toNat then s.jb.head?.toList.map fun e => .jbDrop e.frame.frameIndex else []

theorem jbPush_jbDropCount (e : JbEntry) (s : State) :
    (jbPush e s).jbDropCount = s.jbDropCount + BitVec.ofNat 32 (droppedEvents s).length := by
  have hpush : (jbPush e s).jbDropCount = (jbMakeRoom s).jbDropCount := rfl
  rw [hpush, droppedEvents]
  split
  · rename_i hfull
    cases hj : s.jb with
    | nil => simp [jbMakeRoom, hj]
    | cons old rest => simp [jbMakeRoom_full s hj hfull]
  · rename_i hroom
    simp [jbMakeRoom_room s hroom]

/-! #### The state after one processed frame -/

theorem exec_recProcess_head {s : State} {fr : Frame} {rest : List Frame} (h : s.tq = fr :: rest) :
    exec .recProcess s = .next (processFrame fr { s with tq := rest }) := by
  simp only [exec, execRecProcess, h]

/-- The entry REC_PROCESS forwards: the recovered frame, with the width the descriptor cached afterwards gives. -/
def forwardedEntry (fr : Frame) (s : State) : JbEntry where
  frame := (processResult s.cfg fr (selectM s fr)).1
  sb := sbFor s.cfg (processFrame fr s).cachedMeta (processResult s.cfg fr (selectM s fr)).1

/-- REC_PROCESS ends with the push of that entry, whose buffer and cursor are still as before it. -/
theorem processFrame_push (fr : Frame) (s : State) :
    processFrame fr s = jbPush (forwardedEntry fr s) (accounted fr s) := by
  have hm : (processFrame fr s).cachedMeta = (accounted fr s).cachedMeta := by rw [processFrame_eq, jbPush_frame]
  rw [forwardedEntry, hm, processFrame_eq]

theorem processFrame_jb (fr : Frame) (s : State) :
    (processFrame fr s).jb =
      (if s.jb.length = s.cfgJbDepth.toNat then s.jb.tail else s.jb) ++ [forwardedEntry fr s] := by
  rw [processFrame_push, jbPush_jb_cases, accounted_frame]

theorem processFrame_cursor (fr : Frame) (s : State) : (processFrame fr s).cursor =
    if s.jb = [] ∨ s.jb.length = s.cfgJbDepth.toNat then ⟨1, 0⟩ else s.cursor := by
  rw [processFrame_push, jbPush_cursor, accounted_frame]

theorem processFrame_jbDropCount (fr : Frame) (s : State) :
    (processFrame fr s).jbDropCount = s.jbDropCount + BitVec.ofNat 32 (droppedEvents s).length := by
  rw [processFrame_push, jbPush_jbDropCount, accounted_frame]
  rfl

theorem processFrame_getLast (fr : Frame) (s : State) :
    (processFrame fr s).jb.getLast? = some (forwardedEntry fr s) := by
  rw [processFrame_jb, List.getLast?_append]
  rfl

theorem processFrame_counters (fr : Frame) (s : State) :
    (processFrame fr s).correctableErrors = (accounted fr s).correctableErrors ∧
    (processFrame fr s).uncorrectableErrors = (accounted fr s).uncorrectableErrors := by
  rw [processFrame_eq, jbPush_frame]
  exact ⟨rfl, rfl⟩

/-! #### The accounting, branch by branch (R111) -/

/-- The E3 events of one processed frame. -/
def lossEvents (fr : Frame) (s : State) : List Event :=
  accountEvents s.cfg (processResult s.cfg fr (selectM s fr)).1 (selectM s fr)
    (processResult s.cfg fr (selectM s fr)).2

theorem lossEvents_none_or_one (fr : Frame) (s : State) :
    lossEvents fr s = [] ∨ ∃ lost, lossEvents fr s = [.uncorrectable fr.frameIndex lost] := by
  rw [← (processResult_kept s.cfg fr (selectM s fr)).1, lossEvents]
  unfold accountEvents
  split
  · exact .inr ⟨_, rfl⟩
  · split
    · exact .inl rfl
    · exact .inl rfl
    · exact .inr ⟨_, rfl⟩
    · exact .inr ⟨_, rfl⟩

/-- One processed frame leaves these values in the two error counters, and raises these E3 events. -/
def Accounts (fr : Frame) (s : State) (uncorrectable correctable : Word) (losses : List Event) : Prop :=
  (processFrame fr s).uncorrectableErrors = uncorrectable ∧ (processFrame fr s).correctableErrors = correctable ∧
  lossEvents fr s = losses

/-- `lost` originals are counted, with E3. -/
abbrev AccountsLost (fr : Frame) (s : State) (lost : Nat) : Prop :=
  Accounts fr s (s.uncorrectableErrors + BitVec.ofNat 32 lost) s.correctableErrors [.uncorrectable fr.frameIndex lost]

theorem shortfall_processResult (c : Config) (fr : Frame) (m : Nat) :
    shortfall c (processResult c fr m).1 m = shortfall c fr m := by
  rw [shortfall, (processResult_kept c fr m).2.1, shortfall]

theorem shortfall_pos_iff (c : Config) (fr : Frame) (m : Nat) :
    0 < shortfall c fr m ↔ fr.originalCount.toNat + m < c.k := by
  unfold shortfall
  omega

theorem shortfall_toNat (c : Config) (fr : Frame) (m : Nat) :
    (shortfall c fr m).toNat = c.k - m - fr.originalCount.toNat := by
  unfold shortfall
  omega

theorem accounts_shortfall {s : State} {fr : Frame} (h : fr.originalCount.toNat + selectM s fr < s.cfg.k) :
    AccountsLost fr s (s.cfg.k - selectM s fr - fr.originalCount.toNat) := by
  have hpos := (shortfall_pos_iff _ _ _).mpr h
  rw [← shortfall_toNat]
  rw [← shortfall_processResult] at hpos ⊢
  have hcount := (accounted_counters fr s).1 hpos
  have hindex := (processResult_kept s.cfg fr (selectM s fr)).1
  simp [Accounts, processFrame_counters, hcount, lossEvents, accountEvents, hpos, hindex]

/-- Without a shortfall the status decides. -/
theorem accounts_status {s : State} {fr : Frame} (h : s.cfg.k ≤ fr.originalCount.toNat + selectM s fr) :
    ((processResult s.cfg fr (selectM s fr)).2 = .success →
      Accounts fr s s.uncorrectableErrors (s.correctableErrors + fr.recoveryCount) []) ∧
    ((processResult s.cfg fr (selectM s fr)).2 = .notNeeded →
      Accounts fr s s.uncorrectableErrors s.correctableErrors []) ∧
    (processResult s.cfg fr (selectM s fr) = (fr, .incomplete) ∨
        processResult s.cfg fr (selectM s fr) = (fr, .failure) →
      AccountsLost fr s (missing s.cfg fr).length) := by
  have hpos : ¬ 0 < shortfall s.cfg (processResult s.cfg fr (selectM s fr)).1 (selectM s fr) := by
    rw [shortfall_processResult, shortfall_pos_iff]
    omega
  obtain ⟨hsuccess, hnone, hlost⟩ := (accounted_counters fr s).2 hpos
  have hkept : (processResult s.cfg fr (selectM s fr)).1.recoveryCount = fr.recoveryCount :=
    (processResult_kept _ _ _).2.2.1
  simp only [Accounts, processFrame_counters, lossEvents, accountEvents, if_neg hpos]
  refine ⟨fun hst => ?_, fun hst => ?_, fun h => h.elim (fun hst => ?_) fun hst => ?_⟩
  · simp [hsuccess hst, hst, hkept]
  · simp [hnone hst, hst]
  · rw [hst] at hlost ⊢
    simp [hlost]
  · rw [hst] at hlost ⊢
    simp [hlost]

theorem accounts_rebuilt {s : State} {fr : Frame} (h : s.cfg.k ≤ fr.originalCount.toNat + selectM s fr)
    (hr : Rebuilds s.cfg fr (selectM s fr)) :
    Accounts fr s s.uncorrectableErrors (s.correctableErrors + fr.recoveryCount) [] :=
  (accounts_status h).1 (by rw [processResult_rebuilt hr])

theorem accounts_notTried {s : State} {fr : Frame} (h : s.cfg.k ≤ fr.originalCount.toNat + selectM s fr)
    (hbc : s.cfg.k ≤ fr.blockCount.toNat) (ht : ¬ Tried s.cfg fr) :
    Accounts fr s s.uncorrectableErrors s.correctableErrors [] :=
  (accounts_status h).2.1 (by rw [processResult_notTried hbc ht])

theorem accounts_lost {s : State} {fr : Frame} (h : s.cfg.k ≤ fr.originalCount.toNat + selectM s fr)
    (hl : fr.blockCount.toNat < s.cfg.k ∨ Tried s.cfg fr ∧ ¬ Rebuilds s.cfg fr (selectM s fr)) :
    AccountsLost fr s (missing s.cfg fr).length :=
  (accounts_status h).2.2 (hl.imp processResult_incomplete fun ⟨ht, hr⟩ => processResult_tried_failed ht hr)

theorem accounts_incomplete {s : State} {fr : Frame} (h : fr.blockCount.toNat < s.cfg.k) :
    ∃ lost, AccountsLost fr s lost := by
  rcases Nat.lt_or_ge (fr.originalCount.toNat + selectM s fr) s.cfg.k with hshort | hge
  · exact ⟨_, accounts_shortfall hshort⟩
  · exact ⟨_, accounts_lost hge (.inl h)⟩

/-! #### The frame forwarded and the descriptor (R107) -/

/-- A frame that no decode rebuilds is forwarded as it is. -/
theorem forwardedEntry_of_not_rebuilds {s : State} {fr : Frame} (h : ¬ Rebuilds s.cfg fr (selectM s fr)) :
    forwardedEntry fr s = ⟨fr, sbFor s.cfg (processFrame fr s).cachedMeta fr⟩ := by
  rw [forwardedEntry, processResult_of_not_rebuilds h]

/-- META_VALIDATE runs for the frame that is forwarded. -/
def Validated (fr : Frame) (s : State) : Prop :=
  s.cfg.k ≤ fr.blockCount.toNat ∧ (forwardedEntry fr s).frame.metaRetrieved = true

/-- The E5 or E6 of one processed frame. -/
def descriptorEvents (fr : Frame) (s : State) : List Event :=
  validationEvents (forwardedEntry fr s).frame (processResult s.cfg fr (selectM s fr)).2 s

theorem validated_iff (fr : Frame) (s : State) :
    Validated fr s ↔ (processResult s.cfg fr (selectM s fr)).2 ≠ .incomplete ∧
      (forwardedEntry fr s).frame.metaRetrieved = true := by
  rw [Validated, Ne, processResult_incomplete_iff, Nat.not_lt]

theorem processFrame_notValidated (fr : Frame) (s : State) (h : ¬ Validated fr s) :
    (processFrame fr s).cachedMeta = s.cachedMeta ∧ descriptorEvents fr s = [] := by
  rw [validated_iff] at h
  refine ⟨?_, validationEvents_skipped h⟩
  rw [processFrame_cachedMeta]
  exact if_neg fun hv => h ⟨hv.1, hv.2.1⟩

theorem processFrame_rejected (fr : Frame) (s : State) (h : Validated fr s)
    (hc : crcOk s.cfg (payloadOf (forwardedEntry fr s).frame 0) = false) :
    (processFrame fr s).cachedMeta = s.cachedMeta ∧
    descriptorEvents fr s = [.metaCrc fr.frameIndex (metaCrcComputed s.cfg (payloadOf (forwardedEntry fr s).frame 0))
      (metaCrcEmbedded s.cfg (payloadOf (forwardedEntry fr s).frame 0))] := by
  rw [validated_iff] at h
  refine ⟨?_, ?_⟩
  · rw [processFrame_cachedMeta]
    exact if_neg fun hv => Bool.false_ne_true (hc.symm.trans hv.2.2)
  · have hindex : (forwardedEntry fr s).frame.frameIndex = fr.frameIndex := (processResult_kept _ _ _).1
    rw [descriptorEvents, validationEvents_rejected h hc, hindex]

theorem processFrame_adopted (fr : Frame) (s : State) (h : Validated fr s)
    (hc : crcOk s.cfg (payloadOf (forwardedEntry fr s).frame 0) = true) :
    let new := metaParse s.cfg (payloadOf (forwardedEntry fr s).frame 0)
    (processFrame fr s).cachedMeta = some new ∧
    (s.cachedMeta = none → descriptorEvents fr s = [.newSampleRate 0#32 new.sampleRate]) ∧
    ∀ old, s.cachedMeta = some old →
      (old.sampleRate = new.sampleRate → descriptorEvents fr s = []) ∧
      (old.sampleRate ≠ new.sampleRate → descriptorEvents fr s = [.newSampleRate old.sampleRate new.sampleRate]) := by
  rw [validated_iff] at h
  refine ⟨?_, fun hnone => ?_, fun old hold => ⟨fun heq => ?_, fun hne => ?_⟩⟩
  · rw [processFrame_cachedMeta]
    exact if_pos ⟨h.1, h.2, hc⟩
  · simp [descriptorEvents, validationEvents_adopted h hc, hnone]
  · simp [descriptorEvents, validationEvents_adopted h hc, hold, heq]
  · simp [descriptorEvents, validationEvents_adopted h hc, hold, hne]

/-- The events of one processed frame, in the order of 60_exceptions.md R138. -/
theorem processFrame_log (fr : Frame) (s : State) :
    (processFrame fr s).events = s.events ++ recoveryEvents s.cfg fr (selectM s fr) ++
      descriptorEvents fr s ++ lossEvents fr s ++ droppedEvents s := processFrame_events fr s

/-! #### The obligations of REC_PROCESS -/

theorem rebuilds_iff_usable (c : Config) (fr : Frame) (m : Nat) :
    Rebuilds c fr m ↔ Tried c fr ∧ c.fecAvailable = true ∧ m ≠ 0 ∧
      c.k ≤ ((List.range (c.k + m)).filter fun b => isPresent fr b).length := by
  rw [rebuilds_iff, decodable_iff]

theorem tried_iff_exists (c : Config) (fr : Frame) :
    Tried c fr ↔
      c.k ≤ fr.blockCount.toNat ∧ fr.originalCount.toNat ≠ c.k ∧ ∃ j < c.k, isPresent fr j = false := by
  rw [Tried, missing_isEmpty_eq_false]

theorem tried_iff_length (c : Config) (fr : Frame) :
    Tried c fr ↔ c.k ≤ fr.blockCount.toNat ∧ fr.originalCount.toNat ≠ c.k ∧ (missing c fr).length ≠ 0 := by
  simp [Tried]

/-- Settles O24: the branch of the accounting follows from the shortfall and the case of recovery. -/
theorem recProcessAccountsErrors : Obligations.RecProcessAccountsErrors := by
  intro s fr rest htq m oc missingOriginals usable tried rebuilt
  have htried : tried ↔ Tried s.cfg fr := (tried_iff_length s.cfg fr).symm
  have hrebuilt : rebuilt ↔ Rebuilds s.cfg fr m := by rw [rebuilds_iff_usable, ← htried]
  obtain ⟨new, hnew, hloss⟩ := processFrame_lost fr { s with tq := rest }
  refine ⟨_, new, exec_recProcess_head htq, hnew, ?_⟩
  intro lostEvents
  have hlost : lostEvents = lossEvents fr { s with tq := rest } := hloss
  rw [htried, hrebuilt, hlost]
  exact ⟨accounts_shortfall (s := { s with tq := rest }), accounts_rebuilt (s := { s with tq := rest }),
    accounts_notTried (s := { s with tq := rest }), accounts_lost (s := { s with tq := rest })⟩

/-- REC_PROCESS of an incomplete frame (R109). -/
theorem processFrame_incomplete {s : State} {fr : Frame} (hbc : fr.blockCount.toNat < s.cfg.k) :
    (processFrame fr s).cachedMeta = s.cachedMeta ∧
    forwardedEntry fr s = ⟨fr, sbFor s.cfg s.cachedMeta fr⟩ ∧
    (processFrame fr s).events =
      s.events ++ .incomplete fr.frameIndex fr.blockCount :: lossEvents fr s ++ droppedEvents s := by
  have hlt : ¬ s.cfg.k ≤ fr.blockCount.toNat := Nat.not_le.mpr hbc
  obtain ⟨hmeta, hdesc⟩ := processFrame_notValidated fr s fun h => hlt h.1
  refine ⟨hmeta, ?_, ?_⟩
  · rw [forwardedEntry_of_not_rebuilds fun h => hlt h.1, hmeta]
  · rw [processFrame_log, recoveryEvents_incomplete hbc, hdesc]
    simp

/-- Settles O23: an incomplete frame skips the decode and the validation, and always has a loss to account. -/
theorem incompleteFramesAreForwardedUnchanged : Obligations.IncompleteFramesAreForwardedUnchanged := by
  intro s fr rest htq hbc
  obtain ⟨lost, hunc, hcor, hloss⟩ := accounts_incomplete (s := { s with tq := rest }) hbc
  obtain ⟨hmeta, hentry, hev⟩ := processFrame_incomplete (s := { s with tq := rest }) hbc
  rw [hloss] at hev
  refine ⟨_, lost, _, exec_recProcess_head htq, hmeta, hcor, hunc, ?_, hev, rfl⟩
  rw [processFrame_getLast, hentry]

/-- Settles O25: counted complete, no decode is tried, and there is no shortfall. -/
theorem countedCompleteFramesAreNotDecoded : Obligations.CountedCompleteFramesAreNotDecoded := by
  intro s fr rest htq hbc hoc
  have ht : ¬ Tried s.cfg fr := fun h => h.2.1 hoc
  obtain ⟨hunc, hcor, -⟩ := accounts_notTried (s := { s with tq := rest }) (fr := fr) (by simp [hoc]) hbc ht
  have hlast := processFrame_getLast fr { s with tq := rest }
  rw [forwardedEntry_of_not_rebuilds (s := { s with tq := rest }) fun h => h.2.1 hoc] at hlast
  exact ⟨_, _, exec_recProcess_head htq, hlast, hcor, hunc⟩

/-- A frame whose originals can be decoded comes out of recovery with every original present. -/
theorem processResult_restored {c : Config} {fr : Frame} {m : Nat} (hwf : fr.wf c.blockBytes = true)
    (h : Tried c fr → Rebuilds c fr m) (hbc : c.k ≤ fr.blockCount.toNat) (hoc : fr.originalCount.toNat ≠ c.k) :
    (∀ j < c.k, isPresent (processResult c fr m).1 j = true) ∧
    ∀ j < c.k, isPresent fr j = false →
      payloadOf (processResult c fr m).1 j = (decodedOriginals c fr m).getD j [] := by
  by_cases ht : Tried c fr
  · have hnew := processResult_rebuilds hwf (h ht)
    refine ⟨fun j hj => ?_, fun j hj hp => ?_⟩
    · cases hp : isPresent fr j with
      | true => rw [isPresent, hnew.kept j (.inr hp), ← isPresent, hp]
      | false => rw [isPresent, hnew.rebuilt j hj hp]
    · rw [payloadOf, hnew.rebuilt j hj hp]
  · have hall : ∀ j < c.k, isPresent fr j = true := by
      simpa [tried_iff_exists, hbc, hoc] using ht
    rw [processResult_notTried hbc ht]
    exact ⟨hall, fun j hj hp => by simp [hall j hj] at hp⟩

/-- Settles O26: either no original is missing, or the rebuilt frame has each missing one as Decode gives it. -/
theorem recProcessRebuildsMissingOriginals : Obligations.RecProcessRebuildsMissingOriginals := by
  intro s fr rest htq hwf hbc hoc hfec hm husable
  have hreb : Tried s.cfg fr → Rebuilds s.cfg fr (selectM s fr) := fun ht =>
    (rebuilds_iff_usable _ _ _).mpr ⟨ht, hfec, hm, husable⟩
  exact ⟨_, _, exec_recProcess_head htq, processFrame_getLast fr { s with tq := rest },
    processResult_restored hwf hreb hbc hoc⟩

/-- Settles O22: the recovery, the validation, the accounting and the push each have the part of the state and the
events that R107 gives them. -/
theorem recProcessForwardsEveryFrame : Obligations.RecProcessForwardsEveryFrame := by
  intro s fr rest htq m complete usable tried rebuilt
  have htried : tried ↔ Tried s.cfg fr := (tried_iff_exists s.cfg fr).symm
  have hrebuilt : rebuilt ↔ Rebuilds s.cfg fr m := by rw [rebuilds_iff_usable, ← htried]
  obtain ⟨hindex, horig, hrec, hcount, hslots⟩ := processResult_kept s.cfg fr m
  have hfailed (ht : tried) (hr : ¬ rebuilt) :
      recoveryEvents s.cfg fr m = [.decodeFail fr.frameIndex usable] := by
    rw [recoveryEvents_failed (htried.mp ht) (mt hrebuilt.mpr hr), usableCount_eq]
  have hsilent (hc : complete) (h : tried → rebuilt) : recoveryEvents s.cfg fr m = [] :=
    recoveryEvents_none hc fun ht => hrebuilt.mp (h (htried.mpr ht))
  let u : State := { s with tq := rest }
  refine ⟨_, forwardedEntry fr u, recoveryEvents s.cfg fr m, descriptorEvents fr u, lossEvents fr u, droppedEvents u,
    exec_recProcess_head htq, processFrame_frame fr u, hindex, horig, hrec, hcount, hslots, ?_, ?_, rfl,
    processFrame_jb fr u, processFrame_cursor fr u, rfl, processFrame_jbDropCount fr u,
    processFrame_log fr u, ?_, hfailed, hsilent, lossEvents_none_or_one fr u,
    processFrame_notValidated fr u, processFrame_rejected fr u, processFrame_adopted fr u⟩
  · exact fun hr => processResult_of_not_rebuilds (mt hrebuilt.mpr hr)
  · exact fun hr hwf => processResult_rebuilds hwf (hrebuilt.mp hr)
  · exact fun hc => recoveryEvents_incomplete (Nat.lt_of_not_ge hc)

end Sys2Proof.Machine

/-! ## The Meta Validator (43_meta_validator.md)

The bytes of a descriptor and their CRC, then META_VALIDATE by what it finds: no retrieved descriptor, a CRC that
fails, or a valid descriptor, with or without E6. -/

namespace Sys2Proof.Machine

/-! ### The fields of a descriptor -/

/-- Settles O28: each field is the one of its offset and width, and the low nibble is the byte cut to 4 bits. -/
theorem descriptorFieldsAreParsed : Obligations.DescriptorFieldsAreParsed := by
  intro c p hc b
  rw [metaParse, ← BitVec.setWidth_eq_extractLsb' (by decide)]
  simp only [readField_little_two c hc, readField_little_four c hc, readField_little_eight c hc]
  rfl -- the sums of offsets

theorem readField_big_four {c : Config} (hc : c.wireEndian = .big) (p : List Byte) (o : Nat) :
    readField c.wireEndian 4 p o = byteAt p o ++ byteAt p (o + 1) ++ byteAt p (o + 2) ++ byteAt p (o + 3) := by
  apply BitVec.eq_of_toNat_eq
  simp only [append_toNat]
  simp [readField, hc, orient, fieldBytes, List.range, List.range.loop, leNat]
  omega

/-- A field outside of which a byte is written reads as before. -/
theorem readField_set_outside (e : Endian) {p : List Byte} {i off n : Nat} (v : Byte) (h : i < off ∨ off + n ≤ i) :
    readField e n (p.set i v) off = readField e n p off := by
  rw [readField, fieldBytes_set, if_neg (by omega), ← readField]

/-! ### The CRC -/

theorem crcOk_iff (c : Config) (p : List Byte) : crcOk c p = true ↔ metaCrcComputed c p = metaCrcEmbedded c p :=
  beq_iff_eq

theorem repeatStep_eq_iterate (f : Word → Word) (n : Nat) (c : Word) : repeatStep f n c = f^[n] c := by
  induction n generalizing c with
  | zero => rfl
  | succ n ih => exact ih (f c)

/-- What follows the loop over the bytes, a reflection at most and an XOR, loses nothing. -/
theorem crc32_foldl_inj {k : CrcParams} {xs ys : List Byte} (h : crc32 k xs = crc32 k ys) :
    ∃ r, xs.foldl (crcByte k) r = ys.foldl (crcByte k) r := by
  refine ⟨if k.reflectIn then k.init.reverse else k.init, ?_⟩
  have hregister := BitVec.xor_left_inj k.xorOut |>.mp h
  split at hregister
  · exact hregister
  · simpa using congrArg BitVec.reverse hregister

/-- A CRC whose generator has its constant term differs after a change of one byte (43_meta_validator.md R115). -/
theorem crc32_set_ne {k : CrcParams} (hk : k.poly.getLsbD 0 = true) {xs : List Byte} {n : Nat} {v : Byte}
    (hn : n < xs.length) (hv : xs[n] ≠ v) : crc32 k (xs.set n v) ≠ crc32 k xs := by
  intro h
  obtain ⟨r, hr⟩ := crc32_foldl_inj h
  exact hv (foldl_crc_set hk xs r n v hn hr)

theorem crcByte_isoHdlc (r : Word) (x : Byte) :
    crcByte CrcParams.isoHdlc r x = (crcStepRight 0xEDB88320#32)^[8] (r ^^^ x.setWidth 32) := by
  have hpoly : CrcParams.isoHdlc.poly.reverse = 0xEDB88320#32 := by decide +kernel
  rw [crcByte, hpoly, repeatStep_eq_iterate]
  rfl

theorem crc32_isoHdlc (b : List Byte) :
    crc32 CrcParams.isoHdlc b =
      b.foldl (fun r x => (crcStepRight 0xEDB88320#32)^[8] (r ^^^ x.setWidth 32)) 0xFFFFFFFF#32 ^^^ 0xFFFFFFFF#32 := by
  have hinit : CrcParams.isoHdlc.init.reverse = 0xFFFFFFFF#32 := by decide +kernel
  have hbyte : crcByte CrcParams.isoHdlc = _ := funext₂ crcByte_isoHdlc
  rw [crc32, hinit, hbyte]
  rfl

/-- Settles O29: the two fields by byte order, the loop of R113 by iteration, and its check value by running it. -/
theorem crcCoversTheDescriptor : Obligations.CrcCoversTheDescriptor := by
  refine ⟨fun c p => ⟨?_, fun hc => ?_, fun hc => ?_, crcOk_iff c p⟩, crc32_isoHdlc, ?_⟩
  · simp [metaCrcComputed, fieldBytes, crcSpan]
  · exact readField_little_four c hc p 28
  · exact readField_big_four hc p 28
  · decide +kernel

/-! ### META_VALIDATE (43_meta_validator.md R117 to R119) -/

theorem exec_metaValidate_skipped {s : State} {fr : Frame} (hr : fr.metaRetrieved = false) :
    exec (.metaValidate fr) s = .next s := by
  rw [exec, execMetaValidate, hr]
  rfl

theorem exec_metaValidate_rejected {s : State} {fr : Frame} (hr : fr.metaRetrieved = true)
    (hc : crcOk s.cfg (payloadOf fr 0) = false) :
    exec (.metaValidate fr) s = .next (emit (.descriptor none)
      (raise (.metaCrc fr.frameIndex (metaCrcComputed s.cfg (payloadOf fr 0))
        (metaCrcEmbedded s.cfg (payloadOf fr 0))) s)) := by
  simp [exec, execMetaValidate, metaValidate, metaResult, hr, hc]

theorem exec_metaValidate_adopted {s : State} {fr : Frame} (hr : fr.metaRetrieved = true)
    (hc : crcOk s.cfg (payloadOf fr 0) = true) :
    exec (.metaValidate fr) s = .next (emit (.descriptor (some (metaParse s.cfg (payloadOf fr 0))))
      (adoptMeta (metaParse s.cfg (payloadOf fr 0)) s)) := by
  simp [exec, execMetaValidate, metaValidate, metaResult, hr, hc]

theorem adoptMeta_sameRate {s : State} {m old : MetaDataFEC} (hold : s.cachedMeta = some old)
    (hrate : old.sampleRate = m.sampleRate) : adoptMeta m s = { s with cachedMeta := some m } := by
  simp [adoptMeta, rateChanges, hold, hrate]

theorem adoptMeta_otherRate {s : State} {m old : MetaDataFEC} (hold : s.cachedMeta = some old)
    (hrate : old.sampleRate ≠ m.sampleRate) :
    adoptMeta m s = { raise (.newSampleRate old.sampleRate m.sampleRate) s with cachedMeta := some m } := by
  simp [adoptMeta, rateChanges, cachedRate, ofCached, hold, hrate]

theorem adoptMeta_first {s : State} {m : MetaDataFEC} (hnone : s.cachedMeta = none) :
    adoptMeta m s = { raise (.newSampleRate 0#32 m.sampleRate) s with cachedMeta := some m } := by
  simp [adoptMeta, rateChanges, cachedRate, ofCached, hnone]

/-- Settles O30: the three cases of R119 for the cached descriptor. -/
theorem validDescriptorIsAdopted : Obligations.ValidDescriptorIsAdopted := by
  intro s fr hr hc m
  rw [exec_metaValidate_adopted hr hc]
  refine ⟨fun old hold hrate => ?_, fun old hold hrate => ?_, fun hnone => ?_⟩
  · rw [adoptMeta_sameRate hold hrate]
    rfl
  · rw [adoptMeta_otherRate hold hrate]
    rfl
  · rw [adoptMeta_first hnone]
    rfl

/-- Settles O31: E5 is all that a failed CRC leaves, and its status bit is bit 4. -/
theorem invalidDescriptorIsNotAdopted : Obligations.InvalidDescriptorIsNotAdopted :=
  fun _ _ => ⟨exec_metaValidate_rejected, exec_metaValidate_skipped⟩

/-! ### A flipped bit -/

theorem xor_bit_ne (x : Byte) {bit : Nat} (hbit : bit < 8) : x ≠ x ^^^ (1#8 <<< bit) := by
  intro h
  have hzero : 1#8 <<< bit = 0#8 := (BitVec.xor_right_inj x).mp (by simpa using h.symm)
  have hset : (1#8 <<< bit).getLsbD bit = true := by simp [hbit]
  rw [hzero] at hset
  simp at hset

/-- A valid descriptor fails its CRC after a change of one of the bytes the CRC covers. -/
theorem crcOk_set_eq_false {c : Config} {p : List Byte} {i : Nat} {v : Byte} (hpoly : c.crc.poly.getLsbD 0 = true)
    (hlen : crcSpan ≤ p.length) (hok : crcOk c p = true) (hi : i < crcSpan) (hv : byteAt p i ≠ v) :
    crcOk c (p.set i v) = false := by
  have hbytes : fieldBytes (p.set i v) 0 crcSpan = (fieldBytes p 0 crcSpan).set i v := by
    rw [fieldBytes_set, if_pos (by omega), Nat.sub_zero]
  have hembedded : metaCrcEmbedded c (p.set i v) = metaCrcEmbedded c p :=
    readField_set_outside c.wireEndian v (.inl hi)
  have hcomputed : metaCrcComputed c (p.set i v) ≠ metaCrcComputed c p := by
    rw [metaCrcComputed, hbytes]
    exact crc32_set_ne hpoly (by simpa [fieldBytes] using hi) (by simpa [fieldBytes] using hv)
  rw [Bool.eq_false_iff, Ne, crcOk_iff, hembedded, ← (crcOk_iff c p).mp hok]
  exact hcomputed

/-- Settles O32: no step of the register loses the flipped bit, and META_VALIDATE rejects the descriptor. -/
theorem singleBitFlipIsDetected : Obligations.SingleBitFlipIsDetected := by
  intro c p byte bit hpoly hlen hok hbyte hbit flipped
  have hbad : crcOk c flipped = false :=
    crcOk_set_eq_false hpoly (Nat.le_trans (by decide) hlen) hok hbyte (xor_bit_ne _ hbit)
  refine ⟨hbad, fun s fr hcfg hr hpay => ?_⟩
  have hrej : crcOk s.cfg (payloadOf fr 0) = false := by rw [hcfg, hpay, hbad]
  exact ⟨_, exec_metaValidate_rejected hr hrej, rfl⟩

end Sys2Proof.Machine

/-! ## The Jitter/Read Buffer (44_jitter_buffer.md)

The width a frame is read with, the push, one read by where its cursor stands, and the reads of a whole frame. -/

namespace Sys2Proof.Machine

/-! ### The width of a frame (R120) -/

/-- A width as the block uses it: itself where it is supported, else 0. -/
def supportedWidth (n : Nat) : Byte := if isSampleWidth n then BitVec.ofNat 8 n else 0#8

theorem supportedWidth_eq_iff {n : Nat} (hn : n = 1 ∨ n = 2 ∨ n = 4) (m : Nat) :
    supportedWidth m = BitVec.ofNat 8 n ↔ m = n := by
  constructor
  · intro h
    by_cases hm : isSampleWidth m = true
    · rw [supportedWidth, if_pos hm] at h
      simp only [isSampleWidth, Bool.or_eq_true, beq_iff_eq, or_assoc] at hm
      have hmod : m % 256 = n % 256 := congrArg BitVec.toNat h
      omega
    · rw [supportedWidth, if_neg hm] at h
      rcases hn with rfl | rfl | rfl <;> exact absurd h (by decide)
  · rintro rfl
    exact if_pos (by rcases hn with rfl | rfl | rfl <;> rfl)

theorem sbFor_own {c : Config} {fr : Frame} (cached : Option MetaDataFEC)
    (h : isPresent fr 0 = true ∧ crcOk c (payloadOf fr 0) = true) :
    sbFor c cached fr = supportedWidth ((byteAt (payloadOf fr 0) 12).toNat % 16) := by
  simp [sbFor, supportedWidth, h.1, h.2]

theorem sbFor_cached {c : Config} {fr : Frame} (m : MetaDataFEC)
    (h : ¬ (isPresent fr 0 = true ∧ crcOk c (payloadOf fr 0) = true)) :
    sbFor c (some m) fr = supportedWidth m.sampleBytes.toNat := by
  rw [← Bool.and_eq_true] at h
  simp only [sbFor, h, if_false, supportedWidth, Bool.false_eq_true]

theorem sbFor_none {c : Config} {fr : Frame} (h : ¬ (isPresent fr 0 = true ∧ crcOk c (payloadOf fr 0) = true)) :
    sbFor c none fr = 0#8 := by
  rw [← Bool.and_eq_true] at h
  simp only [sbFor, h]
  rfl

/-- Settles O33: the frame's own valid block 0, else the cached descriptor, else none. -/
theorem frameWidthSelection : Obligations.FrameWidthSelection := by
  intro c cached fr own
  refine ⟨sbFor_legal c cached fr, fun n hn => ?_⟩
  by_cases hown : own
  · rw [sbFor_own cached hown, supportedWidth_eq_iff hn]
    simp [hown]
  · cases cached with
    | some m =>
      rw [sbFor_cached m hown, supportedWidth_eq_iff hn]
      simp [hown]
    | none =>
      have hzero : 0#8 ≠ BitVec.ofNat 8 n := by rcases hn with rfl | rfl | rfl <;> decide
      rw [sbFor_none hown]
      simp [hown, hzero]

/-! ### JB_PUSH (R122) -/

theorem jbPush_room {s : State} (e : JbEntry) (h : s.jb.length ≠ s.cfgJbDepth.toNat) :
    jbPush e s = { s with jb := s.jb ++ [e], cursor := if s.jb = [] then ⟨1, 0⟩ else s.cursor } := by
  simp [jbPush, jbMakeRoom_room s h, cursorStart]

theorem jbPush_full {s : State} (e : JbEntry) {head : JbEntry} {rest : List JbEntry} (hj : s.jb = head :: rest)
    (h : s.jb.length = s.cfgJbDepth.toNat) :
    jbPush e s = raise (.jbDrop head.frame.frameIndex)
      { s with jb := rest ++ [e], cursor := ⟨1, 0⟩, jbDropCount := s.jbDropCount + 1#32 } := by
  simp [jbPush, jbMakeRoom_full s hj h, cursorStart, raise]

/-- Settles O34: a buffer with room takes the entry; a full one loses its head first, and the status bit of E9 is
bit 8. -/
theorem jbPushAppendsTheEntry : Obligations.JbPushAppendsTheEntry :=
  fun _ e => ⟨fun h => congrArg _ (jbPush_room e h), fun _ _ hj h => congrArg _ (jbPush_full e hj h)⟩

/-! ### One read (R123 to R126) -/

theorem readSample_empty (isTx : Bool) {s : State} (h : s.jb = []) :
    readSample isTx s = emit (.sample 0#32 0#32) (raise .jbUnderrun s) := by
  simp [readSample, h]

/-- Settles O35: E10 and the silent pair are all an empty buffer gives, and the status bit of E10 is bit 9. -/
theorem emptyBufferReadsSilence : Obligations.EmptyBufferReadsSilence :=
  fun _ h => ⟨congrArg _ (readSample_empty false h), congrArg _ (readSample_empty true h)⟩

theorem exec_readSample {i : Instr} (hi : i = .readSampleRx ∨ i = .readSampleTx) :
    ∃ isTx, ∀ s, exec i s = .next (readSample isTx s) := by
  rcases hi with rfl | rfl
  · exact ⟨false, fun _ => rfl⟩
  · exact ⟨true, fun _ => rfl⟩

theorem samplesPerBlock_zero (c : Config) {sb : Byte} (h : sb = 0#8) : samplesPerBlock c sb = c.blockBytes / 4 := by
  rw [h]
  rfl

theorem samplePair_zero (c : Config) (isTx : Bool) {e : JbEntry} (cur : Cursor) (h : e.sb = 0#8) :
    samplePair c isTx e cur = (0#32, 0#32) := by
  rw [samplePair, h]
  rfl

/-! #### The three moves of ADVANCE: within a block, to the next block, out of the frame (R124) -/

theorem nextCursor_within {c : Config} {e : JbEntry} {cur : Cursor} (hidx : cur.idx + 1 ≠ samplesPerBlock c e.sb)
    (hblk : cur.blk ≠ c.k) : nextCursor c e cur = some ⟨cur.blk, cur.idx + 1⟩ := by
  simp [nextCursor, hidx, hblk]

theorem nextCursor_nextBlock {c : Config} {e : JbEntry} {cur : Cursor} (hidx : cur.idx + 1 = samplesPerBlock c e.sb)
    (hblk : cur.blk + 1 ≠ c.k) : nextCursor c e cur = some ⟨cur.blk + 1, 0⟩ := by
  simp [nextCursor, hidx, hblk]

theorem nextCursor_exhausted {c : Config} {e : JbEntry} {cur : Cursor} (hidx : cur.idx + 1 = samplesPerBlock c e.sb)
    (hblk : cur.blk + 1 = c.k) : nextCursor c e cur = none := by
  simp [nextCursor, hidx, hblk]

/-! #### The state after one read -/

/-- What a read at a cursor returns (log 7). -/
def sampleOutput (c : Config) (isTx : Bool) (e : JbEntry) (cur : Cursor) : Output :=
  .sample (samplePair c isTx e cur).1 (samplePair c isTx e cur).2

section
variable {s : State} {e : JbEntry} {rest : List JbEntry}

theorem readSample_of_next (isTx : Bool) {cur : Cursor} (hj : s.jb = e :: rest)
    (hn : nextCursor s.cfg e s.cursor = some cur) :
    readSample isTx s = { s with
      cursor := cur, readSamplesCount := s.readSamplesCount + 1#32
      outputs := s.outputs ++ [sampleOutput s.cfg isTx e s.cursor] } := by
  rw [readSample_step isTx s e rest hj, hn]
  rfl

theorem readSample_of_exhausted (isTx : Bool) (hj : s.jb = e :: rest) (hn : nextCursor s.cfg e s.cursor = none) :
    readSample isTx s = { s with
      jb := rest, cursor := ⟨1, 0⟩, readSamplesCount := s.readSamplesCount + 1#32
      outputs := s.outputs ++ [sampleOutput s.cfg isTx e s.cursor] } := by
  rw [readSample_step isTx s e rest hj, hn]
  rfl

end

/-- Settles O36, by the three moves of ADVANCE. -/
theorem readSampleAdvancesTheCursor : Obligations.ReadSampleAdvancesTheCursor := by
  intro s e rest i hi hj blk idx spb
  obtain ⟨isTx, hexec⟩ := exec_readSample hi
  refine ⟨fun n hn hsb => samplesPerBlock_supported s.cfg hn hsb, (samplePair s.cfg isTx e s.cursor).1,
    (samplePair s.cfg isTx e s.cursor).2, fun jb cursor hmove => ?_⟩
  rw [hexec]
  rcases hmove with ⟨hidx, hblk, rfl, rfl⟩ | ⟨hidx, hblk, rfl, rfl⟩ | ⟨hidx, hblk, rfl, rfl⟩
  · rw [readSample_of_next isTx hj (nextCursor_within hidx hblk)]
    rfl
  · rw [readSample_of_next isTx hj (nextCursor_nextBlock hidx hblk)]
    rfl
  · rw [readSample_of_exhausted isTx hj (nextCursor_exhausted hidx hblk)]
    rfl

/-- Settles O37: the pair is (0, 0), and ADVANCE moves at P_BLOCK_BYTES / 4 samples a block. -/
theorem unsupportedWidthReadsZero : Obligations.UnsupportedWidthReadsZero := by
  intro s e rest i hi hj hsb
  obtain ⟨isTx, hexec⟩ := exec_readSample hi
  have hspb := samplesPerBlock_zero s.cfg hsb
  refine ⟨hspb, readSample isTx s, hexec s, ?_, ?_, ?_, ?_⟩
  · rw [readSample_outputs isTx hj, samplePair_zero s.cfg isTx s.cursor hsb]
  · rw [readSample_step isTx s e rest hj]
  · rw [readSample_step isTx s e rest hj]
  · rw [← hspb]
    refine ⟨fun hidx hblk => ?_, fun hidx hblk => ?_, fun hidx hblk => ?_⟩
    · rw [readSample_of_next isTx hj (nextCursor_within hidx hblk)]
      exact ⟨rfl, rfl⟩
    · rw [readSample_of_next isTx hj (nextCursor_nextBlock hidx hblk)]
      exact ⟨rfl, rfl⟩
    · rw [readSample_of_exhausted isTx hj (nextCursor_exhausted hidx hblk)]
      exact ⟨rfl, rfl⟩

/-! ### The reads of a frame (R121, R124) -/

/-- The cursor on sample `n` of a frame with `spb` samples a block. -/
def sampleCursor (spb n : Nat) : Cursor := ⟨1 + n / spb, n % spb⟩

/-- The first `n` pairs of an entry, in (block, sample) order. -/
def firstSamples (c : Config) (isTx : Bool) (e : JbEntry) (n : Nat) : List Output :=
  (List.range n).map fun j => sampleOutput c isTx e (sampleCursor (samplesPerBlock c e.sb) j)

theorem firstSamples_succ (c : Config) (isTx : Bool) (e : JbEntry) (n : Nat) :
    firstSamples c isTx e (n + 1) =
      firstSamples c isTx e n ++ [sampleOutput c isTx e (sampleCursor (samplesPerBlock c e.sb) n)] := by
  simp [firstSamples, List.range_succ]

theorem sampleCursor_zero (spb : Nat) : sampleCursor spb 0 = ⟨1, 0⟩ := by
  simp [sampleCursor]

theorem sampleCursor_succ_within {spb n : Nat} (hpos : 0 < spb) (h : n % spb + 1 ≠ spb) :
    sampleCursor spb (n + 1) = ⟨1 + n / spb, n % spb + 1⟩ := by
  have hlt : n % spb + 1 < spb := Nat.lt_of_le_of_ne (Nat.mod_lt n hpos) h
  have hn : n + 1 = (n % spb + 1) + spb * (n / spb) := by rw [Nat.add_right_comm, Nat.mod_add_div]
  rw [sampleCursor, hn, Nat.add_mul_div_left _ _ hpos, Nat.add_mul_mod_self_left, Nat.div_eq_of_lt hlt,
    Nat.mod_eq_of_lt hlt, Nat.zero_add]

theorem sampleCursor_succ_nextBlock {spb n : Nat} (hpos : 0 < spb) (h : n % spb + 1 = spb) :
    sampleCursor spb (n + 1) = ⟨1 + n / spb + 1, 0⟩ := by
  have hn : n + 1 = spb * (n / spb + 1) := by
    rw [Nat.mul_succ]
    have := Nat.mod_add_div n spb
    omega
  rw [sampleCursor, hn, Nat.mul_div_cancel_left _ hpos, Nat.mul_mod_right, Nat.add_assoc]

section
variable {c : Config} {e : JbEntry} {n : Nat}

theorem sampleCursor_blk_ne (h : n < (c.k - 1) * samplesPerBlock c e.sb) :
    (sampleCursor (samplesPerBlock c e.sb) n).blk ≠ c.k :=
  (Nat.add_lt_of_lt_sub' ((Nat.div_lt_iff_lt_mul (samplesPerBlock_pos c e.sb)).mpr h)).ne

/-- Sample `n` is not the last of the frame: ADVANCE goes to sample `n + 1`. -/
theorem nextCursor_sampleCursor (h : n + 1 < (c.k - 1) * samplesPerBlock c e.sb) :
    nextCursor c e (sampleCursor (samplesPerBlock c e.sb) n) =
      some (sampleCursor (samplesPerBlock c e.sb) (n + 1)) := by
  have hpos := samplesPerBlock_pos c e.sb
  by_cases hlast : n % samplesPerBlock c e.sb + 1 = samplesPerBlock c e.sb
  · have hblk := sampleCursor_blk_ne h
    rw [sampleCursor_succ_nextBlock hpos hlast] at hblk ⊢
    exact nextCursor_nextBlock hlast hblk
  · rw [sampleCursor_succ_within hpos hlast]
    exact nextCursor_within hlast (sampleCursor_blk_ne (Nat.lt_of_succ_lt h))

/-- Sample `n` is the last of the frame: ADVANCE leaves it. -/
theorem nextCursor_sampleCursor_last (h : n + 1 = (c.k - 1) * samplesPerBlock c e.sb) :
    nextCursor c e (sampleCursor (samplesPerBlock c e.sb) n) = none := by
  have hpos := samplesPerBlock_pos c e.sb
  have hk : 2 ≤ c.k := c.legal.bounds.1
  have hlast : n % samplesPerBlock c e.sb + 1 = samplesPerBlock c e.sb := by
    by_contra hne
    have hmod := congrArg Cursor.idx (sampleCursor_succ_within hpos hne)
    simp [sampleCursor, h] at hmod
  refine nextCursor_exhausted hlast ?_
  have hdiv := congrArg Cursor.blk (sampleCursor_succ_nextBlock hpos hlast)
  rw [h, sampleCursor, Nat.mul_div_cancel _ hpos] at hdiv
  simp only [sampleCursor] at hdiv ⊢
  omega

end

section
variable {s : State} {e : JbEntry} {rest : List JbEntry} (isTx : Bool) {n : Nat}

/-- Before the last sample the frame stays head. -/
theorem readMany_within (hj : s.jb = e :: rest) (hcur : s.cursor = ⟨1, 0⟩)
    (h : n < (s.cfg.k - 1) * samplesPerBlock s.cfg e.sb) :
    readMany isTx n s = { s with
      cursor := sampleCursor (samplesPerBlock s.cfg e.sb) n
      readSamplesCount := s.readSamplesCount + BitVec.ofNat 32 n
      outputs := s.outputs ++ firstSamples s.cfg isTx e n } := by
  induction n with
  | zero => simp [readMany, sampleCursor_zero, firstSamples, ← hcur]
  | succ n ih =>
    rw [readMany_snoc, ih (Nat.lt_of_succ_lt h),
      readSample_of_next isTx (by exact hj) (nextCursor_sampleCursor h), firstSamples_succ, ← List.append_assoc,
      BitVec.add_assoc, BitVec.ofNat_add]

/-- The last sample removes the frame. -/
theorem readMany_last (hj : s.jb = e :: rest) (hcur : s.cursor = ⟨1, 0⟩)
    (h : n + 1 = (s.cfg.k - 1) * samplesPerBlock s.cfg e.sb) :
    readMany isTx (n + 1) s = { s with
      jb := rest, cursor := ⟨1, 0⟩
      readSamplesCount := s.readSamplesCount + BitVec.ofNat 32 (n + 1)
      outputs := s.outputs ++ firstSamples s.cfg isTx e (n + 1) } := by
  rw [readMany_snoc, readMany_within isTx hj hcur (by omega),
    readSample_of_exhausted isTx (by exact hj) (nextCursor_sampleCursor_last h), firstSamples_succ,
    ← List.append_assoc, BitVec.add_assoc, BitVec.ofNat_add]

end

/-- Settles O41, by induction on the reads before the last one, then the last one. -/
theorem frameSuppliesItsSamplesInOrder : Obligations.FrameSuppliesItsSamplesInOrder := by
  intro s e rest isTx n hj hcur hpos hle spb t
  refine ⟨fun w hw hsb => samplesPerBlock_supported s.cfg hw hsb, samplesPerBlock_zero s.cfg, ?_⟩
  rcases Nat.lt_or_eq_of_le hle with hlt | hlast
  · have ht : t = _ := readMany_within isTx hj hcur hlt
    rw [ht]
    exact ⟨rfl, rfl, fun _ => ⟨rfl, rfl⟩, fun h => absurd h (Nat.ne_of_lt hlt)⟩
  · have hk : 2 ≤ s.cfg.k := s.cfg.legal.bounds.1
    obtain ⟨m, rfl⟩ : ∃ m, n = m + 1 := Nat.exists_eq_succ_of_ne_zero
      (hlast ▸ (Nat.mul_pos (Nat.sub_pos_of_lt hk) hpos).ne')
    have ht : t = _ := readMany_last isTx hj hcur hlast
    rw [ht]
    exact ⟨rfl, rfl, fun h => absurd hlast (Nat.ne_of_lt h), fun _ => ⟨rfl, rfl⟩⟩

/-! ### The conversion between 16 and 24 bits (R127, R128) -/

theorem convert_16_to_24 {c : Config} (hc : c.rxBits = .b24) (x : Int) :
    convert c x 16 false = x * 256 / 2 ^ c.rxHeadroom := by
  simp [convert, outputBits, headroom, hc, RxBits.bits]

theorem convert_24_to_16 {c : Config} (hc : c.rxBits = .b16) (x : Int) :
    convert c x 24 false = x / 256 / 2 ^ c.rxHeadroom := by
  simp [convert, outputBits, headroom, hc, RxBits.bits]

/-- The three floors of the trip are one. -/
theorem mul_256_ediv_round_trip (x : Int) (h : Nat) : x * 256 / 2 ^ h / 256 / 2 ^ h = x / 2 ^ (2 * h) := by
  have hpow : (0 : Int) < 2 ^ h := by positivity
  calc x * 256 / 2 ^ h / 256 / 2 ^ h
      = x * 256 / 256 / 2 ^ h / 2 ^ h := by
        rw [Int.ediv_ediv_of_nonneg hpow.le, mul_comm (2 ^ h : Int),
          ← Int.ediv_ediv_of_nonneg (show (0 : Int) ≤ 256 by decide)]
    _ = x / 2 ^ h / 2 ^ h := by rw [Int.mul_ediv_cancel x (by decide)]
    _ = x / 2 ^ (2 * h) := by rw [Int.ediv_ediv_of_nonneg hpow.le, ← pow_add, two_mul]

/-- Settles O40: the trip there and back multiplies by 256, and shifts right by 8 and by the headroom twice. -/
theorem roundTripThrough24Bits : Obligations.RoundTripThrough24Bits := by
  intro c16 c24 x _ _ h16 h24 hroom
  have htrip : convert c16 (convert c24 x 16 false) 24 false = x / 2 ^ (2 * c24.rxHeadroom) := by
    rw [convert_16_to_24 h24, convert_24_to_16 h16, hroom, mul_256_ediv_round_trip]
  refine ⟨fun h => ?_, htrip, fun h => ?_⟩
  · simp [convert_16_to_24 h24, h]
  · simp [htrip, h]

end Sys2Proof.Machine


/-! ### The control registers read, and the three control operations (45_host_interface.md R129, R131 to R133) -/

namespace Sys2Proof.Machine

/-- Bit 0 of CTRL is RUN, and the bits above are zero (R35). -/
theorem registerValue_ctrl (s : State) : registerValue s .ctrl = if s.run then 1#32 else 0#32 := rfl

/-- A register whose read leaves no record returns its value and keeps the whole state. -/
theorem exec_regRead_of_afterRead {addr : Byte} {s : State} (h : afterRead s (registerAt addr) = s) :
    exec (.regRead addr) s =
      .next { s with outputs := s.outputs ++ [.word (registerValue s (registerAt addr))] } := by
  rw [exec_regRead, h, emit]

/-- Settles O42, register by register: none of the seven is a telemetry register. -/
theorem regReadOfControlRegisters : Obligations.RegReadOfControlRegisters := by
  rintro s addr w (⟨rfl, rfl⟩ | ⟨rfl, rfl⟩ | ⟨rfl, rfl⟩ | ⟨rfl, rfl⟩ | ⟨rfl, rfl⟩ | ⟨rfl, rfl⟩ | ⟨rfl, rfl⟩)
  · rw [← registerValue_ctrl]
    exact exec_regRead_of_afterRead rfl
  all_goals exact exec_regRead_of_afterRead rfl

/-- A running block that stops discards the frames in flight and keeps everything else (R132). -/
theorem stopReceiving_of_running {s : State} (h : s.run = true) :
    stopReceiving s = { s with
      run := false, ring := List.replicate s.cfg.ringMax none, tq := [], jb := [], cursor := ⟨1, 0⟩ } := by
  rw [stopReceiving, if_pos h, tqClear, emptyRing, cursorStart]

theorem exec_stop (s : State) : exec .stop s = .next (stopReceiving s) := rfl

/-- Settles O51: START and CLEAR_COUNTERS are one update each, and STOP turns on whether the block runs. -/
theorem startStopAndClearCounters : Obligations.StartStopAndClearCounters := by
  intro s
  refine ⟨rfl, fun hstopped => ?_, fun hrunning => ?_, rfl⟩
  · rw [exec_stop, stopReceiving_of_stopped hstopped]
  · rw [exec_stop, stopReceiving_of_running hrunning]

end Sys2Proof.Machine


/-! ### Operations of another agent (60_exceptions.md R142) -/

namespace Sys2Proof.Machine

theorem owns_eq_false {a b : Agent} {i : Instr} (howner : ownerOf i = some b) (hne : a ≠ b) : owns a i = false := by
  simp [owns, howner, hne]

theorem fetch_foreign {s : State} {a : Agent} {rest : List Agent} {tail : List Byte} {i : Instr}
    (hsched : s.sched = a :: rest) (hdec : decode s.cfg (portOf s a) = .ok (i, tail)) (hown : owns a i = false) :
    fetch s = .reject (.notOwner a) := by
  simp only [fetch, hsched]
  split
  · rename_i hport
    rw [hport] at hdec
    cases hdec
  · rename_i hport
    simp [← hport, hdec, hown]

/-- Settles O4: `fetch` rejects the operation before anything is taken from the port. -/
theorem foreignOperationsAreRefused : Obligations.ForeignOperationsAreRefused := by
  rintro s a b rest _ tail i hsched rfl hdec howner hne
  rw [step, fetch_foreign hsched hdec (owns_eq_false howner hne)]

end Sys2Proof.Machine


/-! ### Every operation completes (60_exceptions.md R134, R141) -/

namespace Sys2Proof.Machine

/-- The three outcomes of INGEST: stopped (R81), of the wrong length (R82), filed (R83 to R87). -/
theorem exec_ingest_cases (dg : List Byte) (s : State) :
    exec (.ingest dg) s = .next s ∨ exec (.ingest dg) s = .next (rejectDatagram dg s) ∨
      exec (.ingest dg) s = .next (fileDatagram dg s) := by
  cases hr : s.run with
  | false => exact .inl (exec_ingest_stopped dg hr)
  | true =>
    by_cases hl : dg.length = 8 + s.cfg.blockBytes
    · exact .inr (.inr (exec_ingest_rightLength hr hl))
    · exact .inr (.inl (exec_ingest_wrongLength hr hl))

/-- Settles O54: each operation answers a next state, and its frame names neither the parameters nor the ports nor
the turns. -/
theorem everyOperationCompletes : Obligations.EveryOperationCompletes := by
  intro s i
  cases i with
  | ingest dg =>
    rcases exec_ingest_cases dg s with h | h | h
    · exact ⟨_, h, rfl, rfl, rfl⟩
    · exact ⟨_, h, rfl, rfl, rfl⟩
    · exact ⟨_, h, by rw [fileDatagram_frame]; exact ⟨rfl, rfl, rfl⟩⟩
  | tqPop =>
    cases ht : s.tq with
    | nil => exact ⟨_, exec_tqPop_empty ht, rfl, rfl, rfl⟩
    | cons fr rest => exact ⟨_, exec_tqPop_head ht, rfl, rfl, rfl⟩
  | recProcess =>
    cases ht : s.tq with
    | nil => exact ⟨_, exec_recProcess_empty ht, rfl, rfl, rfl⟩
    | cons fr rest =>
      exact ⟨_, exec_recProcess_head ht, by rw [processFrame_frame]; exact ⟨rfl, rfl, rfl⟩⟩
  | metaValidate fr =>
    cases hr : fr.metaRetrieved with
    | false => exact ⟨_, exec_metaValidate_skipped hr, rfl, rfl, rfl⟩
    | true => exact ⟨_, if_pos hr, by rw [metaValidate_frame]; exact ⟨rfl, rfl, rfl⟩⟩
  | tqPush fr => exact ⟨_, rfl, by rw [tqPush_frame]; exact ⟨rfl, rfl, rfl⟩⟩
  | fecRecover fr m => exact ⟨_, rfl, by rw [recoverState_frame]; exact ⟨rfl, rfl, rfl⟩⟩
  | jbPush e => exact ⟨_, rfl, by rw [jbPush_frame]; exact ⟨rfl, rfl, rfl⟩⟩
  | readSampleRx => exact ⟨_, rfl, by rw [readSample_frame]; exact ⟨rfl, rfl, rfl⟩⟩
  | readSampleTx => exact ⟨_, rfl, by rw [readSample_frame]; exact ⟨rfl, rfl, rfl⟩⟩
  | regRead addr => exact ⟨_, rfl, by rw [afterRead_frame]; exact ⟨rfl, rfl, rfl⟩⟩
  | regWrite addr data => exact ⟨_, rfl, by rw [registerWrite_frame]; exact ⟨rfl, rfl, rfl⟩⟩
  | stop => exact ⟨_, rfl, by rw [stopReceiving_frame]; exact ⟨rfl, rfl, rfl⟩⟩
  | tqLen | tqClear | start | clearCounters | reset => exact ⟨_, rfl, rfl, rfl, rfl⟩

end Sys2Proof.Machine


/-! ### The order of events within one operation (60_exceptions.md R138) -/

namespace Sys2Proof.Machine

/-! #### INGEST and READ_SAMPLE -/

/-- Making room in the Transfer Queue raises E8 or nothing. -/
theorem tqMakeRoom_events (s : State) :
    ∃ old, (tqMakeRoom s).events = s.events ++ old ∧ (old = [] ∨ ∃ g, old = [.tqDrop g]) := by
  unfold tqMakeRoom
  split
  · split
    · exact ⟨[], (List.append_nil _).symm, .inl rfl⟩
    · exact ⟨_, rfl, .inr ⟨_, rfl⟩⟩
  · exact ⟨[], (List.append_nil _).symm, .inl rfl⟩

theorem tqPush_events (fr : Frame) (s : State) :
    ∃ old, (tqPush fr s).events = s.events ++ old ++ [.tqPush fr.frameIndex] ∧
      (old = [] ∨ ∃ g, old = [.tqDrop g]) := by
  obtain ⟨old, hev, hold⟩ := tqMakeRoom_events s
  have hpush : (tqPush fr s).events = (tqMakeRoom s).events ++ [.tqPush fr.frameIndex] := rfl
  exact ⟨old, by rw [hpush, hev], hold⟩

/-- A filed datagram raises nothing, or the events of the push of the frame it completes (R85). -/
theorem fileDatagram_events (dg : List Byte) (s : State) :
    (fileDatagram dg s).events = s.events ∨ ∃ fr, (fileDatagram dg s).events = (tqPush fr s).events := by
  rw [fileDatagram, setRing_events, completeFrame]
  split
  · split
    · exact .inl rfl
    · exact .inr ⟨_, rfl⟩
  · exact .inl rfl

theorem readSample_events (isTx : Bool) (s : State) :
    (readSample isTx s).events = s.events ∨ (readSample isTx s).events = s.events ++ [.jbUnderrun] := by
  cases hj : s.jb with
  | nil => exact .inr (by rw [readSample_empty isTx hj, emit_events, raise_events])
  | cons e rest => exact .inl (by rw [readSample_step isTx s e rest hj])

/-! #### The four stages of REC_PROCESS (42_fec_recovery.md R107) -/

/-- E2 is raised for an incomplete frame, which META_VALIDATE does not run for. -/
theorem recoveryEvents_cases (fr : Frame) (s : State) :
    recoveryEvents s.cfg fr (selectM s fr) = [] ∨
    (∃ f n, recoveryEvents s.cfg fr (selectM s fr) = [.incomplete f n] ∧ descriptorEvents fr s = []) ∨
    ∃ f n, recoveryEvents s.cfg fr (selectM s fr) = [.decodeFail f n] := by
  rcases Nat.lt_or_ge fr.blockCount.toNat s.cfg.k with hbc | hbc
  · have hskip : ¬ Validated fr s := fun h => Nat.not_le.mpr hbc h.1
    exact .inr (.inl ⟨_, _, recoveryEvents_incomplete hbc, (processFrame_notValidated fr s hskip).2⟩)
  by_cases h : Tried s.cfg fr ∧ ¬ Rebuilds s.cfg fr (selectM s fr)
  · exact .inr (.inr ⟨_, _, recoveryEvents_failed h.1 h.2⟩)
  · exact .inl (recoveryEvents_none hbc fun ht => by_contra fun hr => h ⟨ht, hr⟩)

/-- E5 of a rejected descriptor, E6 of one that brings another sample rate, or none. -/
theorem descriptorEvents_cases (fr : Frame) (s : State) :
    descriptorEvents fr s = [] ∨ (∃ f x y, descriptorEvents fr s = [.metaCrc f x y]) ∨
    ∃ x y, descriptorEvents fr s = [.newSampleRate x y] := by
  by_cases hv : Validated fr s
  · cases hc : crcOk s.cfg (payloadOf (forwardedEntry fr s).frame 0) with
    | false => exact .inr (.inl ⟨_, _, _, (processFrame_rejected fr s hv hc).2⟩)
    | true =>
      obtain ⟨-, hfirst, hnext⟩ := processFrame_adopted fr s hv hc
      cases hm : s.cachedMeta with
      | none => exact .inr (.inr ⟨_, _, hfirst hm⟩)
      | some old =>
        by_cases hrate : old.sampleRate = (metaParse s.cfg (payloadOf (forwardedEntry fr s).frame 0)).sampleRate
        · exact .inl ((hnext old hm).1 hrate)
        · exact .inr (.inr ⟨_, _, (hnext old hm).2 hrate⟩)
  · exact .inl (processFrame_notValidated fr s hv).2

theorem droppedEvents_cases (s : State) : droppedEvents s = [] ∨ ∃ f, droppedEvents s = [.jbDrop f] := by
  unfold droppedEvents
  split
  · cases s.jb with
    | nil => exact .inl rfl
    | cons e rest => exact .inr ⟨_, rfl⟩
  · exact .inl rfl

/-! #### The operations of the HOST -/

theorem afterRead_events (r : Register) (s : State) : (afterRead s r).events = s.events := by
  rw [afterRead_frame]

theorem registerWrite_events (data : Word) (r : Register) (s : State) :
    (registerWrite data s r).events = s.events := by
  rw [registerWrite_frame]

theorem stopReceiving_events (s : State) : (stopReceiving s).events = s.events := by
  rw [stopReceiving_frame]

/-! #### The statement -/

/-- Settles O27: INGEST ends with its push, REC_PROCESS raises the events of its four stages one after another, and
the operations of the HOST raise none. -/
theorem eventOrderWithinAnOperation : Obligations.EventOrderWithinAnOperation := by
  intro s t i h hi
  cases i with
  | ingest dg =>
    rcases exec_ingest_cases dg s with hx | hx | hx
    · cases hx.symm.trans h; exact .inl rfl
    · cases hx.symm.trans h; exact .inr (.inl rfl)
    · cases hx.symm.trans h
      rcases fileDatagram_events dg s with hev | ⟨fr, hev⟩
      · exact .inl hev
      · obtain ⟨old, hpush, hold⟩ := tqPush_events fr s
        exact .inr (.inr ⟨old, _, hev.trans hpush, hold⟩)
  | recProcess =>
    cases ht : s.tq with
    | nil =>
      cases (exec_recProcess_empty ht).symm.trans h
      exact ⟨[], [], [], [], by simp, .inl rfl, .inl rfl, .inl rfl, .inl rfl⟩
    | cons fr rest =>
      cases (exec_recProcess_head ht).symm.trans h
      let u : State := { s with tq := rest }
      exact ⟨_, _, _, _, processFrame_log fr u, recoveryEvents_cases fr u, descriptorEvents_cases fr u,
        (lossEvents_none_or_one fr u).imp_right fun ⟨lost, hl⟩ => ⟨_, lost, hl⟩, droppedEvents_cases u⟩
  | readSampleRx => cases h; exact readSample_events false s
  | readSampleTx => cases h; exact readSample_events true s
  | regRead addr => cases h; exact afterRead_events (registerAt addr) s
  | regWrite addr data => cases h; exact registerWrite_events data (registerAt addr) s
  | stop => cases h; exact stopReceiving_events s
  | tqLen | start | clearCounters | reset => cases h; rfl
  | tqPush | tqPop | tqClear | fecRecover | metaValidate | jbPush => cases hi

end Sys2Proof.Machine


/-! ### The machine after reset (70_reset_and_hazards.md R148, R149) -/

namespace Sys2Proof.Machine

/-- A machine that is stopped and holds no event, no descriptor and no entry shows JB_EMPTY alone (10_state.md R36). -/
theorem statusWord_of_stopped_empty {s : State} (hrun : s.run = false) (hev : s.evtStatus = 0#32)
    (hmeta : s.cachedMeta = none) (hjb : s.jb = []) : statusWord s = 8#32 := by
  have hirq : irq s = false := by simp [irq, hev]
  simp [statusWord, bitWord, hrun, hmeta, hirq, hjb]

/-- Settles O53: the fields are those of the reset table, and STATUS is that of a stopped and empty machine. -/
theorem resetStateIsStoppedAndEmpty : Obligations.ResetStateIsStoppedAndEmpty := by
  have hstatus : statusWord State.reset = 8#32 := statusWord_of_stopped_empty rfl rfl rfl rfl
  refine ⟨rfl, rfl, rfl, rfl, rfl, rfl, List.length_replicate, fun _ => List.eq_of_mem_replicate, ?_⟩
  calc exec (.regRead 0x04#8) State.reset
      = .next { State.reset with outputs := [.word (statusWord State.reset)] } := exec_regRead_of_afterRead rfl
    _ = .next { State.reset with outputs := [.word 8#32] } := by rw [hstatus]

end Sys2Proof.Machine
